-- ==== Sys2Proof/Word.lean ====
section
/-! DEFINITION. The word types of the block (00_scope.md R17): a byte, a u16 and the 32-bit command word. -/

namespace Sys2Proof

/-- A byte, 0..255 (R17). -/
abbrev Byte := BitVec 8

/-- A u16: cursors, counts, capacities and ARG (R17; 92 D3). -/
abbrev Half := BitVec 16

/-- A host command word (R80). -/
abbrev Word := BitVec 32

end Sys2Proof
end

