-- ==== Sys2Proof/Config.lean ====
section
/-! DEFINITION. What an integrator fixes for the lifetime of the block (R8–R15, R49), the constants of the wire
and frame formats, and the free values: constants without a body, of which no proof can learn anything. -/

namespace Sys2Proof

/-- The parameters a model "takes as an argument" (R8, R9, R14). A step never changes them (R49). They are a field of
State so that every claim can be made for every choice of them: notes/assumptions/1.md. -/
structure Config where
  /-- N, the capacity of the ring buffer: 1 ≤ N ≤ 65535 (R8). -/
  cap : Half
  /-- HDR_LEN: PLEN_OFF + 1 ≤ HDR_LEN ≤ 128 (R9). -/
  hdrLen : Nat
  /-- RDY_ACTIVE_HIGH: does a high level of the readiness line mean asserted? (R14) -/
  rdyActiveHigh : Bool
deriving DecidableEq, Repr

/-- PLEN_OFF, the offset of the parameter-length byte in a frame (R10). -/
def Config.plenOff : Nat := 1

/-- FRAME_MAX, the capacity of the frame scratch area (R11). -/
def Config.frameMax : Nat := 128

/-- HS_LEN, the length of the handshake header (R12). -/
def Config.hsLen : Nat := 5

/-- The constraints on the parameters (R8, R9). -/
abbrev Config.Legal (c : Config) : Prop :=
  1 ≤ c.cap.toNat ∧ Config.plenOff + 1 ≤ c.hdrLen ∧ c.hdrLen ≤ 128

/-- The parameters of `State.reset`: N = 259 so that no frame can stall (R267, 92 D2), HDR_LEN = 4 (92 D26),
active high (92 D6). DESIGN CHOICE: notes/assumptions/1.md. -/
def Config.chosen : Config := { cap := 259#16, hdrLen := 4, rdyActiveHigh := true }

/-- The verdict of the external decoder (R15): an event or a decode-error kind. Their inner structure is the library's
(91 N18), so each is an abstract tag: notes/assumptions/3.md. -/
inductive Verdict where
  | event (e : Nat)
  | decodeError (k : Nat)
deriving DecidableEq, Repr, Inhabited

/-- One answer of the environment to one bus event (R16, R46): the level of the readiness line, whether the transfer
faults, and the bytes the radio drives. Each bus event reads the part that concerns it. -/
structure Draw where
  level : Bool
  commFault : Bool
  rx : List Byte
deriving DecidableEq, Repr, Inhabited

/-- FREE VALUE. DECODE, the external decoder: a function of the frame bytes alone (R15, 92 D30). -/
opaque Config.decodeFrame : List Byte → Verdict

/-- FREE VALUE. The environment's k-th unscripted answer (R46, 92 D34). -/
opaque Config.freeDraw : Nat → Draw

/-- FREE VALUE. Byte `a` of a store whose contents the spec leaves unspecified (R261, 93 V1–V4); `tag` tells one
occasion from another. -/
opaque Config.freeByte : Nat → Nat → Byte

/-- FREE VALUE. A u16 register the spec leaves unspecified at a later reset (R261, 93 V5). -/
opaque Config.freeHalf : Nat → Half

end Sys2Proof
end

