-- ==== Sys2Proof/Syntax.lean ====
section
/-! DEFINITION. The instructions: the ten host commands (R82) and the three wire headers (R89), one constructor for
each row of spec/opcode_table.json, and the form in which each is carried. -/

namespace Sys2Proof

/-- One constructor per row of the opcode table. A command carries exactly the operand strings of R83. -/
inductive Instr where
  /-- WRITE {hdrs}, {pays} (R161). -/
  | write (hdrs pays : List Byte)
  /-- READ (R210). -/
  | read
  /-- PULL (R167). -/
  | pull
  /-- EXTRACT (R192). -/
  | extract
  /-- RDREG #reg (R220). -/
  | rdreg (reg : Half)
  /-- RB.CONTIG (R112). -/
  | rbContig
  /-- RB.FILL #n, {fills} (R114). -/
  | rbFill (n : Half) (fills : List Byte)
  /-- RB.AVAIL (R115). -/
  | rbAvail
  /-- RB.PEEK #offset (R117). -/
  | rbPeek (offset : Half)
  /-- RB.TAKE #n (R119). -/
  | rbTake (n : Half)
  /-- The write-request header, host to radio (R89, R141). -/
  | hsWreq
  /-- The read-request header, host to radio (R89, R141). -/
  | hsRreq
  /-- The ready-reply header with its two capacities, radio to host (R89, R90, R142). -/
  | hsReady (wcap rcap : Half)
deriving DecidableEq, Repr

/-- The operand strings beside a command word on the host port (R83). -/
structure Strings where
  hdrs : List Byte
  pays : List Byte
  fills : List Byte
deriving DecidableEq, Repr

/-- No operand strings. -/
def Strings.none : Strings := { hdrs := [], pays := [], fills := [] }

/-- How an instruction is carried: a command word with its strings on the host port (R80), or a header of five bytes
on the serial bus (R89). -/
inductive Carrier where
  | command (word : Word) (strings : Strings)
  | header (bytes : List Byte)
deriving DecidableEq, Repr

end Sys2Proof
end

