-- ==== Sys2Proof/Machine/State.lean ====
section
/-! DEFINITION. The state of the block (10_state.md) as plain data, with the host port, the environment's answers and
the outputs beside it, and the state right after reset (R260, R261). -/

namespace Sys2Proof.Machine

/-- A result code (R28): 0 OK, 1 NOT_READY, 2 ERR_COMM, 3 ERR_DECODE. -/
inductive Res where
  | ok
  | notReady
  | errComm
  | errDecode
deriving DecidableEq, Repr

/-- A fault cause (R231), codes 0 to 7 in this order. -/
inductive Cause where
  /-- No fault since reset. -/
  | none
  /-- A command word with no meaning, or RDREG of a reserved number. -/
  | illegalCmd
  /-- RB_FILL with |FILLS| ≠ ARG. -/
  | operandMismatch
  /-- RB_FILL of more than the contiguous length. -/
  | rbFillOverrun
  /-- RB_PEEK at an offset ≥ CNT. -/
  | rbPeekRange
  /-- RB_TAKE of more than CNT bytes. -/
  | rbTakeRange
  /-- A complete frame longer than FRAME_MAX, in EXTRACT or READ. -/
  | frameTooLong
  /-- A command presented while another is in progress. -/
  | reentry
deriving DecidableEq, Repr

/-- SEQ, the sequencer position (R35): IDLE or the label of the next step. `w2reply` and `p3reply` are the model's own
halves of @W2 and @P3, between the handshake's bus event and the reading of its reply: notes/assumptions/7.md. -/
inductive Seq where
  | idle
  | w1 | w2 | w2reply | w3 | w4 | w9
  | p1 | p2 | p3 | p3reply | p4 | p5 | p9
  | x1
  | r1 | r2
deriving DecidableEq, Repr

/-- The direction of a handshake (R141). -/
inductive Dir where
  | write
  | read
deriving DecidableEq, Repr

/-- HSBUF[0..4], the handshake buffer (R25). -/
structure Header where
  b0 : Byte
  b1 : Byte
  b2 : Byte
  b3 : Byte
  b4 : Byte
deriving DecidableEq, Repr

/-- A byte store (R60): the bytes written so far, addresses strictly rising. A byte never written holds the free value
`Config.freeByte tag address`: notes/assumptions/4.md. -/
structure Memory where
  cells : List Host.Cell
  tag : Nat
deriving DecidableEq, Repr

/-- What a duplex transfer answered, as the trace records it (R45). -/
inductive XferOutcome where
  | ok (rx : List Byte)
  | commFault
deriving DecidableEq, Repr

/-- What a write-only transfer answered (R45). -/
inductive WroOutcome where
  | ok
  | commFault
deriving DecidableEq, Repr

/-- A bus event (R45). -/
inductive BusEvent where
  /-- CS(b). -/
  | cs (level : Bool)
  /-- RDYS(v): v says whether the readiness line was asserted. -/
  | rdys (asserted : Bool)
  /-- XFER(tx, out). -/
  | xfer (tx : List Byte) (out : XferOutcome)
  /-- WRO(tx, out). -/
  | wro (tx : List Byte) (out : WroOutcome)
  /-- RRST, the radio reset action. -/
  | rrst
deriving DecidableEq, Repr

/-- The outputs of a completed command (R38). -/
structure Output where
  res : Res
  value : Half := 0#16
  data : List Byte := []
  event : Option Verdict := none
deriving DecidableEq, Repr

/-- A command in progress with its operands, and the variable `res` of its pseudocode (`p` in READ). -/
structure Running where
  cmd : Instr
  res : Res
deriving DecidableEq, Repr

/-- What happens at the block's input ports in one step (R42): notes/assumptions/6.md. -/
inductive HostInput where
  /-- The host presents a command and waits until it ends: one atomic step (R4, R66). -/
  | call (word : Word) (strings : Strings)
  /-- The host presents a command and does not wait: its labelled steps follow, one a step (R4, R35). -/
  | present (word : Word) (strings : Strings)
  /-- Nothing is presented. -/
  | quiet
  /-- The input `rst` is asserted (R260). -/
  | rst
deriving DecidableEq, Repr

/-- Why the model stops. No step of the machine stops in a state that meets `Inv` (Sys2Proof/Safety.lean). -/
inductive Fault where
  /-- Raised by HS.WREQ, HS.RREQ and HS.READY alone, where the sequencer is not at the point of a handshake that sends or
  awaits that header, or chip-select is released: R141 makes it the caller's duty and gives no effect. Safe. -/
  | headerOutOfTurn
deriving DecidableEq, Repr

/-- Why the model gives an instruction no meaning. -/
inductive Refusal where
  /-- Raised by exec for an instruction without a meaning; no instruction is left without one. Safe. -/
  | notModelled (mnemonic : String)
deriving DecidableEq, Repr

structure State where
  /-- N, HDR_LEN and RDY_ACTIVE_HIGH: fixed, never written (R49). -/
  cfg : Config
  /-- WP, the write cursor (R21). -/
  wp : Half
  /-- RP, the read cursor (R22). -/
  rp : Half
  /-- CNT, the count of valid unread bytes (R23). -/
  cnt : Half
  /-- RB[0..N-1], the ring-buffer RAM (R37). -/
  rb : Memory
  /-- HSBUF[0..4], the handshake buffer (R25). -/
  hsbuf : Header
  /-- FBUF[0..127], the frame scratch area (R26). -/
  fbuf : Memory
  /-- FLEN, the length of the last extracted frame (R27). -/
  flen : BitVec 8
  /-- LAST_RES (R29). -/
  lastRes : Res
  /-- FAULT (R30). -/
  fault : Bool
  /-- FAULT_CAUSE (R31). -/
  faultCause : Cause
  /-- CS_N, the level of the chip-select output (R32). -/
  csN : Bool
  /-- R_REM, the bytes reported and not yet pulled (R34). -/
  rRem : Half
  /-- WIN_K, the length of the current pull window (R36). -/
  winK : Half
  /-- SEQ, the sequencer position (R35). -/
  seq : Seq
  /-- The command in progress, none at SEQ = IDLE (R35). -/
  cur : Option Running
  /-- The outputs of the last command presented, none where it gave none (R38). -/
  out : Option Output
  /-- The bus trace, oldest event first (R45). -/
  trace : List BusEvent
  /-- The environment's scripted answers to come; free draws follow (R46). The model's own: notes/assumptions/5.md. -/
  env : List Draw
  /-- The inputs to come at the host port and at rst (R42). The model's own: notes/assumptions/6.md. -/
  port : List HostInput
  /-- The number of free values used so far. The model's own: notes/assumptions/5.md. -/
  fresh : Nat
deriving DecidableEq, Repr

/-- The state a construction leaves (R260, R261) for given parameters. HSBUF, R_REM and WIN_K, which the spec leaves
unspecified, are zero: DESIGN CHOICE, notes/assumptions/2.md. -/
def State.construct (c : Config) : State :=
  { cfg := c
    wp := 0#16
    rp := 0#16
    cnt := 0#16
    rb := { cells := [], tag := 0 }
    hsbuf := { b0 := 0#8, b1 := 0#8, b2 := 0#8, b3 := 0#8, b4 := 0#8 }
    fbuf := { cells := [], tag := 1 }
    flen := 0#8
    lastRes := .ok
    fault := false
    faultCause := .none
    csN := true
    rRem := 0#16
    winK := 0#16
    seq := .idle
    cur := none
    out := none
    trace := [.rrst]
    env := []
    port := []
    fresh := 2 }

/-- The machine right after reset. -/
def State.reset : State := State.construct Config.chosen

end Sys2Proof.Machine
end

