-- ==== Sys2Proof/Machine/Ops.lean ====
section
/-! DEFINITION. The named operations over the stores and registers: byte stores, the ring-buffer primitives
(40_ring_buffer.md), completing and refusing a command, fault entry (R233) and reset (R260). -/

namespace Sys2Proof.Machine

/-! ### Byte stores (R60, R70) -/

/-- The byte listed at an address. -/
def lookupCell : List Host.Cell → Nat → Option Byte
  | [], _ => none
  | (b, v) :: rest, a => if a = b then some v else if a < b then none else lookupCell rest a

/-- Lists a byte at an address, keeping the addresses rising. -/
def insertCell (a : Nat) (v : Byte) : List Host.Cell → List Host.Cell
  | [] => [(a, v)]
  | (b, u) :: rest =>
    if a = b then (a, v) :: rest
    else if a < b then (a, v) :: (b, u) :: rest
    else (b, u) :: insertCell a v rest

/-- Are the listed addresses strictly rising, from `lo` on? -/
def cellsRising : Nat → List Host.Cell → Bool
  | _, [] => true
  | lo, (a, _) :: rest => decide (lo ≤ a) && cellsRising (a + 1) rest

/-- The canonical form of a store of `size` bytes: listed addresses strictly rising and all below `size`. An unlisted
byte holds no value of the model's, so no listed byte equals it. -/
abbrev Memory.wf (size : Nat) (m : Memory) : Bool :=
  cellsRising 0 m.cells && m.cells.all (fun c => decide (c.1 < size))

/-- Reads one byte: the last value written there (R70), or the free value of a byte never written (93 V1, V4). -/
def Memory.read (m : Memory) (a : Nat) : Byte :=
  match lookupCell m.cells a with
  | some v => v
  | none => Config.freeByte m.tag a

/-- Writes one byte. -/
def Memory.write (m : Memory) (a : Nat) (v : Byte) : Memory :=
  { m with cells := insertCell a v m.cells }

/-- Writes a byte string at rising addresses: MemWrite of R17, which never wraps. -/
def Memory.writeList (m : Memory) (a : Nat) : List Byte → Memory
  | [] => m
  | v :: vs => Memory.writeList (Memory.write m a v) (a + 1) vs

/-- `k` bytes 0x00 (R17). -/
def zeros (k : Nat) : List Byte := List.replicate k 0#8

/-! ### The ring buffer (R111, R113, R116, R118) -/

/-- N as a natural number. -/
def capN (s : State) : Nat := s.cfg.cap.toNat

/-- ContigLen() = min(N - CNT, N - WP) (R111). -/
def contigLen (s : State) : Nat := min (capN s - s.cnt.toNat) (capN s - s.wp.toNat)

/-- RBFill(|bs|, bs) (R113). The caller checks |bs| ≤ ContigLen(). -/
def rbFill (bs : List Byte) (s : State) : State :=
  { s with
    rb := s.rb.writeList s.wp.toNat bs
    wp := BitVec.ofNat 16 ((s.wp.toNat + bs.length) % capN s)
    cnt := BitVec.ofNat 16 (s.cnt.toNat + bs.length) }

/-- Peek(off) = RB[(RP + off) mod N] (R116). The caller checks off < CNT. -/
def peek (off : Nat) (s : State) : Byte := s.rb.read ((s.rp.toNat + off) % capN s)

/-- The n bytes at the head of the buffer, in logical order (R61, R118). -/
def headBytes (n : Nat) (s : State) : List Byte := (List.range n).map (fun j => peek j s)

/-- The register part of Take(n) (R118). The caller checks n ≤ CNT. -/
def dropHead (n : Nat) (s : State) : State :=
  { s with
    rp := BitVec.ofNat 16 ((s.rp.toNat + n) % capN s)
    cnt := BitVec.ofNat 16 (s.cnt.toNat - n) }

/-- FBUF[0..L-1] <- frame; FLEN <- L (R192). Bytes at L and above stay (R26). -/
def storeFrame (frame : List Byte) (s : State) : State :=
  { s with fbuf := s.fbuf.writeList 0 frame, flen := BitVec.ofNat 8 frame.length }

/-! ### The handshake buffer (R25) -/

/-- HSBUF as a byte string. -/
def Header.bytes (h : Header) : List Byte := [h.b0, h.b1, h.b2, h.b3, h.b4]

/-- HSBUF filled from five bytes. -/
def headerOf (bs : List Byte) : Header :=
  { b0 := bs.getD 0 0#8, b1 := bs.getD 1 0#8, b2 := bs.getD 2 0#8, b3 := bs.getD 3 0#8, b4 := bs.getD 4 0#8 }

/-- Five unspecified bytes (R141, 93 V3): free values. -/
def freeHeader (tag : Nat) : Header :=
  { b0 := Config.freeByte tag 0, b1 := Config.freeByte tag 1, b2 := Config.freeByte tag 2,
    b3 := Config.freeByte tag 3, b4 := Config.freeByte tag 4 }

/-- HSBUF <- unspecified, after a faulted handshake transfer (R141). -/
def scrambleHsbuf (s : State) : State :=
  { s with hsbuf := freeHeader s.fresh, fresh := s.fresh + 1 }

/-! ### The end of a command -/

/-- A command completes with its outputs: LAST_RES <- RES, SEQ <- IDLE (R29, R35, R38). -/
def complete (o : Output) (s : State) : State :=
  { s with lastRes := o.res, seq := .idle, cur := none, out := some o }

/-- The fault state refuses a command: no change, no outputs (R234). -/
def refuse (s : State) : State := { s with out := none }

/-- Fault entry, `raise Fault(cause)` (R233): the first cause since reset is recorded, the sequencer goes to IDLE unless
the cause is REENTRY (R244), and the raising command ends without outputs. There is no return but reset (R237). -/
def raise (cause : Cause) (s : State) : State :=
  let recorded := if s.fault then s else { s with fault := true, faultCause := cause }
  if cause = .reentry then { recorded with out := none }
  else { recorded with seq := .idle, cur := none, out := none }

/-- The entry checks that come before decoding (R235, R244): a command presented while another is in progress raises
REENTRY; one presented while FAULT = 1 is refused; any other runs. -/
def enter (body : State → State) (s : State) : Host.Outcome State Fault Refusal :=
  if s.seq ≠ .idle then .next (raise .reentry s)
  else if s.fault then .next (refuse s)
  else .next (body s)

/-- A command word with no meaning (R84–R86). -/
def illegalCommand (s : State) : Host.Outcome State Fault Refusal :=
  enter (raise .illegalCmd) s

/-! ### Reset -/

/-- Reset (R260), at any SEQ (R262): the registers it names, CS_N without a CS event, then the one event RRST. What it
leaves unspecified (RB, HSBUF, FBUF, R_REM, WIN_K) takes free values: notes/assumptions/8.md. -/
def resetBlock (s : State) : State :=
  { s with
    wp := 0#16
    rp := 0#16
    cnt := 0#16
    flen := 0#8
    lastRes := .ok
    fault := false
    faultCause := .none
    seq := .idle
    cur := none
    out := none
    csN := true
    rb := { cells := [], tag := s.fresh }
    fbuf := { cells := [], tag := s.fresh + 1 }
    hsbuf := freeHeader (s.fresh + 2)
    rRem := Config.freeHalf (s.fresh + 3)
    winK := Config.freeHalf (s.fresh + 4)
    fresh := s.fresh + 5
    trace := s.trace ++ [.rrst] }

end Sys2Proof.Machine
end

