-- ==== Sys2Proof/Machine/Flags.lean ====
section
/-! DEFINITION. The codes of results and causes (R28, R231), the STATUS word (R40, R220) and the combination of
results in READ (R211). LAST_RES is the block's only flag (R29); `complete` in Ops.lean writes it. -/

namespace Sys2Proof.Machine

/-- The numeric result code (R28). -/
def Res.code : Res → BitVec 2
  | .ok => 0
  | .notReady => 1
  | .errComm => 2
  | .errDecode => 3

/-- The numeric cause code (R231). -/
def Cause.code : Cause → BitVec 4
  | .none => 0
  | .illegalCmd => 1
  | .operandMismatch => 2
  | .rbFillOverrun => 3
  | .rbPeekRange => 4
  | .rbTakeRange => 5
  | .frameTooLong => 6
  | .reentry => 7

/-- One bit. -/
def bit (b : Bool) : BitVec 1 := if b then 1#1 else 0#1

/-- STATUS as RDREG assembles it (R220); bits [15:8] read 0 (R40). -/
def status (s : State) : Half :=
  s.lastRes.code.setWidth 16 ||| ((bit s.fault).setWidth 16 <<< 2) |||
    (s.faultCause.code.setWidth 16 <<< 3) ||| ((bit s.csN).setWidth 16 <<< 7)

/-- Combine(p, x) (R211): p is the pull's result, x the extraction's. A frame decides; without one a communication
error of the pull is passed on, and anything else is NOT_READY. ExtractStep never gives x = ERR_COMM. -/
def combine (p x : Res) : Res :=
  match x with
  | .ok => .ok
  | .errDecode => .errDecode
  | .notReady => if p = .errComm then .errComm else .notReady
  | .errComm => .errComm

/-- The result a decoder's verdict gives (R192). -/
def verdictRes : Verdict → Res
  | .event _ => .ok
  | .decodeError _ => .errDecode

end Sys2Proof.Machine
end

