-- ==== Sys2Proof/Machine/Operands.lean ====
section
/-! DEFINITION. The operand forms: ARG as a byte count, an offset or a register number (R81), the operand strings of a
command in progress (R83), and the registers RDREG reads (R41). -/

namespace Sys2Proof.Machine

/-- ARG as a byte count or an offset: zero-extended, never scaled (R81). -/
abbrev argCount (arg : Half) : Nat := arg.toNat

/-- The register with an RDREG number (R41), none where the number is reserved. -/
def readReg (reg : Half) (s : State) : Option Half :=
  match reg.toNat with
  | 0 => some s.cfg.cap
  | 1 => some s.wp
  | 2 => some s.rp
  | 3 => some s.cnt
  | 4 => some (status s)
  | _ => none

/-- HDRS and PAYS of an instruction (R83). -/
def operandHdrs : Instr → List Byte
  | .write hdrs _ => hdrs
  | _ => []

@[inherit_doc operandHdrs]
def operandPays : Instr → List Byte
  | .write _ pays => pays
  | _ => []

/-- HDRS of the command in progress. -/
def curHdrs (s : State) : List Byte :=
  match s.cur with
  | some c => operandHdrs c.cmd
  | none => []

/-- PAYS of the command in progress. -/
def curPays (s : State) : List Byte :=
  match s.cur with
  | some c => operandPays c.cmd
  | none => []

/-- The variable `res` of the command in progress. -/
def curRes (s : State) : Res :=
  match s.cur with
  | some c => c.res
  | none => .ok

/-- Is the command in progress a READ? Its pull then goes on to @R2 (R210). -/
def curIsRead (s : State) : Bool :=
  match s.cur with
  | some c => decide (c.cmd = .read)
  | none => false

end Sys2Proof.Machine
end

