-- ==== Sys2Proof/Machine/Reassembly.lean ====
section
/-! DEFINITION. The event reassembler (43_reassembly.md): ExtractStep and EXTRACT. -/

namespace Sys2Proof.Machine

/-- How ExtractStep ends (R192): without a frame, with an over-long frame (R194), or with a frame and the decoder's
verdict. -/
inductive Extraction where
  | noFrame
  | tooLong
  | frame (bytes : List Byte) (verdict : Verdict)
deriving DecidableEq, Repr

/-- L = HDR_LEN + plen, plen the byte at offset PLEN_OFF (R191). -/
def frameLen (s : State) : Nat := s.cfg.hdrLen + (peek Config.plenOff s).toNat

/-- ExtractStep(), step @X1 (R192): the two availability checks, then the length check (R194), then the take. The frame
leaves the buffer whatever the verdict (R195). -/
def extractStep (s : State) : Extraction × State :=
  if s.cnt.toNat < s.cfg.hdrLen then (.noFrame, s)
  else if s.cnt.toNat < frameLen s then (.noFrame, s)
  else if Config.frameMax < frameLen s then (.tooLong, s)
  else
    let frame := headBytes (frameLen s) s
    (.frame frame (Config.decodeFrame frame), storeFrame frame (dropHead (frameLen s) s))

/-- The outputs of a frame (R38, R192), with the result code `res`. -/
def frameOutput (res : Res) (frame : List Byte) (v : Verdict) : Output :=
  { res := res, data := frame, event := some v }

/-- EXTRACT past its entry checks (R192). -/
def runExtract (s : State) : State :=
  match extractStep s with
  | (.noFrame, s1) => complete { res := .notReady } s1
  | (.tooLong, s1) => raise .frameTooLong s1
  | (.frame f v, s1) => complete (frameOutput (verdictRes v) f v) s1

/-- EXTRACT (R192). -/
def execExtract (s : State) : Host.Outcome State Fault Refusal := enter runExtract s

end Sys2Proof.Machine
end

