-- ==== Sys2Proof/WellFormed.lean ====
section
/-! DEFINITION. Which instructions are well formed: the string lengths of R83. -/

namespace Sys2Proof

/-- WRITE's strings have length 0..65535; RB_FILL's string has length ARG (R83). A reserved RDREG number is well formed:
it decodes, and raises its fault when it runs (95 E5). -/
def Instr.wellFormed : Instr → Bool
  | .write hdrs pays => decide (hdrs.length ≤ 65535) && decide (pays.length ≤ 65535)
  | .rbFill n fills => decide (fills.length = n.toNat)
  | .read => true
  | .pull => true
  | .extract => true
  | .rdreg _ => true
  | .rbContig => true
  | .rbAvail => true
  | .rbPeek _ => true
  | .rbTake _ => true
  | .hsWreq => true
  | .hsRreq => true
  | .hsReady _ _ => true

end Sys2Proof
end

