-- ==== Sys2Proof/Decode.lean ====
section
/-! DEFINITION. The decoder (R88 for command words, R89 and R90 for wire headers), total and rejecting by name; then
the encoder, written from the same tables (R80, R82, R89, R94). -/

namespace Sys2Proof

/-- Why a carrier has no meaning. The first three are the verdict ILLEGAL_CMD of R88. -/
inductive DecodeError where
  /-- CMD[15:4] ≠ 0 (R85). -/
  | reservedField
  /-- A reserved OP (R84). -/
  | reservedOp
  /-- ARG ≠ 0 where the OP takes none (R86). -/
  | unusedArg
  /-- A header whose byte 0 is no marker (R89). -/
  | noMarker
  /-- A request header with a byte 1–4 other than 0x00 (R89). -/
  | requestFiller
  /-- A header that is not five bytes long (R12). -/
  | headerLength
deriving DecidableEq, Repr

/-- OP = CMD[3:0] (R80). -/
def opField (w : Word) : BitVec 4 := w.extractLsb' 0 4

/-- RSV = CMD[15:4] (R80). -/
def rsvField (w : Word) : BitVec 12 := w.extractLsb' 4 12

/-- ARG = CMD[31:16] (R80, R81). -/
def argField (w : Word) : Half := w.extractLsb' 16 16

/-- A command whose OP takes no ARG (R86). -/
def withoutArg (w : Word) (i : Instr) : Except DecodeError Instr :=
  if argField w = 0#16 then .ok i else .error .unusedArg

/-- The opcode map (R82, R88): what an OP means where the reserved field is zero. Strings an OP does not carry are not
looked at: notes/assumptions/13.md. -/
def decodeOp (w : Word) (st : Strings) : Nat → Except DecodeError Instr
  | 0x1 => withoutArg w (.write st.hdrs st.pays)
  | 0x2 => withoutArg w .read
  | 0x3 => withoutArg w .pull
  | 0x4 => withoutArg w .extract
  | 0x7 => .ok (.rdreg (argField w))
  | 0x8 => withoutArg w .rbContig
  | 0x9 => .ok (.rbFill (argField w) st.fills)
  | 0xA => withoutArg w .rbAvail
  | 0xB => .ok (.rbPeek (argField w))
  | 0xC => .ok (.rbTake (argField w))
  | _ => .error .reservedOp

/-- The decoding procedure of R88: the reserved field first. -/
def decodeCommand (w : Word) (st : Strings) : Except DecodeError Instr :=
  if rsvField w ≠ 0#12 then .error .reservedField else decodeOp w st (opField w).toNat

/-- le16(lo, hi) = zext_16(lo) + 256 · zext_16(hi) (R17, R62). -/
def le16 (lo hi : Byte) : Half := lo.setWidth 16 + 256#16 * hi.setWidth 16

/-- The marker bytes of R13. -/
def writeMarker : Byte := 0x0A#8
@[inherit_doc writeMarker] def readMarker : Byte := 0x0B#8
@[inherit_doc writeMarker] def readyMarker : Byte := 0x02#8

/-- A header of the serial bus (R89, R90). Of the replies only one that starts with 0x02 is a header; every other byte 0
means not ready (R142), and the two request markers stand for requests alone. -/
def decodeHeader : List Byte → Except DecodeError Instr
  | [b0, b1, b2, b3, b4] =>
    if b0 = readyMarker then .ok (.hsReady (le16 b1 b2) (le16 b3 b4))
    else if b0 = writeMarker then
      if [b1, b2, b3, b4] = [0#8, 0#8, 0#8, 0#8] then .ok .hsWreq else .error .requestFiller
    else if b0 = readMarker then
      if [b1, b2, b3, b4] = [0#8, 0#8, 0#8, 0#8] then .ok .hsRreq else .error .requestFiller
    else .error .noMarker
  | _ => .error .headerLength

/-- The decoder, total on every carrier. -/
def decode : Carrier → Except DecodeError Instr
  | .command w st => decodeCommand w st
  | .header bytes => decodeHeader bytes

/-- The five header bytes of a number, byte 0 its least significant byte: byte 0 is exchanged first (R18). -/
def headerBytes (w : Nat) : List Byte :=
  [BitVec.ofNat 8 w, BitVec.ofNat 8 (w >>> 8), BitVec.ofNat 8 (w >>> 16), BitVec.ofNat 8 (w >>> 24),
    BitVec.ofNat 8 (w >>> 32)]

/-- The carrier of an opcode-table row's word: a row of one byte is a wire header (format HSHDR), a wider one a command
word (format CMD). A command word is stored in no memory, so no byte order concerns it (R74). -/
def tableCarrier (nbits w : Nat) : Option Carrier :=
  if nbits ≤ 8 ∨ nbits = 40 then some (.header (headerBytes (w % 2 ^ nbits)))
  else if nbits ≤ 32 then some (.command (BitVec.ofNat 32 (w % 2 ^ nbits)) Strings.none)
  else none

/-- The instruction the decoder reads from a row's word of `nbits` bits. -/
def decodeTableWord (nbits w : Nat) : Option Instr :=
  match tableCarrier nbits w with
  | none => none
  | some c => match decode c with
    | .ok i => some i
    | .error _ => none

/-- A command word from its fields, (arg << 16) OR op with RSV = 0 (R80, R94). -/
def commandWord (op : BitVec 4) (arg : Half) : Word := (arg.setWidth 32 <<< 16) ||| op.setWidth 32

/-- A request header (R89): the marker, then four bytes 0x00. -/
def requestHeader (marker : Byte) : List Byte := [marker, 0#8, 0#8, 0#8, 0#8]

/-- The low byte of a u16: the first of its two on the wire (R62). -/
def lowByte (v : Half) : Byte := v.extractLsb' 0 8

/-- The high byte of a u16: the second of its two on the wire (R62). -/
def highByte (v : Half) : Byte := v.extractLsb' 8 8

/-- The encoder (R82, R89, R94). -/
def encode : Instr → Carrier
  | .write hdrs pays => .command (commandWord 0x1#4 0#16) { hdrs := hdrs, pays := pays, fills := [] }
  | .read => .command (commandWord 0x2#4 0#16) Strings.none
  | .pull => .command (commandWord 0x3#4 0#16) Strings.none
  | .extract => .command (commandWord 0x4#4 0#16) Strings.none
  | .rdreg reg => .command (commandWord 0x7#4 reg) Strings.none
  | .rbContig => .command (commandWord 0x8#4 0#16) Strings.none
  | .rbFill n fills => .command (commandWord 0x9#4 n) { hdrs := [], pays := [], fills := fills }
  | .rbAvail => .command (commandWord 0xA#4 0#16) Strings.none
  | .rbPeek offset => .command (commandWord 0xB#4 offset) Strings.none
  | .rbTake n => .command (commandWord 0xC#4 n) Strings.none
  | .hsWreq => .header (requestHeader writeMarker)
  | .hsRreq => .header (requestHeader readMarker)
  | .hsReady wcap rcap =>
    .header [readyMarker, lowByte wcap, highByte wcap, lowByte rcap, highByte rcap]

end Sys2Proof
end

