-- ==== Sys2Proof/Machine/Bus.lean ====
section
/-! DEFINITION. The bus primitives of R17, each of which records one bus event (R45) and takes one answer of the
environment (R46). -/

namespace Sys2Proof.Machine

/-- Records a bus event (R45). -/
def emit (e : BusEvent) (s : State) : State := { s with trace := s.trace ++ [e] }

/-- SetCS(b): CS_N <- b (R17). -/
def setCS (b : Bool) (s : State) : State := { s with csN := b, trace := s.trace ++ [.cs b] }

/-- An answer taken from the script, or a free draw when the script has run out; with what is left of the script and
the number of free values used (R46). -/
def drawFrom (env : List Draw) (fresh : Nat) : Draw × List Draw × Nat :=
  match env with
  | d :: ds => (d, ds, fresh)
  | [] => (Config.freeDraw fresh, [], fresh + 1)

/-- The environment's next answer. -/
def nextDraw (s : State) : Draw × State :=
  let p := drawFrom s.env s.fresh
  (p.1, { s with env := p.2.1, fresh := p.2.2 })

/-- The next k answers of the environment, none of them taken. -/
def draws : Nat → State → List Draw
  | 0, _ => []
  | k + 1, s => (nextDraw s).1 :: draws k (nextDraw s).2

/-- Is the readiness line asserted at this level? (R14) -/
def asserted (c : Config) (level : Bool) : Bool := level == c.rdyActiveHigh

/-- SampleRDY() (R17). -/
def sampleRdy (s : State) : Bool × State :=
  let v := asserted s.cfg (nextDraw s).1.level
  (v, emit (.rdys v) (nextDraw s).2)

/-- Exactly n received bytes (R46: |rx| = |tx|): notes/assumptions/5.md. -/
def fit (n : Nat) (bs : List Byte) : List Byte := (bs ++ zeros n).take n

/-- The answer to a duplex transfer: the bytes received, or a communication fault and the bytes p received before it
(R46). Only a pull window looks at p. -/
inductive XferAnswer where
  | ok (rx : List Byte)
  | commFault (received : List Byte)
deriving DecidableEq, Repr

/-- The answer a draw gives to a transfer of n bytes. -/
def answerOf (n : Nat) (d : Draw) : XferAnswer :=
  if d.commFault then .commFault (d.rx.take n) else .ok (fit n d.rx)

/-- What the trace records of an answer (R45). -/
def XferAnswer.outcome : XferAnswer → XferOutcome
  | .ok rx => .ok rx
  | .commFault _ => .commFault

/-- BusXfer(tx) (R17). -/
def busXfer (tx : List Byte) (s : State) : XferAnswer × State :=
  let a := answerOf tx.length (nextDraw s).1
  (a, emit (.xfer tx a.outcome) (nextDraw s).2)

/-- The outcome a draw gives to a write-only transfer. -/
def wroOf (d : Draw) : WroOutcome := if d.commFault then .commFault else .ok

/-- BusWrite(tx) (R17). -/
def busWrite (tx : List Byte) (s : State) : WroOutcome × State :=
  let r := wroOf (nextDraw s).1
  (r, emit (.wro tx r) (nextDraw s).2)

end Sys2Proof.Machine
end

