-- ==== Sys2Proof/Machine/Handshake.lean ====
section
/-! DEFINITION. The handshake engine (41_handshake.md): the micro-operation Handshake(dir) that WRITE and PULL run, and
the meanings of the three wire headers, which are its two halves as labelled steps. -/

namespace Sys2Proof.Machine

/-- The outcomes of a handshake (R140). -/
inductive HsOutcome where
  | comm
  | notReady
  | ready (wcap rcap : Half)
deriving DecidableEq, Repr

/-- The request header of a direction (R89, R141). -/
def request : Dir → List Byte
  | .write => requestHeader writeMarker
  | .read => requestHeader readMarker

/-- The handshake's bus event (R141): HSBUF <- request, one transfer of HSBUF, HSBUF <- reply. Answers whether the
transfer succeeded. -/
def handshakeXfer (d : Dir) (s : State) : Bool × State :=
  let s1 := { s with hsbuf := headerOf (request d) }
  match busXfer s1.hsbuf.bytes s1 with
  | (.ok rx, s2) => (true, { s2 with hsbuf := headerOf rx })
  | (.commFault _, s2) => (false, scrambleHsbuf s2)

/-- What the reply in HSBUF says (R90, R141, R142): any byte 0 but 0x02 means not ready. -/
def replyOf (h : Header) : HsOutcome :=
  match decodeHeader h.bytes with
  | .ok (.hsReady wcap rcap) => .ready wcap rcap
  | _ => .notReady

/-- Handshake(dir) (R141). -/
def handshake (d : Dir) (s : State) : HsOutcome × State :=
  match handshakeXfer d s with
  | (true, s1) => (replyOf s1.hsbuf, s1)
  | (false, s1) => (.comm, s1)

/-! ### The labelled steps -/

/-- `res <- r; goto @W9` or `@P9`. -/
def leave (r : Res) (label : Seq) (s : State) : State :=
  { s with seq := label, cur := s.cur.map (fun c => { c with res := r }) }

/-- A request header goes out at `here`; the reply is read at `reply`, and a faulted transfer leaves by `exit` (@W2, @P3
with R141). A caller that has not asserted chip-select breaks R141's precondition. -/
def sendHeader (d : Dir) (here reply exit : Seq) (s : State) : Host.Outcome State Fault Refusal :=
  if s.seq = here ∧ s.csN = false then
    .next (match handshakeXfer d s with
      | (true, s1) => { s1 with seq := reply }
      | (false, s1) => leave .errComm exit s1)
  else .fault .headerOutOfTurn

/-- HS.WREQ: the write-request header goes out at @W2 (R141, R161). -/
def execHsWreq (s : State) : Host.Outcome State Fault Refusal := sendHeader .write .w2 .w2reply .w9 s

/-- HS.RREQ: the read-request header goes out at @P3 (R141, R167). -/
def execHsRreq (s : State) : Host.Outcome State Fault Refusal := sendHeader .read .p3 .p3reply .p9 s

/-- The capacity check of a ready reply to a write request (R161, R162), over natural numbers. -/
def acceptWcap (wcap : Half) (s : State) : State :=
  if wcap.toNat < (curHdrs s).length + (curPays s).length then leave .notReady .w9 s
  else { s with seq := .w3 }

/-- R_REM <- rcap, on a ready reply to a read request (R167). -/
def acceptRcap (rcap : Half) (s : State) : State := { s with rRem := rcap, seq := .p4 }

/-- HS.READY: a ready reply with its capacities, of which each direction uses its own (R142, R143). -/
def execHsReady (wcap rcap : Half) (s : State) : Host.Outcome State Fault Refusal :=
  if s.seq = .w2reply ∧ s.csN = false then .next (acceptWcap wcap s)
  else if s.seq = .p3reply ∧ s.csN = false then .next (acceptRcap rcap s)
  else .fault .headerOutOfTurn

/-- A reply that is not ready (R142): `res <- NOT_READY; goto @W9` or `@P9`. -/
def replyNotReady (exit : Seq) (s : State) : State := leave .notReady exit s

end Sys2Proof.Machine
end

