-- ==== Sys2Proof/Machine/Transfer.lean ====
section
/-! DEFINITION. The transfer driver (42_transfer.md): WRITE and PULL as atomic commands. -/

namespace Sys2Proof.Machine

/-- WRITE between its CS(0) and its CS(1): steps @W2 to @W4 (R161). -/
def writeBody (hdrs pays : List Byte) (s : State) : Res × State :=
  match handshake .write s with
  | (.comm, s1) => (.errComm, s1)
  | (.notReady, s1) => (.notReady, s1)
  | (.ready wcap _, s1) =>
    if wcap.toNat < hdrs.length + pays.length then (.notReady, s1)
    else match busWrite hdrs s1 with
      | (.commFault, s2) => (.errComm, s2)
      | (.ok, s2) => match busWrite pays s2 with
        | (.commFault, s3) => (.errComm, s3)
        | (.ok, s3) => (.ok, s3)

/-- WRITE past its entry checks (R161): chip-select is released on every path (R166). -/
def runWrite (hdrs pays : List Byte) (s : State) : State :=
  let r := writeBody hdrs pays (setCS false s)
  complete { res := r.1 } (setCS true r.2)

/-- WRITE (R161). -/
def execWrite (hdrs pays : List Byte) (s : State) : Host.Outcome State Fault Refusal :=
  enter (runWrite hdrs pays) s

/-- The while condition of @P4: R_REM > 0 and ContigLen() > 0 (R170). -/
def wantsWindow (s : State) : Bool := decide (0 < s.rRem.toNat) && decide (0 < contigLen s)

/-- @P4 opens a window: WIN_K <- min(R_REM, ContigLen()) (R170). -/
def openWindow (s : State) : State :=
  { s with winK := BitVec.ofNat 16 (min s.rRem.toNat (contigLen s)) }

/-- The window is zeroed before its transfer (R171), as the first work of the step @P5, since RB changes in no other step
of the loop (R66, R170): notes/assumptions/14.md. -/
def zeroWindow (s : State) : State := { s with rb := s.rb.writeList s.wp.toNat (zeros s.winK.toNat) }

/-- fz = p ++ zeros(WIN_K - |p|): the contents of a window whose transfer faulted (R172). -/
def faultedWindow (k : Nat) (received : List Byte) : List Byte := received ++ zeros (k - received.length)

/-- @P5: the window is zeroed, transferred and committed (R170, R171). A faulted window is committed too, and R_REM is
then not reduced (R172). Answers whether the transfer succeeded. -/
def moveWindow (s : State) : Bool × State :=
  let k := s.winK.toNat
  match busXfer (zeros k) (zeroWindow s) with
  | (.ok rx, s1) => (true, { rbFill rx s1 with rRem := BitVec.ofNat 16 (s1.rRem.toNat - k) })
  | (.commFault p, s1) => (false, rbFill (faultedWindow k p) s1)

/-- The pull loop (R170). Each turn moves at least one byte, so R_REM turns are enough. -/
def pullLoop : Nat → State → Res × State
  | 0, s => (.ok, s)
  | turns + 1, s =>
    if wantsWindow s then
      match moveWindow (openWindow s) with
      | (true, s1) => pullLoop turns s1
      | (false, s1) => (.errComm, s1)
    else (.ok, s)

/-- PULL between its CS(0) and its CS(1): steps @P3 to @P5 (R167). -/
def pullTransfer (s : State) : Res × State :=
  match handshake .read s with
  | (.comm, s1) => (.errComm, s1)
  | (.notReady, s1) => (.notReady, s1)
  | (.ready _ rcap, s1) => pullLoop rcap.toNat { s1 with rRem := rcap }

/-- PullBody(): steps @P1 to @P9 without the write of LAST_RES (R167, R210). -/
def pullBody (s : State) : Res × State :=
  match sampleRdy s with
  | (false, s1) => (.notReady, s1)
  | (true, s1) =>
    let r := pullTransfer (setCS false s1)
    (r.1, setCS true r.2)

/-- PULL past its entry checks (R167). -/
def runPull (s : State) : State :=
  let r := pullBody s
  complete { res := r.1 } r.2

/-- PULL (R167). -/
def execPull (s : State) : Host.Outcome State Fault Refusal := enter runPull s

end Sys2Proof.Machine
end

