-- ==== Sys2Proof/Machine/ReadOrchestration.lean ====
section
/-! DEFINITION. The read orchestration (44_read.md): READ. -/

namespace Sys2Proof.Machine

/-- @R2 of READ: ExtractStep after the pull gave `p`, and the combined result (R210, R211). An over-long frame raises
its fault here, and the pull's effects stay (R236). -/
def finishRead (p : Res) (s : State) : State :=
  match extractStep s with
  | (.noFrame, s1) => complete { res := combine p .notReady } s1
  | (.tooLong, s1) => raise .frameTooLong s1
  | (.frame f v, s1) => complete (frameOutput (combine p (verdictRes v)) f v) s1

/-- READ past its entry checks (R210): the pull first, always (R212). -/
def runRead (s : State) : State :=
  let r := pullBody s
  finishRead r.1 r.2

/-- READ (R210). -/
def execRead (s : State) : Host.Outcome State Fault Refusal := enter runRead s

end Sys2Proof.Machine
end

