-- ==== Sys2Proof/Machine/RegisterAccess.lean ====
section
/-! DEFINITION. Register access (45_register_access.md): RDREG. -/

namespace Sys2Proof.Machine

/-- RDREG past its entry check (R220). LAST_RES is not written. A reserved number raises ILLEGAL_CMD, but while FAULT = 1
it changes nothing and gives VALUE = 0. -/
def runRdreg (reg : Half) (s : State) : State :=
  match readReg reg s with
  | some v => { s with out := some { res := .ok, value := v } }
  | none => if s.fault then { s with out := some { res := .ok, value := 0#16 } } else raise .illegalCmd s

/-- RDREG (R220): the one command the fault state does not refuse (R234). -/
def execRdreg (reg : Half) (s : State) : Host.Outcome State Fault Refusal :=
  if s.seq ≠ .idle then .next (raise .reentry s) else .next (runRdreg reg s)

end Sys2Proof.Machine
end

