-- ==== Sys2Proof/Machine/RingBuffer.lean ====
section
/-! DEFINITION. The ring-buffer commands (40_ring_buffer.md). None records a bus event (R110). -/

namespace Sys2Proof.Machine

/-- RB_CONTIG (R112): VALUE <- ContigLen(). -/
def execRbContig (s : State) : Host.Outcome State Fault Refusal :=
  enter (fun s => complete { res := .ok, value := BitVec.ofNat 16 (contigLen s) } s) s

/-- RB_AVAIL (R115): VALUE <- CNT. -/
def execRbAvail (s : State) : Host.Outcome State Fault Refusal :=
  enter (fun s => complete { res := .ok, value := s.cnt } s) s

/-- RB_FILL past its entry checks (R114): the two length checks, in the order of R235, then the fill. -/
def runRbFill (n : Half) (fills : List Byte) (s : State) : State :=
  if fills.length ≠ argCount n then raise .operandMismatch s
  else if contigLen s < argCount n then raise .rbFillOverrun s
  else complete { res := .ok } (rbFill fills s)

/-- RB_FILL (R114). -/
def execRbFill (n : Half) (fills : List Byte) (s : State) : Host.Outcome State Fault Refusal :=
  enter (runRbFill n fills) s

/-- RB_PEEK past its entry checks (R117). -/
def runRbPeek (offset : Half) (s : State) : State :=
  if s.cnt.toNat ≤ argCount offset then raise .rbPeekRange s
  else complete { res := .ok, data := [peek (argCount offset) s] } s

/-- RB_PEEK (R117). -/
def execRbPeek (offset : Half) (s : State) : Host.Outcome State Fault Refusal :=
  enter (runRbPeek offset) s

/-- RB_TAKE past its entry checks (R119). -/
def runRbTake (n : Half) (s : State) : State :=
  if s.cnt.toNat < argCount n then raise .rbTakeRange s
  else complete { res := .ok, data := headBytes (argCount n) s } (dropHead (argCount n) s)

/-- RB_TAKE (R119). -/
def execRbTake (n : Half) (s : State) : Host.Outcome State Fault Refusal :=
  enter (runRbTake n) s

end Sys2Proof.Machine
end

