-- ==== Sys2Proof/Machine/Sequencer.lean ====
section
/-! DEFINITION. The sequencer at the level of labelled steps (R35, R160): how a presented command starts, and what each
label does. The wire headers of @W2 and @P3 are instructions of their own, which Step.lean hands to exec. Last, the fetch: what
the next step does. -/

namespace Sys2Proof.Machine

/-- The first label of a command (R35, R161, R167, R192, R210), none for a command of one step: the ring-buffer commands
and RDREG have no labels. -/
def firstLabel : Instr → Option Seq
  | .write _ _ => some .w1
  | .read => some .r1
  | .pull => some .p1
  | .extract => some .x1
  | .rdreg _ => none
  | .rbContig => none
  | .rbFill _ _ => none
  | .rbAvail => none
  | .rbPeek _ => none
  | .rbTake _ => none
  | .hsWreq => none
  | .hsRreq => none
  | .hsReady _ _ => none

/-- The block accepts a command: SEQ goes from IDLE to the first label (R35). -/
def startAt (label : Seq) (i : Instr) (s : State) : State :=
  { s with seq := label, cur := some { cmd := i, res := .ok }, out := none }

/-- The wire header the sequencer is at: the request of @W2 or @P3, or the reply in HSBUF where it is a ready one. -/
def wireHeader (s : State) : Option Instr :=
  match s.seq with
  | .w2 => some .hsWreq
  | .p3 => some .hsRreq
  | .w2reply | .p3reply =>
    match replyOf s.hsbuf with
    | .ready wcap rcap => some (.hsReady wcap rcap)
    | _ => none
  | _ => none

/-- @W3 and @W4: a write-only transfer, then `next` or, on a fault, @W9 (R161). -/
def writeString (bs : List Byte) (onOk : State → State) (s : State) : State :=
  match busWrite bs s with
  | (.ok, s1) => onOk s1
  | (.commFault, s1) => leave .errComm .w9 s1

/-- The end of a pull with result r: PULL completes, and READ goes on to @R2 with p = r (R167, R210). -/
def endPull (r : Res) (s : State) : State :=
  if curIsRead s then leave r .r2 s else complete { res := r } s

/-- @P1: the readiness gate (R168). -/
def stepP1 (s : State) : State :=
  match sampleRdy s with
  | (true, s1) => { s1 with seq := .p2 }
  | (false, s1) => endPull .notReady s1

/-- @P4: a window is opened, or the loop is over (R170). -/
def stepP4 (s : State) : State :=
  if wantsWindow s then { openWindow s with seq := .p5 } else leave .ok .p9 s

/-- @P5: the window is moved (R170, R172). -/
def stepP5 (s : State) : State :=
  match moveWindow s with
  | (true, s1) => { s1 with seq := .p4 }
  | (false, s1) => leave .errComm .p9 s1

/-- One labelled step, each with at most one bus event (R35). At IDLE the block waits. @W2 and @P3 stand here only for
their other half, a reply that is not ready. -/
def labelStep (s : State) : State :=
  match s.seq with
  | .idle => s
  | .w1 => { setCS false s with seq := .w2 }
  | .w2 => s
  | .w2reply => replyNotReady .w9 s
  | .w3 => writeString (curHdrs s) (fun s1 => { s1 with seq := .w4 }) s
  | .w4 => writeString (curPays s) (leave .ok .w9) s
  | .w9 => complete { res := curRes s } (setCS true s)
  | .p1 => stepP1 s
  | .p2 => { setCS false s with seq := .p3 }
  | .p3 => s
  | .p3reply => replyNotReady .p9 s
  | .p4 => stepP4 s
  | .p5 => stepP5 s
  | .p9 => endPull (curRes s) (setCS true s)
  | .x1 => runExtract s
  | .r1 => { s with seq := .p1 }
  | .r2 => finishRead (curRes s) s

/-! ### Fetch -/

/-- What a step is about: an instruction to run, a command to start, a word without a meaning, a reset, or the next
labelled step of the command in progress. -/
inductive Fetched where
  | run (i : Instr)
  | start (label : Seq) (i : Instr)
  | illegal
  | reset
  | label
deriving DecidableEq, Repr

/-- What goes on when nothing is presented: the wire header or the label the sequencer is at. -/
def fetchLabel (s : State) : Fetched :=
  match wireHeader s with
  | some i => .run i
  | none => .label

/-- A presented command word, decoded (R88). The host waits for it (`call`) or does not (`present`). -/
def fetchCommand (waits : Bool) (w : Word) (st : Strings) : Fetched :=
  match decode (.command w st) with
  | .error _ => .illegal
  | .ok i => if waits then .run i else
    match firstLabel i with
    | some label => .start label i
    | none => .run i

/-- Takes the next input from the host port and says what the step is about. -/
def fetch (s : State) : Fetched × State :=
  match s.port with
  | [] => (fetchLabel s, s)
  | .quiet :: rest => (fetchLabel s, { s with port := rest })
  | .rst :: rest => (.reset, { s with port := rest })
  | .call w st :: rest => (fetchCommand true w st, { s with port := rest })
  | .present w st :: rest => (fetchCommand false w st, { s with port := rest })

/-- `s` with a wire header at the point where the sequencer takes it next: a request at @W2 or @P3 of a command with
chip-select asserted, any other header as the reply in HSBUF. -/
def atHeader (bytes : List Byte) (s : State) : State :=
  let base := { s with csN := false, port := .quiet :: s.port }
  match decodeHeader bytes with
  | .ok .hsWreq => { base with seq := .w2, cur := some { cmd := .write [] [], res := .ok } }
  | .ok .hsRreq => { base with seq := .p3, cur := some { cmd := .pull, res := .ok } }
  | _ => { base with seq := .w2reply, cur := some { cmd := .write [] [], res := .ok }, hsbuf := headerOf bytes }

/-- `s` with an opcode-table row's word where the next step takes it: a command word at the head of the host port, a
wire header at the sequencer's handshake. -/
def placeWord (nbits w : Nat) (s : State) : State :=
  match tableCarrier nbits w with
  | some (.command word st) => { s with port := .call word st :: s.port }
  | some (.header bytes) => atHeader bytes s
  | none => s

end Sys2Proof.Machine
end

