-- ==== Sys2Proof/Machine/Dispatch.lean ====
section
/-! DEFINITION. The meaning of every instruction, one arm per constructor of Instr. -/

namespace Sys2Proof.Machine

def exec (i : Instr) (s : State) : Host.Outcome State Fault Refusal :=
  match i with
  | .write hdrs pays => Sys2Proof.Machine.execWrite hdrs pays s
  | .read => Sys2Proof.Machine.execRead s
  | .pull => Sys2Proof.Machine.execPull s
  | .extract => Sys2Proof.Machine.execExtract s
  | .rdreg reg => Sys2Proof.Machine.execRdreg reg s
  | .rbContig => Sys2Proof.Machine.execRbContig s
  | .rbFill n fills => Sys2Proof.Machine.execRbFill n fills s
  | .rbAvail => Sys2Proof.Machine.execRbAvail s
  | .rbPeek offset => Sys2Proof.Machine.execRbPeek offset s
  | .rbTake n => Sys2Proof.Machine.execRbTake n s
  | .hsWreq => Sys2Proof.Machine.execHsWreq s
  | .hsRreq => Sys2Proof.Machine.execHsRreq s
  | .hsReady wcap rcap => Sys2Proof.Machine.execHsReady wcap rcap s

end Sys2Proof.Machine
end

