-- ==== Sys2Proof/Machine/Step.lean ====
section
/-! DEFINITION. One step of the machine: it takes one input of the host port, or goes on with the command in progress. -/

namespace Sys2Proof.Machine

/-- One step (R4, R35, R262): what `fetch` found is done. -/
def step (s : State) : Host.Outcome State Fault Refusal :=
  match fetch s with
  | (.run i, s1) => exec i s1
  | (.start label i, s1) => enter (startAt label i) s1
  | (.illegal, s1) => illegalCommand s1
  | (.reset, s1) => .next (resetBlock s1)
  | (.label, s1) => .next (labelStep s1)

/-- `s` with a table row's word where the next step fetches it. notes/assumptions/9.md says how commands reach the block
from reset. -/
def State.withFetchWord (s : State) (nbits w : Nat) : State := placeWord nbits w s

end Sys2Proof.Machine
end

