-- ==== Sys2Proof/Safety.lean ====
section
/-! DEFINITION. What a safe run keeps: the ring buffer's invariants (R24), chip-select in step with the sequencer and
with the trace (R32, R166), the canonical form of the stores, and the fault pair (R31); and the terms claims use. -/

namespace Sys2Proof.Machine

/-- The ring-buffer invariants I1 to I3 (R24), with N ≥ 1 (R8). -/
structure RingInv (s : State) : Prop where
  capPos : 1 ≤ capN s
  cntLe : s.cnt.toNat ≤ capN s
  wpLt : s.wp.toNat < capN s
  rpLt : s.rp.toNat < capN s
  wpEq : s.wp.toNat = (s.rp.toNat + s.cnt.toNat) % capN s

/-- The labels at which chip-select is asserted: from after @W1 to @W9, and from after @P2 to @P9 (R161, R167). -/
def Seq.selected : Seq → Bool
  | .w2 | .w2reply | .w3 | .w4 | .w9 => true
  | .p3 | .p3reply | .p4 | .p5 | .p9 => true
  | .idle | .w1 | .p1 | .p2 | .x1 | .r1 | .r2 => false

/-- The commands that run the labels @P1 to @P9 (R167, R210). -/
def pulls : Instr → Bool
  | .pull | .read => true
  | _ => false

/-- The command that runs the labels @W1 to @W9 (R161). -/
def writes : Instr → Bool
  | .write _ _ => true
  | _ => false

/-- Which command may be in progress at a label (R35, R50): none at IDLE, and no step of another command. -/
def running (q : Seq) (c : Option Running) : Bool :=
  match q with
  | .idle => c.isNone
  | .w1 | .w2 | .w2reply | .w3 | .w4 | .w9 => c.any (fun r => writes r.cmd)
  | .p1 | .p2 | .p3 | .p3reply | .p4 | .p5 | .p9 => c.any (fun r => pulls r.cmd)
  | .x1 => c.any (fun r => decide (r.cmd = .extract))
  | .r1 | .r2 => c.any (fun r => decide (r.cmd = .read))

/-- The chip-select level after one bus event, from the level before it. A reset sets the pin without a CS event (R260),
and RRST marks it. -/
def levelAfter (level : Bool) : BusEvent → Bool
  | .cs b => b
  | .rrst => true
  | .rdys _ => level
  | .xfer _ _ => level
  | .wro _ _ => level

/-- The chip-select level a trace ends with. -/
def busLevel (trace : List BusEvent) : Bool := trace.foldl levelAfter true

/-- What every step keeps. -/
structure Inv (s : State) : Prop where
  /-- R8, R9. -/
  legal : s.cfg.Legal
  /-- R24. -/
  ring : RingInv s
  /-- RB lists addresses below N alone, rising. -/
  rbWf : s.rb.wf (capN s) = true
  /-- FBUF lists addresses below 128 alone, rising. -/
  fbufWf : s.fbuf.wf Config.frameMax = true
  /-- R27. -/
  flenLe : s.flen.toNat ≤ Config.frameMax
  /-- A cause is recorded exactly when FAULT is set (R31, R233). -/
  causeIff : s.fault = true ↔ s.faultCause ≠ .none
  /-- CS_N is low exactly inside a bus phase (R32, R44). -/
  csLevel : s.csN = !s.seq.selected
  /-- The pin agrees with the trace. -/
  traceLevel : busLevel s.trace = s.csN
  /-- R35, R50. -/
  runs : running s.seq s.cur = true
  /-- A window open at @P5 fits (R65, R170). -/
  window : s.seq = .p5 →
    1 ≤ s.winK.toNat ∧ s.winK.toNat ≤ contigLen s ∧ s.winK.toNat ≤ s.rRem.toNat

/-- The block is at a command boundary and takes commands: SEQ = IDLE and FAULT = 0. -/
def Ready (s : State) : Prop := s.seq = .idle ∧ s.fault = false

/-- What a fault leaves of a state that took the command (R233): FAULT and FAULT_CAUSE, no outputs, all else as it was. -/
def faulted (c : Cause) (s : State) : State :=
  { s with fault := true, faultCause := c, cur := none, out := none }

/-- The valid window of the ring buffer, oldest byte first (R61). -/
def contents (s : State) : List Byte := headBytes s.cnt.toNat s

/-- What the step's work starts from when it has taken the head of the host port, with `rest` after it. -/
def taken (s : State) (rest : List HostInput) : State := { s with port := rest }

/-- Nothing is presented to `s`: the host port is empty or says `quiet`. `m` is `s` with that input taken. -/
def Unpresented (s m : State) : Prop :=
  s.port = [] ∧ m = s ∨ ∃ rest, s.port = .quiet :: rest ∧ m = taken s rest

/-- Runs instructions one after another, each as one atomic command. -/
def execAll : List Instr → State → Host.Outcome State Fault Refusal
  | [], s => .next s
  | i :: rest, s =>
    match exec i s with
    | .next t => execAll rest t
    | .fault r => .fault r
    | .refused r => .refused r

/-- `n` steps (the host's Core.run over `step`, in the model's own words). -/
def steps : Nat → State → Host.Outcome State Fault Refusal
  | 0, s => .next s
  | n + 1, s =>
    match step s with
    | .next t => steps n t
    | .fault r => .fault r
    | .refused r => .refused r

end Sys2Proof.Machine
end

