-- ==== Sys2Proof/Certificates/Slice0/Obligations.lean ====
section
/-! DEFINITION. The statements for the provers. Each docstring names the rules of spec/ the statement rests on. -/

open Sys2Proof Sys2Proof.Machine

/-! ### Encodings -/

/-- The ten command words of R94 and the three headers of R89 decode to the instructions they stand for. -/
def Obligations.SpecWordsDecode : Prop :=
  decode (.command 0x00000001#32 ⟨[0x01#8], [0x10#8, 0x11#8], []⟩) = .ok (.write [0x01#8] [0x10#8, 0x11#8]) ∧
  decode (.command 0x00000002#32 Strings.none) = .ok .read ∧
  decode (.command 0x00000003#32 Strings.none) = .ok .pull ∧
  decode (.command 0x00000004#32 Strings.none) = .ok .extract ∧
  decode (.command 0xFFFF0007#32 Strings.none) = .ok (.rdreg 65535#16) ∧
  decode (.command 0x00000008#32 Strings.none) = .ok .rbContig ∧
  decode (.command 0x00020009#32 ⟨[], [], [0xAA#8, 0xBB#8]⟩) = .ok (.rbFill 2#16 [0xAA#8, 0xBB#8]) ∧
  decode (.command 0x0000000A#32 Strings.none) = .ok .rbAvail ∧
  decode (.command 0x0003000B#32 Strings.none) = .ok (.rbPeek 3#16) ∧
  decode (.command 0xFFFF000C#32 Strings.none) = .ok (.rbTake 65535#16) ∧
  decode (.header [0x0A#8, 0#8, 0#8, 0#8, 0#8]) = .ok .hsWreq ∧
  decode (.header [0x0B#8, 0#8, 0#8, 0#8, 0#8]) = .ok .hsRreq ∧
  decode (.header [0x02#8, 0x34#8, 0x12#8, 0x78#8, 0x56#8]) = .ok (.hsReady 0x1234#16 0x5678#16)

/-- Decoding an encoded well-formed instruction gives it back, for every operand (R80 to R83, R89). -/
def Obligations.DecodeInvertsEncode : Prop :=
  ∀ i : Instr, i.wellFormed = true → decode (encode i) = .ok i

/-- Each carrier with a meaning has that meaning alone: it is the encoding of the instruction it decodes to (R80, R89). -/
def Obligations.DecodedCarrierIsItsEncoding : Prop :=
  (∀ (w : Word) (st : Strings) (i : Instr), decode (.command w st) = .ok i → ∃ st', encode i = .command w st') ∧
  (∀ (bytes : List Byte) (i : Instr), decode (.header bytes) = .ok i → encode i = .header bytes)

/-- The decoding procedure of R88, on every 32-bit word. -/
def Obligations.CommandDecodingProcedure : Prop :=
  ∀ (w : Word) (st : Strings),
    let op := (w.extractLsb' 0 4).toNat
    let arg := w.extractLsb' 16 16
    let noArg := fun (i : Instr) =>
      if arg = 0#16 then decode (.command w st) = .ok i else ∃ e, decode (.command w st) = .error e
    (w.extractLsb' 4 12 ≠ 0#12 → ∃ e, decode (.command w st) = .error e) ∧
    (w.extractLsb' 4 12 = 0#12 →
      (op = 0x1 → noArg (.write st.hdrs st.pays)) ∧
      (op = 0x2 → noArg .read) ∧
      (op = 0x3 → noArg .pull) ∧
      (op = 0x4 → noArg .extract) ∧
      (op = 0x8 → noArg .rbContig) ∧
      (op = 0xA → noArg .rbAvail) ∧
      (op = 0x7 → decode (.command w st) = .ok (.rdreg arg)) ∧
      (op = 0x9 → decode (.command w st) = .ok (.rbFill arg st.fills)) ∧
      (op = 0xB → decode (.command w st) = .ok (.rbPeek arg)) ∧
      (op = 0xC → decode (.command w st) = .ok (.rbTake arg)) ∧
      (op ∈ [0x0, 0x5, 0x6, 0xD, 0xE, 0xF] → ∃ e, decode (.command w st) = .error e))

/-! ### The step -/

/-- A step runs the decoded command: waited for, it is exec of it; not waited for, one without labels is exec of it and
one with labels starts at its first (R4, R35). -/
def Obligations.StepRunsDecodedCommand : Prop :=
  ∀ (s : State) (w : Word) (st : Strings) (rest : List HostInput) (i : Instr),
    decode (.command w st) = .ok i →
    (s.port = .call w st :: rest → step s = exec i { s with port := rest }) ∧
    (s.port = .present w st :: rest → firstLabel i = none → step s = exec i { s with port := rest }) ∧
    (∀ label, s.port = .present w st :: rest → firstLabel i = some label → Ready s →
      step s = .next { s with port := rest, seq := label, cur := some ⟨i, .ok⟩, out := none })

/-- With nothing presented, an empty host port or a quiet input at its head, a step at a handshake runs the wire header
there: the request at @W2 and @P3, and the reply in HSBUF where it decodes to a ready reply (R141). The two reply
positions are the model's own, notes/assumptions/7.md. -/
def Obligations.StepRunsWireHeader : Prop :=
  ∀ (s m : State), Unpresented s m →
    (s.seq = .w2 → step s = exec .hsWreq m) ∧
    (s.seq = .p3 → step s = exec .hsRreq m) ∧
    (∀ wcap rcap, s.seq = .w2reply ∨ s.seq = .p3reply →
      decode (.header s.hsbuf.bytes) = .ok (.hsReady wcap rcap) → step s = exec (.hsReady wcap rcap) m)

/-- A reserved field or an unused ARG that is not zero raises ILLEGAL_CMD, and so does a reserved OP (R84 to R86). -/
def Obligations.UndecodableWordRaisesIllegalCmd : Prop :=
  ∀ (s : State) (w : Word) (st : Strings) (rest : List HostInput), Ready s →
    (s.port = .call w st :: rest ∨ s.port = .present w st :: rest) →
    (w.extractLsb' 4 12 ≠ 0#12 ∨
      ((w.extractLsb' 0 4).toNat ∈ [0x1, 0x2, 0x3, 0x4, 0x8, 0xA] ∧ w.extractLsb' 16 16 ≠ 0#16) ∨
      (w.extractLsb' 0 4).toNat ∈ [0x0, 0x5, 0x6, 0xD, 0xE, 0xF]) →
    step s = .next (faulted .illegalCmd { s with port := rest })

/-! ### Ring-buffer commands -/

/-- RB_CONTIG returns min(N - CNT, N - WP), which is 0 exactly when the buffer is full (R111, R112), and changes nothing
but LAST_RES. -/
def Obligations.RbContigReturnsContiguousLength : Prop :=
  ∀ s : State, Inv s → Ready s →
    ∃ v : Nat, v = min (s.cfg.cap.toNat - s.cnt.toNat) (s.cfg.cap.toNat - s.wp.toNat) ∧
      (v = 0 ↔ s.cnt = s.cfg.cap) ∧ v < 65536 ∧
      exec .rbContig s = .next { s with
        lastRes := .ok, cur := none, out := some ⟨.ok, BitVec.ofNat 16 v, [], none⟩ }

/-- RB_AVAIL returns CNT (R115) and changes nothing but LAST_RES. -/
def Obligations.RbAvailReturnsCount : Prop :=
  ∀ s : State, Ready s →
    exec .rbAvail s = .next { s with lastRes := .ok, cur := none, out := some ⟨.ok, s.cnt, [], none⟩ }

/-- RB_FILL within the contiguous length (R113, R114): the bytes at WP, WP mod N, CNT; every other byte of RB and every
other register is as before, and the bytes join the valid window at its end. -/
def Obligations.RbFillAppends : Prop :=
  ∀ (s : State) (n : Half) (fills : List Byte), Inv s → Ready s → fills.length = n.toNat →
    n.toNat ≤ min (s.cfg.cap.toNat - s.cnt.toNat) (s.cfg.cap.toNat - s.wp.toNat) →
    ∃ t, exec (.rbFill n fills) s = .next t ∧
      t = { s with
        rb := t.rb, wp := BitVec.ofNat 16 ((s.wp.toNat + n.toNat) % s.cfg.cap.toNat), cnt := s.cnt + n,
        lastRes := .ok, cur := none, out := some ⟨.ok, 0#16, [], none⟩ } ∧
      t.cnt.toNat = s.cnt.toNat + n.toNat ∧
      (∀ (j : Nat) (h : j < fills.length), t.rb.read (s.wp.toNat + j) = fills[j]) ∧
      (∀ a : Nat, a < s.wp.toNat ∨ s.wp.toNat + n.toNat ≤ a → t.rb.read a = s.rb.read a) ∧
      contents t = contents s ++ fills

/-- The two checks of RB_FILL, in their order (R87, R114): the operand length, then the range. -/
def Obligations.RbFillChecksInOrder : Prop :=
  ∀ (s : State) (n : Half) (fills : List Byte), Ready s →
    (fills.length ≠ n.toNat → exec (.rbFill n fills) s = .next (faulted .operandMismatch s)) ∧
    (fills.length = n.toNat →
      min (s.cfg.cap.toNat - s.cnt.toNat) (s.cfg.cap.toNat - s.wp.toNat) < n.toNat →
      exec (.rbFill n fills) s = .next (faulted .rbFillOverrun s))

/-- RB_PEEK reads RB[(RP + offset) mod N] without consuming it, or faults (R116, R117). -/
def Obligations.RbPeekReadsWithoutConsuming : Prop :=
  ∀ (s : State) (offset : Half), Ready s →
    (offset.toNat < s.cnt.toNat → exec (.rbPeek offset) s = .next { s with
      lastRes := .ok, cur := none,
      out := some ⟨.ok, 0#16, [s.rb.read ((s.rp.toNat + offset.toNat) % s.cfg.cap.toNat)], none⟩ }) ∧
    (s.cnt.toNat ≤ offset.toNat → exec (.rbPeek offset) s = .next (faulted .rbPeekRange s))

/-- RB_TAKE returns the n bytes at the head in logical order and removes them, or faults (R118, R119). -/
def Obligations.RbTakeRemovesFromHead : Prop :=
  ∀ (s : State) (n : Half), Inv s → Ready s →
    (n.toNat ≤ s.cnt.toNat → ∃ t data, exec (.rbTake n) s = .next t ∧
      t = { s with
        rp := BitVec.ofNat 16 ((s.rp.toNat + n.toNat) % s.cfg.cap.toNat), cnt := s.cnt - n,
        lastRes := .ok, cur := none, out := some ⟨.ok, 0#16, data, none⟩ } ∧
      data = (List.range n.toNat).map (fun j => s.rb.read ((s.rp.toNat + j) % s.cfg.cap.toNat)) ∧
      t.cnt.toNat = s.cnt.toNat - n.toNat ∧
      data ++ contents t = contents s) ∧
    (s.cnt.toNat < n.toNat → exec (.rbTake n) s = .next (faulted .rbTakeRange s))

/-- The contiguity law (R121): a fill of the whole contiguous length never fails, it and the next contiguous length
together are the free capacity, in the two cases of the rule, a second such fill fills the buffer, and no shorter fill
fails either. -/
def Obligations.ContiguityLaw : Prop :=
  ∀ (s : State) (bs : List Byte), Inv s → Ready s → 0 < contigLen s → bs.length = contigLen s →
    ∃ t, exec (.rbFill (BitVec.ofNat 16 (contigLen s)) bs) s = .next t ∧ Ready t ∧
      contigLen s + contigLen t = s.cfg.cap.toNat - s.cnt.toNat ∧
      (s.rp.toNat ≤ s.wp.toNat → contigLen s = s.cfg.cap.toNat - s.wp.toNat ∧ t.wp = 0#16) ∧
      (s.wp.toNat < s.rp.toNat → contigLen s = s.rp.toNat - s.wp.toNat ∧ t.cnt = s.cfg.cap ∧ contigLen t = 0) ∧
      (∀ bs' : List Byte, bs'.length = contigLen t →
        ∃ u, exec (.rbFill (BitVec.ofNat 16 (contigLen t)) bs') t = .next u ∧ Ready u ∧ u.cnt = s.cfg.cap) ∧
      (∀ (k : Half) (part : List Byte), part.length = k.toNat → k.toNat ≤ contigLen s →
        ∃ u, exec (.rbFill k part) s = .next u ∧ u.fault = false)

/-- The FIFO law (R120): after any fills that all complete, a take of everything returns what was there and then the
filled bytes, in order, across the wrap or not. -/
def Obligations.FifoLaw : Prop :=
  ∀ (s t : State) (fs : List (List Byte)), Inv s → Ready s →
    execAll (fs.map (fun f => .rbFill (BitVec.ofNat 16 f.length) f)) s = .next t → t.fault = false →
    ∃ u o, exec (.rbTake (BitVec.ofNat 16 (s.cnt.toNat + fs.flatten.length))) t = .next u ∧ u.out = some o ∧
      o.res = .ok ∧ o.data = contents s ++ fs.flatten ∧ u.cnt = 0#16

/-! ### Handshake -/

/-- Handshake(dir) (R141, R142): one XFER of the request header; a faulted transfer is HS_COMM; a reply whose byte 0 is
not 0x02 is HS_NOT_READY whatever the other bytes; a ready reply gives the two little-endian capacities; and it changes
nothing but HSBUF. -/
def Obligations.HandshakeOutcome : Prop :=
  ∀ (d : Dir) (s : State),
    let draw := (nextDraw s).1
    let rx := fit 5 draw.rx
    let req := [(if d = .write then 0x0A#8 else 0x0B#8), 0#8, 0#8, 0#8, 0#8]
    let r := handshake d s
    rx.length = 5 ∧
    r.2 = { s with
      hsbuf := r.2.hsbuf, env := r.2.env, fresh := r.2.fresh,
      trace := s.trace ++ [.xfer req (if draw.commFault then .commFault else .ok rx)] } ∧
    (draw.commFault = true → r.1 = .comm) ∧
    (draw.commFault = false → r.2.hsbuf.bytes = rx ∧
      (rx.getD 0 0#8 ≠ 0x02#8 → r.1 = .notReady) ∧
      (rx.getD 0 0#8 = 0x02#8 → ∃ wcap rcap : Half, r.1 = .ready wcap rcap ∧
        wcap.toNat = (rx.getD 1 0#8).toNat + 256 * (rx.getD 2 0#8).toNat ∧
        rcap.toNat = (rx.getD 3 0#8).toNat + 256 * (rx.getD 4 0#8).toNat))

/-- HS.WREQ at @W2 and HS.RREQ at @P3 (R141): the header goes out in one XFER, the reply is then in HSBUF, and a faulted
transfer leaves with ERR_COMM; nothing else changes. The reply positions are the model's own, notes/assumptions/7.md. -/
def Obligations.RequestHeadersGoOut : Prop :=
  ∀ (s : State), s.csN = false →
    let draw := (nextDraw s).1
    let sent := fun (i : Instr) (marker : Byte) (reply exit : Seq) => ∃ t, exec i s = .next t ∧
      t = { s with
        hsbuf := t.hsbuf, env := t.env, fresh := t.fresh, seq := t.seq, cur := t.cur,
        trace := s.trace ++
          [.xfer [marker, 0#8, 0#8, 0#8, 0#8] (if draw.commFault then .commFault else .ok (fit 5 draw.rx))] } ∧
      (draw.commFault = false → t.seq = reply ∧ t.cur = s.cur ∧ t.hsbuf.bytes = fit 5 draw.rx) ∧
      (draw.commFault = true → t.seq = exit ∧ t.cur = s.cur.map (fun c => { c with res := .errComm }))
    (s.seq = .w2 → sent .hsWreq 0x0A#8 .w2reply .w9) ∧
    (s.seq = .p3 → sent .hsRreq 0x0B#8 .p3reply .p9)

/-- HS.READY (R143, R161, R162, R167): in a write request only wcap counts, and the write goes on if it is at least the
combined length; in a read request only rcap counts, and becomes R_REM. The positions of the two premises, w2reply and
p3reply, are the model's own, notes/assumptions/7.md. -/
def Obligations.ReadyReplyTaken : Prop :=
  ∀ (s : State) (wcap rcap : Half), s.csN = false →
    (∀ hdrs pays r, s.seq = .w2reply → s.cur = some ⟨.write hdrs pays, r⟩ →
      (wcap.toNat < hdrs.length + pays.length → exec (.hsReady wcap rcap) s =
        .next { s with seq := .w9, cur := some ⟨.write hdrs pays, .notReady⟩ }) ∧
      (hdrs.length + pays.length ≤ wcap.toNat → exec (.hsReady wcap rcap) s = .next { s with seq := .w3 })) ∧
    (s.seq = .p3reply → exec (.hsReady wcap rcap) s = .next { s with seq := .p4, rRem := rcap })

/-- A wire header anywhere but at its place in a handshake stops the model: R141's precondition is broken. The stop is the
model's choice, notes/assumptions/11.md. -/
def Obligations.HeaderOutOfTurnStops : Prop :=
  ∀ (s : State) (wcap rcap : Half),
    (s.seq ≠ .w2 ∨ s.csN = true → exec .hsWreq s = .fault .headerOutOfTurn) ∧
    (s.seq ≠ .p3 ∨ s.csN = true → exec .hsRreq s = .fault .headerOutOfTurn) ∧
    ((s.seq ≠ .w2reply ∧ s.seq ≠ .p3reply) ∨ s.csN = true →
      exec (.hsReady wcap rcap) s = .fault .headerOutOfTurn)

/-! ### WRITE -/

/-- WRITE (R161 to R164): result and bus events for every answer of the environment; LAST_RES, HSBUF and the trace are all
that changes. -/
def Obligations.WriteOutcomes : Prop :=
  ∀ (s : State) (hdrs pays : List Byte) (d0 d1 d2 : Draw), Ready s → draws 3 s = [d0, d1, d2] →
    let rx := fit 5 d0.rx
    let wcap := (rx.getD 1 0#8).toNat + 256 * (rx.getD 2 0#8).toNat
    let hw := [0x0A#8, 0#8, 0#8, 0#8, 0#8]
    let ends := fun (res : Res) (events : List BusEvent) => ∃ t, exec (.write hdrs pays) s = .next t ∧
      t = { s with
        csN := true, hsbuf := t.hsbuf, env := t.env, fresh := t.fresh, cur := none,
        lastRes := res, out := some ⟨res, 0#16, [], none⟩,
        trace := s.trace ++ [.cs false] ++ events ++ [.cs true] }
    (d0.commFault = true → ends .errComm [.xfer hw .commFault]) ∧
    (d0.commFault = false →
      (rx.getD 0 0#8 ≠ 0x02#8 → ends .notReady [.xfer hw (.ok rx)]) ∧
      (rx.getD 0 0#8 = 0x02#8 →
        (wcap < hdrs.length + pays.length → ends .notReady [.xfer hw (.ok rx)]) ∧
        (hdrs.length + pays.length ≤ wcap →
          (d1.commFault = true → ends .errComm [.xfer hw (.ok rx), .wro hdrs .commFault]) ∧
          (d1.commFault = false → d2.commFault = true →
            ends .errComm [.xfer hw (.ok rx), .wro hdrs .ok, .wro pays .commFault]) ∧
          (d1.commFault = false → d2.commFault = false →
            ends .ok [.xfer hw (.ok rx), .wro hdrs .ok, .wro pays .ok]))))

/-- WRITE never touches the ring buffer or the frame scratch area, whatever its outcome (R165). -/
def Obligations.WriteLeavesRingBuffer : Prop :=
  ∀ (s : State) (hdrs pays : List Byte), ∃ t, exec (.write hdrs pays) s = .next t ∧
    t.rb = s.rb ∧ t.wp = s.wp ∧ t.rp = s.rp ∧ t.cnt = s.cnt ∧ t.fbuf = s.fbuf ∧ t.flen = s.flen

/-- Chip-select scoping (R166, R213): one CS(0) and one CS(1) around all transfers, the CS(1) last, on every path; a PULL
or READ that samples RDY as not asserted records no CS event. -/
def Obligations.ChipSelectScoping : Prop :=
  let isXfer := fun (e : BusEvent) => ∃ tx out, e = .xfer tx out
  let isWro := fun (e : BusEvent) => ∃ tx out, e = .wro tx out
  ∀ s : State, Inv s → Ready s →
    (∀ hdrs pays, ∃ t mid, exec (.write hdrs pays) s = .next t ∧
      t.trace = s.trace ++ [.cs false] ++ mid ++ [.cs true] ∧ ∀ e ∈ mid, isXfer e ∨ isWro e) ∧
    (∀ i : Instr, i = .pull ∨ i = .read → ∃ t, exec i s = .next t ∧
      (((nextDraw s).1.level = s.cfg.rdyActiveHigh ∧ ∃ mid,
          t.trace = s.trace ++ [.rdys true, .cs false] ++ mid ++ [.cs true] ∧ ∀ e ∈ mid, isXfer e) ∨
        ((nextDraw s).1.level ≠ s.cfg.rdyActiveHigh ∧ t.trace = s.trace ++ [.rdys false])))

/-! ### PULL -/

/-- The readiness gate (R168, with the polarity of R14): PULL samples the line once, first; with the line not asserted it
ends with NOT_READY, its only bus event is RDYS(false), and no state but LAST_RES changes. -/
def Obligations.PullReadinessGate : Prop :=
  ∀ s : State, Inv s → Ready s →
    (∃ t rest, exec .pull s = .next t ∧
      t.trace = s.trace ++ .rdys (decide ((nextDraw s).1.level = s.cfg.rdyActiveHigh)) :: rest ∧
      ∀ v, BusEvent.rdys v ∉ rest) ∧
    ((nextDraw s).1.level ≠ s.cfg.rdyActiveHigh →
      ∃ t, exec .pull s = .next t ∧
        t = { s with
          env := t.env, fresh := t.fresh, cur := none, lastRes := .notReady,
          out := some ⟨.notReady, 0#16, [], none⟩, trace := s.trace ++ [.rdys false] })

/-- The handshake's failures in PULL (R169): ERR_COMM or NOT_READY after CS(1), the ring buffer unchanged. -/
def Obligations.PullHandshakeFailures : Prop :=
  ∀ (s : State) (d0 d1 : Draw), Ready s → draws 2 s = [d0, d1] → d0.level = s.cfg.rdyActiveHigh →
    let rx := fit 5 d1.rx
    let hr := [0x0B#8, 0#8, 0#8, 0#8, 0#8]
    let ends := fun (res : Res) (out : XferOutcome) => ∃ t, exec .pull s = .next t ∧
      t = { s with
        csN := true, hsbuf := t.hsbuf, env := t.env, fresh := t.fresh, cur := none, lastRes := res,
        out := some ⟨res, 0#16, [], none⟩,
        trace := s.trace ++ [.rdys true, .cs false, .xfer hr out, .cs true] }
    (d1.commFault = true → ends .errComm .commFault) ∧
    (d1.commFault = false → rx.getD 0 0#8 ≠ 0x02#8 → ends .notReady (.ok rx))

/-- A pull without a communication fault (R170, R171, R173 to R175): at most two windows of zeros go out, the received
bytes join the valid window in order, min(rcap, N - CNT) of them, RP never moves, and every other byte of RB is as
before. The clause about R_REM after the command is the model's choice, notes/assumptions/15.md. -/
def Obligations.PullMovesBytes : Prop :=
  ∀ (s : State) (d0 d1 d2 d3 : Draw), Inv s → Ready s → draws 4 s = [d0, d1, d2, d3] →
    d0.level = s.cfg.rdyActiveHigh → d1.commFault = false →
    let rx := fit 5 d1.rx
    let rcap := (rx.getD 3 0#8).toNat + 256 * (rx.getD 4 0#8).toNat
    let free := s.cfg.cap.toNat - s.cnt.toNat
    let k1 := min rcap (min free (s.cfg.cap.toNat - s.wp.toNat))
    let k2 := min (rcap - k1) (free - k1)
    let window := fun (k : Nat) (d : Draw) =>
      if k = 0 then [] else [BusEvent.xfer (List.replicate k 0#8) (.ok (fit k d.rx))]
    rx.getD 0 0#8 = 0x02#8 → (0 < k1 → d2.commFault = false) → (0 < k2 → d3.commFault = false) →
    ∃ t, exec .pull s = .next t ∧
      t = { s with
        rb := t.rb, wp := t.wp, cnt := t.cnt, csN := true, hsbuf := t.hsbuf, rRem := t.rRem, winK := t.winK,
        env := t.env, fresh := t.fresh, cur := none, lastRes := .ok, out := some ⟨.ok, 0#16, [], none⟩,
        trace := s.trace ++ [.rdys true, .cs false, .xfer [0x0B#8, 0#8, 0#8, 0#8, 0#8] (.ok rx)] ++
          window k1 d2 ++ window k2 d3 ++ [.cs true] } ∧
      contents t = contents s ++ fit k1 d2.rx ++ fit k2 d3.rx ∧
      t.cnt.toNat = s.cnt.toNat + min rcap free ∧
      t.wp.toNat = (s.wp.toNat + min rcap free) % s.cfg.cap.toNat ∧
      t.rRem.toNat = rcap - min rcap free ∧
      (∀ a : Nat, a < s.wp.toNat ∨ s.wp.toNat + k1 ≤ a → k2 ≤ a → t.rb.read a = s.rb.read a)

/-- A communication fault in a pull window (R172): the window is committed with the bytes received and zeros after them,
R_REM is not reduced, PULL ends with ERR_COMM after CS(1), a window completed before it stays, and every byte of RB
outside the windows is as before. That R_REM still has its value after the command is the model's choice,
notes/assumptions/15.md; inside the command PullWindowSteps says it. -/
def Obligations.PullFaultedWindowCommitted : Prop :=
  ∀ (s : State) (d0 d1 d2 d3 : Draw), Inv s → Ready s → draws 4 s = [d0, d1, d2, d3] →
    d0.level = s.cfg.rdyActiveHigh → d1.commFault = false →
    let rx := fit 5 d1.rx
    let rcap := (rx.getD 3 0#8).toNat + 256 * (rx.getD 4 0#8).toNat
    let free := s.cfg.cap.toNat - s.cnt.toNat
    let k1 := min rcap (min free (s.cfg.cap.toNat - s.wp.toNat))
    let k2 := min (rcap - k1) (free - k1)
    let fz := fun (k : Nat) (d : Draw) => d.rx.take k ++ List.replicate (k - (d.rx.take k).length) 0#8
    let ends := fun (moved left second : Nat) (bytes : List Byte) (events : List BusEvent) =>
      ∃ t, exec .pull s = .next t ∧
      t = { s with
        rb := t.rb, wp := t.wp, cnt := t.cnt, csN := true, hsbuf := t.hsbuf, rRem := t.rRem, winK := t.winK,
        env := t.env, fresh := t.fresh, cur := none, lastRes := .errComm,
        out := some ⟨.errComm, 0#16, [], none⟩,
        trace := s.trace ++ [.rdys true, .cs false, .xfer [0x0B#8, 0#8, 0#8, 0#8, 0#8] (.ok rx)] ++
          events ++ [.cs true] } ∧
      contents t = contents s ++ bytes ∧ t.cnt.toNat = s.cnt.toNat + moved ∧
      t.wp.toNat = (s.wp.toNat + moved) % s.cfg.cap.toNat ∧ t.rRem.toNat = left ∧
      (∀ a : Nat, a < s.wp.toNat ∨ s.wp.toNat + k1 ≤ a → second ≤ a → t.rb.read a = s.rb.read a)
    rx.getD 0 0#8 = 0x02#8 →
    (0 < k1 → d2.commFault = true →
      ends k1 rcap 0 (fz k1 d2) [.xfer (List.replicate k1 0#8) .commFault]) ∧
    (0 < k2 → d2.commFault = false → d3.commFault = true →
      ends (k1 + k2) (rcap - k1) k2 (fit k1 d2.rx ++ fz k2 d3)
        [.xfer (List.replicate k1 0#8) (.ok (fit k1 d2.rx)), .xfer (List.replicate k2 0#8) .commFault])

/-- The pull loop as labelled steps (R167, R170): @P4 opens a window of min(R_REM, ContigLen()) bytes or ends the loop, and
changes no byte of RB; @P5 runs one transfer of WIN_K bytes, after which the window is committed and R_REM reduced, or, at
a fault in the window, committed and the loop ended (R171, R172). That the zeroing is work of @P5, so that @P4 changes no
byte of RB, is the model's reading of R66, R167 and R170, notes/assumptions/14.md. -/
def Obligations.PullWindowSteps : Prop :=
  ∀ s m : State, Inv s → Unpresented s m →
    let k := min s.rRem.toNat (min (s.cfg.cap.toNat - s.cnt.toNat) (s.cfg.cap.toNat - s.wp.toNat))
    let draw := (nextDraw s).1
    let w := s.winK.toNat
    (s.seq = .p4 →
      (0 < k → ∃ t, step s = .next t ∧ t = { m with seq := .p5, winK := t.winK } ∧ t.winK.toNat = k) ∧
      (k = 0 → step s = .next { m with seq := .p9, cur := s.cur.map (fun c => { c with res := .ok }) })) ∧
    (s.seq = .p5 →
      ∃ (t : State) (bytes : List Byte) (out : XferOutcome), step s = .next t ∧
        t = { m with
          rb := t.rb, wp := t.wp, cnt := t.cnt, rRem := t.rRem, seq := t.seq, cur := t.cur,
          env := t.env, fresh := t.fresh, trace := s.trace ++ [.xfer (List.replicate w 0#8) out] } ∧
        contents t = contents s ++ bytes ∧
        t.cnt.toNat = s.cnt.toNat + w ∧ t.wp.toNat = (s.wp.toNat + w) % s.cfg.cap.toNat ∧
        (∀ a : Nat, a < s.wp.toNat ∨ s.wp.toNat + w ≤ a → t.rb.read a = s.rb.read a) ∧
        (draw.commFault = false → bytes = fit w draw.rx ∧ out = .ok bytes ∧
          t.rRem.toNat = s.rRem.toNat - w ∧ t.seq = .p4 ∧ t.cur = s.cur) ∧
        (draw.commFault = true →
          bytes = draw.rx.take w ++ List.replicate (w - (draw.rx.take w).length) 0#8 ∧ out = .commFault ∧
          t.rRem = s.rRem ∧ t.seq = .p9 ∧ t.cur = s.cur.map (fun c => { c with res := .errComm })))

/-! ### EXTRACT -/

/-- A partial frame leaves everything as it was and reports NOT_READY (R192, R193): fewer bytes than a header, or fewer
than the frame its parameter length announces. An EXTRACT that reports NOT_READY has changed no buffer. -/
def Obligations.ExtractPartialFrame : Prop :=
  ∀ s : State, Ready s →
    (s.cnt.toNat < s.cfg.hdrLen ∨
      s.cnt.toNat < s.cfg.hdrLen + (s.rb.read ((s.rp.toNat + 1) % s.cfg.cap.toNat)).toNat →
      exec .extract s = .next { s with
        lastRes := .notReady, cur := none, out := some ⟨.notReady, 0#16, [], none⟩ }) ∧
    (∀ t o, exec .extract s = .next t → t.out = some o → o.res = .notReady →
      t.rb = s.rb ∧ t.wp = s.wp ∧ t.rp = s.rp ∧ t.cnt = s.cnt ∧ t.fbuf = s.fbuf ∧ t.flen = s.flen)

/-- A complete frame longer than 128 bytes raises FRAME_TOO_LONG and changes nothing else; one that is still partial is
NOT_READY (R194). -/
def Obligations.ExtractFrameTooLong : Prop :=
  ∀ s : State, Ready s →
    let len := s.cfg.hdrLen + (s.rb.read ((s.rp.toNat + 1) % s.cfg.cap.toNat)).toNat
    128 < len →
    (len ≤ s.cnt.toNat → exec .extract s = .next (faulted .frameTooLong s)) ∧
    (s.cnt.toNat < len → exec .extract s = .next { s with
      lastRes := .notReady, cur := none, out := some ⟨.notReady, 0#16, [], none⟩ })

/-- A complete frame of at most 128 bytes leaves the buffer, is in FBUF and in DATA, and the decoder's verdict is the
result, a decode error included (R26, R38, R192, R195). -/
def Obligations.ExtractTakesFrame : Prop :=
  ∀ s : State, Inv s → Ready s →
    let len := s.cfg.hdrLen + (s.rb.read ((s.rp.toNat + 1) % s.cfg.cap.toNat)).toNat
    len ≤ s.cnt.toNat → len ≤ 128 →
    ∃ t frame res, exec .extract s = .next t ∧
      t = { s with
        rp := BitVec.ofNat 16 ((s.rp.toNat + len) % s.cfg.cap.toNat), cnt := t.cnt, fbuf := t.fbuf, flen := t.flen,
        lastRes := res, cur := none, out := some ⟨res, 0#16, frame, some (Config.decodeFrame frame)⟩ } ∧
      frame ++ contents t = contents s ∧ frame.length = len ∧ t.cnt.toNat = s.cnt.toNat - len ∧
      t.flen.toNat = len ∧
      (∀ (j : Nat) (h : j < frame.length), t.fbuf.read j = frame[j]) ∧
      (∀ a : Nat, len ≤ a → t.fbuf.read a = s.fbuf.read a) ∧
      ((∃ e, Config.decodeFrame frame = .event e) → res = .ok) ∧
      ((∃ k, Config.decodeFrame frame = .decodeError k) → res = .errDecode)

/-- A frame longer than the buffer stalls (R267): with I1, EXTRACT answers NOT_READY and raises no fault. -/
def Obligations.LongFrameStalls : Prop :=
  ∀ s : State, Inv s → Ready s →
    s.cfg.cap.toNat < s.cfg.hdrLen + (s.rb.read ((s.rp.toNat + 1) % s.cfg.cap.toNat)).toNat →
    ∃ t, exec .extract s = .next t ∧ Ready t ∧ t.lastRes = .notReady ∧ contents t = contents s ∧
      s.cfg.cap.toNat < t.cfg.hdrLen + (t.rb.read ((t.rp.toNat + 1) % t.cfg.cap.toNat)).toNat

/-! ### READ -/

/-- READ makes the state changes and bus events of PULL then EXTRACT, and combines their results by the table of R211;
an over-long frame faults after the pull, whose effects stay (R95, R210, R211, R236). -/
def Obligations.ReadIsPullThenExtract : Prop :=
  ∀ s : State, Inv s → Ready s →
    ∃ t u v, exec .pull s = .next t ∧ exec .extract t = .next u ∧ exec .read s = .next v ∧
      v = { u with lastRes := v.lastRes, out := v.out } ∧
      (u.fault = true → v.lastRes = s.lastRes ∧ v.out = none) ∧
      (u.fault = false → ∃ o r, u.out = some o ∧ v.out = some { o with res := r } ∧ v.lastRes = r ∧
        (u.lastRes = .ok → r = .ok) ∧
        (u.lastRes = .errDecode → r = .errDecode) ∧
        (u.lastRes = .notReady → t.lastRes = .errComm → r = .errComm) ∧
        (u.lastRes = .notReady → t.lastRes ≠ .errComm → r = .notReady) ∧
        u.lastRes ≠ .errComm)

/-- A frame already complete is returned while the radio is not ready, with no chip-select event (R197, R212). -/
def Obligations.ReadReturnsBufferedFrame : Prop :=
  ∀ s : State, Inv s → Ready s → (nextDraw s).1.level ≠ s.cfg.rdyActiveHigh →
    let len := s.cfg.hdrLen + (s.rb.read ((s.rp.toNat + 1) % s.cfg.cap.toNat)).toNat
    len ≤ s.cnt.toNat → len ≤ 128 →
    ∃ t o, exec .read s = .next t ∧ t.out = some o ∧ o.data = (contents s).take len ∧
      contents t = (contents s).drop len ∧ o.res ≠ .notReady ∧ t.trace = s.trace ++ [.rdys false]

/-! ### RDREG -/

/-- RDREG reads CAP, WP, RP, CNT (R41, R220), whether or not FAULT is set, and writes nothing, LAST_RES included. -/
def Obligations.RdregReadsRegisters : Prop :=
  ∀ s : State, s.seq = .idle →
    let reads := fun (reg v : Half) => exec (.rdreg reg) s = .next { s with out := some ⟨.ok, v, [], none⟩ }
    reads 0#16 s.cfg.cap ∧ reads 1#16 s.wp ∧ reads 2#16 s.rp ∧ reads 3#16 s.cnt

/-- The layout of STATUS (R40): LAST_RES, FAULT, FAULT_CAUSE, CS_N, and bits 15..8 read 0. -/
def Obligations.RdregStatusLayout : Prop :=
  ∀ s : State, s.seq = .idle →
    ∃ v : Half, exec (.rdreg 4#16) s = .next { s with out := some ⟨.ok, v, [], none⟩ } ∧
      v.extractLsb' 0 2 = s.lastRes.code ∧ v.getLsbD 2 = s.fault ∧ v.extractLsb' 3 4 = s.faultCause.code ∧
      v.getLsbD 7 = s.csN ∧ v.extractLsb' 8 8 = 0#8

/-- A reserved register number raises ILLEGAL_CMD, and while FAULT = 1 changes nothing and gives VALUE = 0 (R220, R221). -/
def Obligations.RdregReservedNumber : Prop :=
  ∀ (s : State) (reg : Half), s.seq = .idle → 5 ≤ reg.toNat →
    (s.fault = false → exec (.rdreg reg) s = .next (faulted .illegalCmd s)) ∧
    (s.fault = true → exec (.rdreg reg) s = .next { s with out := some ⟨.ok, 0#16, [], none⟩ })

/-! ### Faults -/

/-- The fault state refuses every command but RDREG, which runs as ever (R234), waited for or not: no labelled step of it
starts. A word without a meaning is refused too, before it is decoded (R235). -/
def Obligations.FaultStateRefuses : Prop :=
  ∀ s : State, s.seq = .idle → s.fault = true →
    (∀ i : Instr, i ≠ .hsWreq → i ≠ .hsRreq → (∀ w r, i ≠ .hsReady w r) → (∀ reg, i ≠ .rdreg reg) →
      exec i s = .next { s with out := none }) ∧
    (∀ reg : Half, ∃ v, exec (.rdreg reg) s = .next { s with out := some ⟨.ok, v, [], none⟩ } ∧
      (reg = 0#16 → v = s.cfg.cap) ∧ (reg = 1#16 → v = s.wp) ∧ (reg = 2#16 → v = s.rp) ∧ (reg = 3#16 → v = s.cnt) ∧
      (reg = 4#16 → v = status s) ∧ (5 ≤ reg.toNat → v = 0#16)) ∧
    (∀ (w : Word) (st : Strings) (rest : List HostInput),
      s.port = .call w st :: rest ∨ s.port = .present w st :: rest →
      (∀ reg : Half, decode (.command w st) ≠ .ok (.rdreg reg)) →
      step s = .next { s with port := rest, out := none })

/-- Only reset clears a fault, and the first cause stays until then (R237). -/
def Obligations.OnlyResetClearsFault : Prop :=
  ∀ s t : State, step s = .next t → s.fault = true →
    ((∀ rest, s.port ≠ .rst :: rest) → t.fault = true ∧ t.faultCause = s.faultCause) ∧
    ((∃ rest, s.port = .rst :: rest) → t.fault = false ∧ t.faultCause = .none)

/-- A command presented while another is in progress (R244): REENTRY is recorded, and the command in progress stays where
it is, to go on at the next step. That this comes before decoding and before the refusals of R234 and R235, so that a
word without a meaning and an RDREG with FAULT = 1 are no exception, is the model's choice, notes/assumptions/12.md. -/
def Obligations.OverlapRaisesReentry : Prop :=
  ∀ (s : State) (w : Word) (st : Strings) (rest : List HostInput), s.seq ≠ .idle →
    (s.port = .call w st :: rest ∨ s.port = .present w st :: rest) →
    step s = .next { s with
      port := rest, fault := true, faultCause := (if s.fault then s.faultCause else .reentry), out := none }

/-- The command in progress keeps running to its end, its CS(1) and its write of LAST_RES included, whatever commands are
presented meanwhile (R244): `t` is what it gives undisturbed, and with `n` inputs of the port quiet, at least one, and the
last of them among these, it ends in `t`, but for the recorded REENTRY where a command was presented. The count `n` of
labelled steps is the model's own, notes/assumptions/7.md and 16.md; the two grains are those of 18.md, and that any word
presented meanwhile does no more than this is 12.md. -/
def Obligations.OverlappedCommandRunsToItsEnd : Prop :=
  ∀ (s : State) (i : Instr) (label : Seq), Inv s → Ready s → firstLabel i = some label →
    ∃ (n : Nat) (t : State) (events : List BusEvent), 0 < n ∧ exec i s = .next t ∧ t.seq = .idle ∧ t.csN = true ∧
      t.trace = s.trace ++ events ∧ (.cs false ∈ events → events.getLast? = some (.cs true)) ∧
      (∀ o, t.out = some o → t.lastRes = o.res) ∧
      ∀ p rest : List HostInput, .rst ∉ p → p.count .quiet = n → p.getLast? = some .quiet →
        steps p.length (startAt label i { s with port := p ++ rest }) =
          .next (if ∀ x ∈ p, x = .quiet then { t with port := rest }
            else { t with port := rest, fault := true, faultCause := .reentry })

/-- Which command raises which fault once it is decoded (R232), and every fault but READ's changes nothing but the fault
state (R236). -/
def Obligations.FaultsArePrecise : Prop :=
  ∀ (s t : State) (i : Instr), Ready s → exec i s = .next t → t.fault = true →
    (i = .read ∨ t = faulted t.faultCause s) ∧
    ((i = .read ∨ i = .extract) ∧ t.faultCause = .frameTooLong ∨
      (∃ n fills, i = .rbFill n fills) ∧ (t.faultCause = .operandMismatch ∨ t.faultCause = .rbFillOverrun) ∨
      (∃ o, i = .rbPeek o) ∧ t.faultCause = .rbPeekRange ∨
      (∃ n, i = .rbTake n) ∧ t.faultCause = .rbTakeRange ∨
      (∃ r, i = .rdreg r) ∧ t.faultCause = .illegalCmd)

/-- LAST_RES (R29): a completed command writes its result code, RDREG, a refused and a faulting command do not. -/
def Obligations.LastResFollowsResult : Prop :=
  ∀ (s t : State) (i : Instr), s.seq = .idle → exec i s = .next t →
    (t.out = none → t.lastRes = s.lastRes) ∧
    (∀ o, t.out = some o →
      ((∃ reg, i = .rdreg reg) → t.lastRes = s.lastRes) ∧ ((∀ reg, i ≠ .rdreg reg) → t.lastRes = o.res))

/-! ### Reset -/

/-- The values the spec gives for reset (R261), and STATUS = 0x0080. -/
def Obligations.ResetValues : Prop :=
  let s := State.reset
  s.wp = 0#16 ∧ s.rp = 0#16 ∧ s.cnt = 0#16 ∧ s.flen = 0#8 ∧ s.lastRes = .ok ∧ s.fault = false ∧
    s.faultCause = .none ∧ s.csN = true ∧ s.seq = .idle ∧ s.trace = [.rrst] ∧ status s = 0x0080#16

/-- Reset from any state, in the middle of a command too (R260, R262): the registers of R260, no CS event, exactly one
RRST, the command in progress gone without a result. -/
def Obligations.ResetFromAnyState : Prop :=
  ∀ (s : State) (rest : List HostInput), s.port = .rst :: rest →
    ∃ t, step s = .next t ∧
      t = { s with
        wp := 0#16, rp := 0#16, cnt := 0#16, flen := 0#8, lastRes := .ok, fault := false, faultCause := .none,
        seq := .idle, cur := none, out := none, csN := true, trace := s.trace ++ [.rrst], port := rest,
        rb := t.rb, hsbuf := t.hsbuf, fbuf := t.fbuf, rRem := t.rRem, winK := t.winK, fresh := t.fresh } ∧
      status t = 0x0080#16

/-! ### The whole machine -/

/-- The machine right after reset meets the invariant. -/
def Obligations.ResetMeetsInvariant : Prop := Inv State.reset

/-- Every step keeps the invariant (R24, R31, R32, R44, and the canonical form of the stores). -/
def Obligations.StepKeepsInvariant : Prop :=
  ∀ s t : State, Inv s → step s = .next t → Inv t

/-- In a state that meets the invariant the block always has a next step, whatever the environment answers (R46, R274). -/
def Obligations.StepNeverStops : Prop :=
  ∀ s : State, Inv s → ∃ t, step s = .next t

/-- The labelled steps of a command, with nothing presented meanwhile, end in the very state its atomic execution gives,
but for the quiet inputs taken (R4, R35, R161, R167, R192, R210). That they are at most 12 counts the model's own labels,
notes/assumptions/7.md and 16.md, and the two grains are those of 18.md. OverlappedCommandRunsToItsEnd says what comes of
a command presented meanwhile. -/
def Obligations.LabelledStepsEqualCommand : Prop :=
  ∀ (s : State) (i : Instr) (label : Seq), Inv s → Ready s → (∀ x ∈ s.port, x = .quiet) → firstLabel i = some label →
    ∃ n t, n ≤ 12 ∧ exec i s = .next t ∧ steps n (startAt label i s) = .next { t with port := s.port.drop n }

/-- The bound on bus events per command (R274). -/
def Obligations.BoundedBusEvents : Prop :=
  ∀ (s : State) (i : Instr), Inv s → s.seq = .idle → i ≠ .hsWreq → i ≠ .hsRreq → (∀ w r, i ≠ .hsReady w r) →
    ∃ t events, exec i s = .next t ∧ t.trace = s.trace ++ events ∧
      ((∃ hdrs pays, i = .write hdrs pays) ∧ events.length ≤ 5 ∨
        (i = .pull ∨ i = .read) ∧ events.length ≤ 6 ∨ events.length = 0)

/-- The trace only grows (R45), and by at most one event in a labelled step (R35). -/
def Obligations.TraceOnlyGrows : Prop :=
  ∀ s t : State, step s = .next t → ∃ events, t.trace = s.trace ++ events ∧
    (s.port = [] ∨ (∃ rest, s.port = .quiet :: rest) → events.length ≤ 1)

/-- No step changes the configuration (R49). -/
def Obligations.ConfigurationIsFixed : Prop :=
  ∀ s t : State, step s = .next t → t.cfg = s.cfg

/-- The RB bytes outside the valid window cannot be observed (R37): a ring buffer with the same valid window makes every
command give the same outputs, bus events, registers and valid window. -/
def Obligations.BytesOutsideWindowUnobservable : Prop :=
  ∀ (s : State) (m : Memory) (i : Instr), Inv s → s.seq = .idle →
    i ≠ .hsWreq → i ≠ .hsRreq → (∀ w r, i ≠ .hsReady w r) →
    contents { s with rb := m } = contents s →
    ∃ t u, exec i s = .next t ∧ exec i { s with rb := m } = .next u ∧
      contents u = contents t ∧ u = { t with rb := u.rb }
end

