-- ==== Sys2Proof/Laws/Decode.lean ====
section
/-! SUPPORT. The fields of an assembled command word and the bytes of a u16: what the decoder and the encoder share. -/

namespace Sys2Proof

@[simp] theorem rsvField_commandWord (op : BitVec 4) (arg : Half) : rsvField (commandWord op arg) = 0#12 := by
  apply BitVec.eq_of_getLsbD_eq
  intro i hi
  simp only [rsvField, commandWord, BitVec.getLsbD_extractLsb', BitVec.getLsbD_or, BitVec.getLsbD_shiftLeft,
    BitVec.getLsbD_setWidth, BitVec.getLsbD_zero]
  simp [show 4 + i < 16 by omega]

@[simp] theorem opField_commandWord (op : BitVec 4) (arg : Half) : opField (commandWord op arg) = op := by
  apply BitVec.eq_of_getLsbD_eq
  intro i hi
  simp only [opField, commandWord, BitVec.getLsbD_extractLsb', BitVec.getLsbD_or, BitVec.getLsbD_shiftLeft,
    BitVec.getLsbD_setWidth]
  simp [hi, show i < 16 by omega, show i < 32 by omega]

@[simp] theorem argField_commandWord (op : BitVec 4) (arg : Half) : argField (commandWord op arg) = arg := by
  apply BitVec.eq_of_getLsbD_eq
  intro i hi
  simp only [argField, commandWord, BitVec.getLsbD_extractLsb', BitVec.getLsbD_or, BitVec.getLsbD_shiftLeft,
    BitVec.getLsbD_setWidth]
  simp [hi, show 16 + i < 32 by omega, show i < 32 by omega, BitVec.getLsbD_of_ge op (16 + i) (by omega)]

/-- A word whose reserved field is zero is made of its OP and its ARG (R80). -/
theorem commandWord_fields (w : Word) (h : rsvField w = 0#12) : commandWord (opField w) (argField w) = w := by
  apply BitVec.eq_of_getLsbD_eq
  intro i hi
  have hz := congrArg (fun v => v.getLsbD (i - 4)) h
  simp only [rsvField, BitVec.getLsbD_extractLsb', BitVec.getLsbD_zero] at hz
  simp only [opField, argField, commandWord, BitVec.getLsbD_extractLsb', BitVec.getLsbD_or,
    BitVec.getLsbD_shiftLeft, BitVec.getLsbD_setWidth]
  by_cases h4 : i < 4
  · simp [h4, hi, show i < 16 by omega]
  · by_cases h16 : i < 16
    · rw [show 4 + (i - 4) = i by omega] at hz
      have : i - 4 < 12 := by omega
      simp_all
    · simp [h4, h16, hi, show i - 16 < 32 by omega, show i - 16 < 16 by omega, show 16 + (i - 16) = i by omega]

/-- With the reserved field zero, the OP decides (R88). -/
theorem decode_of_op {w : Word} {n : Nat} (st : Strings) (h : rsvField w = 0#12) (ho : (opField w).toNat = n) :
    decode (.command w st) = decodeOp w st n := by
  subst ho; simp [decode, decodeCommand, h]

theorem le16_toNat (lo hi : Byte) : (le16 lo hi).toNat = lo.toNat + 256 * hi.toNat := by
  have := lo.isLt
  have := hi.isLt
  simp only [le16, BitVec.toNat_add, BitVec.toNat_mul, BitVec.toNat_setWidth, BitVec.toNat_ofNat]
  omega

theorem lowByte_toNat (v : Half) : (lowByte v).toNat = v.toNat % 256 := by
  simp [lowByte, BitVec.extractLsb'_toNat]

theorem highByte_toNat (v : Half) : (highByte v).toNat = v.toNat / 256 := by
  have := v.isLt
  simp only [highByte, BitVec.extractLsb'_toNat, Nat.shiftRight_eq_div_pow]
  omega

@[simp] theorem le16_lowByte_highByte (v : Half) : le16 (lowByte v) (highByte v) = v := by
  apply BitVec.eq_of_toNat_eq
  rw [le16_toNat, lowByte_toNat, highByte_toNat]
  omega

@[simp] theorem lowByte_le16 (lo hi : Byte) : lowByte (le16 lo hi) = lo := by
  apply BitVec.eq_of_toNat_eq
  have := lo.isLt
  rw [lowByte_toNat, le16_toNat]
  omega

@[simp] theorem highByte_le16 (lo hi : Byte) : highByte (le16 lo hi) = hi := by
  apply BitVec.eq_of_toNat_eq
  have := lo.isLt
  rw [highByte_toNat, le16_toNat]
  omega

end Sys2Proof
end

