-- ==== Sys2Proof/Laws/Memory.lean ====
section
/-! SUPPORT. The laws of a byte store: read after write, writes to other addresses, and that every write keeps the
canonical form. -/

namespace Sys2Proof.Machine

theorem lookup_insert_same (l : List Host.Cell) (a : Nat) (v : Byte) :
    lookupCell (insertCell a v l) a = some v := by
  induction l with
  | nil => simp [insertCell, lookupCell]
  | cons c rest ih =>
    obtain ⟨b, u⟩ := c
    simp only [insertCell]
    split
    · simp [lookupCell]
    · split
      · simp [lookupCell]
      · simp_all [lookupCell]

theorem lookup_insert_other (l : List Host.Cell) {a c : Nat} (v : Byte) (h : c ≠ a) :
    lookupCell (insertCell a v l) c = lookupCell l c := by
  induction l with
  | nil => simp [insertCell, lookupCell, h]
  | cons d rest ih =>
    obtain ⟨b, u⟩ := d
    simp only [insertCell]
    split
    · subst b; simp [lookupCell, h]
    · split
      · simp only [lookupCell, if_neg h]
        by_cases hca : c < a
        · have h1 : c ≠ b := by omega
          have h2 : c < b := by omega
          simp [hca, h1, h2]
        · simp [hca]
      · simp only [lookupCell, ih]

@[simp] theorem read_write_same (m : Memory) (a : Nat) (v : Byte) : (m.write a v).read a = v := by
  simp [Memory.read, Memory.write, lookup_insert_same]

theorem read_write_other (m : Memory) {a c : Nat} (v : Byte) (h : c ≠ a) :
    (m.write a v).read c = m.read c := by
  simp [Memory.read, Memory.write, lookup_insert_other _ _ h]

@[simp] theorem write_tag (m : Memory) (a : Nat) (v : Byte) : (m.write a v).tag = m.tag := rfl

@[simp] theorem writeList_nil (m : Memory) (a : Nat) : m.writeList a [] = m := rfl

@[simp] theorem writeList_tag (m : Memory) (a : Nat) (bs : List Byte) : (m.writeList a bs).tag = m.tag := by
  induction bs generalizing m a with
  | nil => rfl
  | cons v vs ih => simp [Memory.writeList, ih]

/-- A write of a string leaves every address outside it alone. -/
theorem read_writeList_outside (m : Memory) (a : Nat) (bs : List Byte) {c : Nat}
    (h : c < a ∨ a + bs.length ≤ c) : (m.writeList a bs).read c = m.read c := by
  induction bs generalizing m a with
  | nil => rfl
  | cons v vs ih =>
    simp only [List.length_cons] at h
    rw [Memory.writeList, ih _ _ (by omega), read_write_other _ _ (by omega)]

/-- A string written is read back. -/
theorem read_writeList_inside (m : Memory) (a : Nat) (bs : List Byte) (j : Nat) (h : j < bs.length) :
    (m.writeList a bs).read (a + j) = bs[j] := by
  induction bs generalizing m a j with
  | nil => simp at h
  | cons v vs ih =>
    cases j with
    | zero =>
      rw [Memory.writeList, read_writeList_outside _ _ _ (by omega)]
      simp
    | succ j =>
      simp only [List.length_cons] at h
      have := ih (m.write a v) (a + 1) j (by omega)
      rw [Memory.writeList, show a + (j + 1) = a + 1 + j by omega, this]
      simp

theorem rising_weaken {lo lo' : Nat} (l : List Host.Cell) (h : lo' ≤ lo) (hr : cellsRising lo l = true) :
    cellsRising lo' l = true := by
  cases l with
  | nil => rfl
  | cons c rest =>
    obtain ⟨b, u⟩ := c
    simp only [cellsRising, Bool.and_eq_true, decide_eq_true_eq] at hr ⊢
    exact ⟨by omega, hr.2⟩

theorem insert_rising (l : List Host.Cell) {lo a : Nat} (v : Byte) (h : lo ≤ a) (hr : cellsRising lo l = true) :
    cellsRising lo (insertCell a v l) = true := by
  induction l generalizing lo with
  | nil => simp [insertCell, cellsRising, h]
  | cons c rest ih =>
    obtain ⟨b, u⟩ := c
    simp only [cellsRising, Bool.and_eq_true, decide_eq_true_eq] at hr
    simp only [insertCell]
    split
    · subst b; simpa [cellsRising, h] using hr.2
    · split
      · simp only [cellsRising, Bool.and_eq_true, decide_eq_true_eq]
        exact ⟨h, by omega, hr.2⟩
      · simp only [cellsRising, Bool.and_eq_true, decide_eq_true_eq]
        exact ⟨hr.1, ih (by omega) hr.2⟩

theorem insert_bounded (l : List Host.Cell) {a n : Nat} (v : Byte) (h : a < n)
    (hb : l.all (fun c => decide (c.1 < n)) = true) :
    (insertCell a v l).all (fun c => decide (c.1 < n)) = true := by
  induction l with
  | nil => simp [insertCell, h]
  | cons c rest ih =>
    obtain ⟨b, u⟩ := c
    simp only [List.all_cons, Bool.and_eq_true, decide_eq_true_eq] at hb
    simp only [insertCell]
    split
    · simp only [List.all_cons, Bool.and_eq_true, decide_eq_true_eq]
      exact ⟨h, hb.2⟩
    · split
      · simp only [List.all_cons, Bool.and_eq_true, decide_eq_true_eq]
        exact ⟨h, hb⟩
      · simp only [List.all_cons, Bool.and_eq_true, decide_eq_true_eq]
        exact ⟨hb.1, ih hb.2⟩

/-- A write below the size keeps the canonical form. -/
theorem write_keeps_wf (m : Memory) {a n : Nat} (v : Byte) (h : a < n) (hm : m.wf n = true) :
    (m.write a v).wf n = true := by
  simp only [Memory.wf, Bool.and_eq_true] at hm ⊢
  exact ⟨insert_rising _ v (by omega) hm.1, insert_bounded _ v h hm.2⟩

/-- A write of a string that ends below the size keeps the canonical form. -/
theorem writeList_keeps_wf (m : Memory) (a n : Nat) (bs : List Byte) (h : a + bs.length ≤ n)
    (hm : m.wf n = true) : (m.writeList a bs).wf n = true := by
  induction bs generalizing m a with
  | nil => exact hm
  | cons v vs ih =>
    simp only [List.length_cons] at h
    exact ih _ _ (by omega) (write_keeps_wf m v (by omega) hm)

/-- A store with nothing listed is in canonical form. -/
theorem empty_wf (n tag : Nat) : Memory.wf n { cells := [], tag := tag } = true := rfl

end Sys2Proof.Machine
end

