-- ==== Sys2Proof/Laws/State.lean ====
section
/-! SUPPORT. One lemma per field per update, for every update of the state that has a name: what the update writes, and
that it leaves every other field alone. -/

namespace Sys2Proof.Machine

variable (s : State)

/-! ### emit -/

@[simp] theorem emit_cfg (e : BusEvent) : (emit e s).cfg = s.cfg := rfl
@[simp] theorem emit_wp (e : BusEvent) : (emit e s).wp = s.wp := rfl
@[simp] theorem emit_rp (e : BusEvent) : (emit e s).rp = s.rp := rfl
@[simp] theorem emit_cnt (e : BusEvent) : (emit e s).cnt = s.cnt := rfl
@[simp] theorem emit_rb (e : BusEvent) : (emit e s).rb = s.rb := rfl
@[simp] theorem emit_hsbuf (e : BusEvent) : (emit e s).hsbuf = s.hsbuf := rfl
@[simp] theorem emit_fbuf (e : BusEvent) : (emit e s).fbuf = s.fbuf := rfl
@[simp] theorem emit_flen (e : BusEvent) : (emit e s).flen = s.flen := rfl
@[simp] theorem emit_lastRes (e : BusEvent) : (emit e s).lastRes = s.lastRes := rfl
@[simp] theorem emit_fault (e : BusEvent) : (emit e s).fault = s.fault := rfl
@[simp] theorem emit_faultCause (e : BusEvent) : (emit e s).faultCause = s.faultCause := rfl
@[simp] theorem emit_csN (e : BusEvent) : (emit e s).csN = s.csN := rfl
@[simp] theorem emit_rRem (e : BusEvent) : (emit e s).rRem = s.rRem := rfl
@[simp] theorem emit_winK (e : BusEvent) : (emit e s).winK = s.winK := rfl
@[simp] theorem emit_seq (e : BusEvent) : (emit e s).seq = s.seq := rfl
@[simp] theorem emit_cur (e : BusEvent) : (emit e s).cur = s.cur := rfl
@[simp] theorem emit_out (e : BusEvent) : (emit e s).out = s.out := rfl
@[simp] theorem emit_trace (e : BusEvent) : (emit e s).trace = s.trace ++ [e] := rfl
@[simp] theorem emit_env (e : BusEvent) : (emit e s).env = s.env := rfl
@[simp] theorem emit_port (e : BusEvent) : (emit e s).port = s.port := rfl
@[simp] theorem emit_fresh (e : BusEvent) : (emit e s).fresh = s.fresh := rfl

/-! ### setCS -/

@[simp] theorem setCS_cfg (b : Bool) : (setCS b s).cfg = s.cfg := rfl
@[simp] theorem setCS_wp (b : Bool) : (setCS b s).wp = s.wp := rfl
@[simp] theorem setCS_rp (b : Bool) : (setCS b s).rp = s.rp := rfl
@[simp] theorem setCS_cnt (b : Bool) : (setCS b s).cnt = s.cnt := rfl
@[simp] theorem setCS_rb (b : Bool) : (setCS b s).rb = s.rb := rfl
@[simp] theorem setCS_hsbuf (b : Bool) : (setCS b s).hsbuf = s.hsbuf := rfl
@[simp] theorem setCS_fbuf (b : Bool) : (setCS b s).fbuf = s.fbuf := rfl
@[simp] theorem setCS_flen (b : Bool) : (setCS b s).flen = s.flen := rfl
@[simp] theorem setCS_lastRes (b : Bool) : (setCS b s).lastRes = s.lastRes := rfl
@[simp] theorem setCS_fault (b : Bool) : (setCS b s).fault = s.fault := rfl
@[simp] theorem setCS_faultCause (b : Bool) : (setCS b s).faultCause = s.faultCause := rfl
@[simp] theorem setCS_csN (b : Bool) : (setCS b s).csN = b := rfl
@[simp] theorem setCS_rRem (b : Bool) : (setCS b s).rRem = s.rRem := rfl
@[simp] theorem setCS_winK (b : Bool) : (setCS b s).winK = s.winK := rfl
@[simp] theorem setCS_seq (b : Bool) : (setCS b s).seq = s.seq := rfl
@[simp] theorem setCS_cur (b : Bool) : (setCS b s).cur = s.cur := rfl
@[simp] theorem setCS_out (b : Bool) : (setCS b s).out = s.out := rfl
@[simp] theorem setCS_trace (b : Bool) : (setCS b s).trace = s.trace ++ [.cs b] := rfl
@[simp] theorem setCS_env (b : Bool) : (setCS b s).env = s.env := rfl
@[simp] theorem setCS_port (b : Bool) : (setCS b s).port = s.port := rfl
@[simp] theorem setCS_fresh (b : Bool) : (setCS b s).fresh = s.fresh := rfl

/-! ### complete -/

@[simp] theorem complete_cfg (o : Output) : (complete o s).cfg = s.cfg := rfl
@[simp] theorem complete_wp (o : Output) : (complete o s).wp = s.wp := rfl
@[simp] theorem complete_rp (o : Output) : (complete o s).rp = s.rp := rfl
@[simp] theorem complete_cnt (o : Output) : (complete o s).cnt = s.cnt := rfl
@[simp] theorem complete_rb (o : Output) : (complete o s).rb = s.rb := rfl
@[simp] theorem complete_hsbuf (o : Output) : (complete o s).hsbuf = s.hsbuf := rfl
@[simp] theorem complete_fbuf (o : Output) : (complete o s).fbuf = s.fbuf := rfl
@[simp] theorem complete_flen (o : Output) : (complete o s).flen = s.flen := rfl
@[simp] theorem complete_lastRes (o : Output) : (complete o s).lastRes = o.res := rfl
@[simp] theorem complete_fault (o : Output) : (complete o s).fault = s.fault := rfl
@[simp] theorem complete_faultCause (o : Output) : (complete o s).faultCause = s.faultCause := rfl
@[simp] theorem complete_csN (o : Output) : (complete o s).csN = s.csN := rfl
@[simp] theorem complete_rRem (o : Output) : (complete o s).rRem = s.rRem := rfl
@[simp] theorem complete_winK (o : Output) : (complete o s).winK = s.winK := rfl
@[simp] theorem complete_seq (o : Output) : (complete o s).seq = .idle := rfl
@[simp] theorem complete_cur (o : Output) : (complete o s).cur = none := rfl
@[simp] theorem complete_out (o : Output) : (complete o s).out = some o := rfl
@[simp] theorem complete_trace (o : Output) : (complete o s).trace = s.trace := rfl
@[simp] theorem complete_env (o : Output) : (complete o s).env = s.env := rfl
@[simp] theorem complete_port (o : Output) : (complete o s).port = s.port := rfl
@[simp] theorem complete_fresh (o : Output) : (complete o s).fresh = s.fresh := rfl

/-! ### refuse -/

@[simp] theorem refuse_cfg : (refuse s).cfg = s.cfg := rfl
@[simp] theorem refuse_wp : (refuse s).wp = s.wp := rfl
@[simp] theorem refuse_rp : (refuse s).rp = s.rp := rfl
@[simp] theorem refuse_cnt : (refuse s).cnt = s.cnt := rfl
@[simp] theorem refuse_rb : (refuse s).rb = s.rb := rfl
@[simp] theorem refuse_hsbuf : (refuse s).hsbuf = s.hsbuf := rfl
@[simp] theorem refuse_fbuf : (refuse s).fbuf = s.fbuf := rfl
@[simp] theorem refuse_flen : (refuse s).flen = s.flen := rfl
@[simp] theorem refuse_lastRes : (refuse s).lastRes = s.lastRes := rfl
@[simp] theorem refuse_fault : (refuse s).fault = s.fault := rfl
@[simp] theorem refuse_faultCause : (refuse s).faultCause = s.faultCause := rfl
@[simp] theorem refuse_csN : (refuse s).csN = s.csN := rfl
@[simp] theorem refuse_rRem : (refuse s).rRem = s.rRem := rfl
@[simp] theorem refuse_winK : (refuse s).winK = s.winK := rfl
@[simp] theorem refuse_seq : (refuse s).seq = s.seq := rfl
@[simp] theorem refuse_cur : (refuse s).cur = s.cur := rfl
@[simp] theorem refuse_out : (refuse s).out = none := rfl
@[simp] theorem refuse_trace : (refuse s).trace = s.trace := rfl
@[simp] theorem refuse_env : (refuse s).env = s.env := rfl
@[simp] theorem refuse_port : (refuse s).port = s.port := rfl
@[simp] theorem refuse_fresh : (refuse s).fresh = s.fresh := rfl

/-! ### rbFill -/

@[simp] theorem rbFill_cfg (bs : List Byte) : (rbFill bs s).cfg = s.cfg := rfl
@[simp] theorem rbFill_wp (bs : List Byte) :
    (rbFill bs s).wp = BitVec.ofNat 16 ((s.wp.toNat + bs.length) % capN s) := rfl
@[simp] theorem rbFill_rp (bs : List Byte) : (rbFill bs s).rp = s.rp := rfl
@[simp] theorem rbFill_cnt (bs : List Byte) : (rbFill bs s).cnt = BitVec.ofNat 16 (s.cnt.toNat + bs.length) := rfl
@[simp] theorem rbFill_rb (bs : List Byte) : (rbFill bs s).rb = s.rb.writeList s.wp.toNat bs := rfl
@[simp] theorem rbFill_hsbuf (bs : List Byte) : (rbFill bs s).hsbuf = s.hsbuf := rfl
@[simp] theorem rbFill_fbuf (bs : List Byte) : (rbFill bs s).fbuf = s.fbuf := rfl
@[simp] theorem rbFill_flen (bs : List Byte) : (rbFill bs s).flen = s.flen := rfl
@[simp] theorem rbFill_lastRes (bs : List Byte) : (rbFill bs s).lastRes = s.lastRes := rfl
@[simp] theorem rbFill_fault (bs : List Byte) : (rbFill bs s).fault = s.fault := rfl
@[simp] theorem rbFill_faultCause (bs : List Byte) : (rbFill bs s).faultCause = s.faultCause := rfl
@[simp] theorem rbFill_csN (bs : List Byte) : (rbFill bs s).csN = s.csN := rfl
@[simp] theorem rbFill_rRem (bs : List Byte) : (rbFill bs s).rRem = s.rRem := rfl
@[simp] theorem rbFill_winK (bs : List Byte) : (rbFill bs s).winK = s.winK := rfl
@[simp] theorem rbFill_seq (bs : List Byte) : (rbFill bs s).seq = s.seq := rfl
@[simp] theorem rbFill_cur (bs : List Byte) : (rbFill bs s).cur = s.cur := rfl
@[simp] theorem rbFill_out (bs : List Byte) : (rbFill bs s).out = s.out := rfl
@[simp] theorem rbFill_trace (bs : List Byte) : (rbFill bs s).trace = s.trace := rfl
@[simp] theorem rbFill_env (bs : List Byte) : (rbFill bs s).env = s.env := rfl
@[simp] theorem rbFill_port (bs : List Byte) : (rbFill bs s).port = s.port := rfl
@[simp] theorem rbFill_fresh (bs : List Byte) : (rbFill bs s).fresh = s.fresh := rfl

/-! ### dropHead -/

@[simp] theorem dropHead_cfg (n : Nat) : (dropHead n s).cfg = s.cfg := rfl
@[simp] theorem dropHead_wp (n : Nat) : (dropHead n s).wp = s.wp := rfl
@[simp] theorem dropHead_rp (n : Nat) : (dropHead n s).rp = BitVec.ofNat 16 ((s.rp.toNat + n) % capN s) := rfl
@[simp] theorem dropHead_cnt (n : Nat) : (dropHead n s).cnt = BitVec.ofNat 16 (s.cnt.toNat - n) := rfl
@[simp] theorem dropHead_rb (n : Nat) : (dropHead n s).rb = s.rb := rfl
@[simp] theorem dropHead_hsbuf (n : Nat) : (dropHead n s).hsbuf = s.hsbuf := rfl
@[simp] theorem dropHead_fbuf (n : Nat) : (dropHead n s).fbuf = s.fbuf := rfl
@[simp] theorem dropHead_flen (n : Nat) : (dropHead n s).flen = s.flen := rfl
@[simp] theorem dropHead_lastRes (n : Nat) : (dropHead n s).lastRes = s.lastRes := rfl
@[simp] theorem dropHead_fault (n : Nat) : (dropHead n s).fault = s.fault := rfl
@[simp] theorem dropHead_faultCause (n : Nat) : (dropHead n s).faultCause = s.faultCause := rfl
@[simp] theorem dropHead_csN (n : Nat) : (dropHead n s).csN = s.csN := rfl
@[simp] theorem dropHead_rRem (n : Nat) : (dropHead n s).rRem = s.rRem := rfl
@[simp] theorem dropHead_winK (n : Nat) : (dropHead n s).winK = s.winK := rfl
@[simp] theorem dropHead_seq (n : Nat) : (dropHead n s).seq = s.seq := rfl
@[simp] theorem dropHead_cur (n : Nat) : (dropHead n s).cur = s.cur := rfl
@[simp] theorem dropHead_out (n : Nat) : (dropHead n s).out = s.out := rfl
@[simp] theorem dropHead_trace (n : Nat) : (dropHead n s).trace = s.trace := rfl
@[simp] theorem dropHead_env (n : Nat) : (dropHead n s).env = s.env := rfl
@[simp] theorem dropHead_port (n : Nat) : (dropHead n s).port = s.port := rfl
@[simp] theorem dropHead_fresh (n : Nat) : (dropHead n s).fresh = s.fresh := rfl

/-! ### storeFrame -/

@[simp] theorem storeFrame_cfg (f : List Byte) : (storeFrame f s).cfg = s.cfg := rfl
@[simp] theorem storeFrame_wp (f : List Byte) : (storeFrame f s).wp = s.wp := rfl
@[simp] theorem storeFrame_rp (f : List Byte) : (storeFrame f s).rp = s.rp := rfl
@[simp] theorem storeFrame_cnt (f : List Byte) : (storeFrame f s).cnt = s.cnt := rfl
@[simp] theorem storeFrame_rb (f : List Byte) : (storeFrame f s).rb = s.rb := rfl
@[simp] theorem storeFrame_hsbuf (f : List Byte) : (storeFrame f s).hsbuf = s.hsbuf := rfl
@[simp] theorem storeFrame_fbuf (f : List Byte) : (storeFrame f s).fbuf = s.fbuf.writeList 0 f := rfl
@[simp] theorem storeFrame_flen (f : List Byte) : (storeFrame f s).flen = BitVec.ofNat 8 f.length := rfl
@[simp] theorem storeFrame_lastRes (f : List Byte) : (storeFrame f s).lastRes = s.lastRes := rfl
@[simp] theorem storeFrame_fault (f : List Byte) : (storeFrame f s).fault = s.fault := rfl
@[simp] theorem storeFrame_faultCause (f : List Byte) : (storeFrame f s).faultCause = s.faultCause := rfl
@[simp] theorem storeFrame_csN (f : List Byte) : (storeFrame f s).csN = s.csN := rfl
@[simp] theorem storeFrame_rRem (f : List Byte) : (storeFrame f s).rRem = s.rRem := rfl
@[simp] theorem storeFrame_winK (f : List Byte) : (storeFrame f s).winK = s.winK := rfl
@[simp] theorem storeFrame_seq (f : List Byte) : (storeFrame f s).seq = s.seq := rfl
@[simp] theorem storeFrame_cur (f : List Byte) : (storeFrame f s).cur = s.cur := rfl
@[simp] theorem storeFrame_out (f : List Byte) : (storeFrame f s).out = s.out := rfl
@[simp] theorem storeFrame_trace (f : List Byte) : (storeFrame f s).trace = s.trace := rfl
@[simp] theorem storeFrame_env (f : List Byte) : (storeFrame f s).env = s.env := rfl
@[simp] theorem storeFrame_port (f : List Byte) : (storeFrame f s).port = s.port := rfl
@[simp] theorem storeFrame_fresh (f : List Byte) : (storeFrame f s).fresh = s.fresh := rfl

/-! ### scrambleHsbuf -/

@[simp] theorem scrambleHsbuf_cfg : (scrambleHsbuf s).cfg = s.cfg := rfl
@[simp] theorem scrambleHsbuf_wp : (scrambleHsbuf s).wp = s.wp := rfl
@[simp] theorem scrambleHsbuf_rp : (scrambleHsbuf s).rp = s.rp := rfl
@[simp] theorem scrambleHsbuf_cnt : (scrambleHsbuf s).cnt = s.cnt := rfl
@[simp] theorem scrambleHsbuf_rb : (scrambleHsbuf s).rb = s.rb := rfl
@[simp] theorem scrambleHsbuf_hsbuf : (scrambleHsbuf s).hsbuf = freeHeader s.fresh := rfl
@[simp] theorem scrambleHsbuf_fbuf : (scrambleHsbuf s).fbuf = s.fbuf := rfl
@[simp] theorem scrambleHsbuf_flen : (scrambleHsbuf s).flen = s.flen := rfl
@[simp] theorem scrambleHsbuf_lastRes : (scrambleHsbuf s).lastRes = s.lastRes := rfl
@[simp] theorem scrambleHsbuf_fault : (scrambleHsbuf s).fault = s.fault := rfl
@[simp] theorem scrambleHsbuf_faultCause : (scrambleHsbuf s).faultCause = s.faultCause := rfl
@[simp] theorem scrambleHsbuf_csN : (scrambleHsbuf s).csN = s.csN := rfl
@[simp] theorem scrambleHsbuf_rRem : (scrambleHsbuf s).rRem = s.rRem := rfl
@[simp] theorem scrambleHsbuf_winK : (scrambleHsbuf s).winK = s.winK := rfl
@[simp] theorem scrambleHsbuf_seq : (scrambleHsbuf s).seq = s.seq := rfl
@[simp] theorem scrambleHsbuf_cur : (scrambleHsbuf s).cur = s.cur := rfl
@[simp] theorem scrambleHsbuf_out : (scrambleHsbuf s).out = s.out := rfl
@[simp] theorem scrambleHsbuf_trace : (scrambleHsbuf s).trace = s.trace := rfl
@[simp] theorem scrambleHsbuf_env : (scrambleHsbuf s).env = s.env := rfl
@[simp] theorem scrambleHsbuf_port : (scrambleHsbuf s).port = s.port := rfl
@[simp] theorem scrambleHsbuf_fresh : (scrambleHsbuf s).fresh = s.fresh + 1 := rfl

/-! ### leave -/

@[simp] theorem leave_cfg (r : Res) (l : Seq) : (leave r l s).cfg = s.cfg := rfl
@[simp] theorem leave_wp (r : Res) (l : Seq) : (leave r l s).wp = s.wp := rfl
@[simp] theorem leave_rp (r : Res) (l : Seq) : (leave r l s).rp = s.rp := rfl
@[simp] theorem leave_cnt (r : Res) (l : Seq) : (leave r l s).cnt = s.cnt := rfl
@[simp] theorem leave_rb (r : Res) (l : Seq) : (leave r l s).rb = s.rb := rfl
@[simp] theorem leave_hsbuf (r : Res) (l : Seq) : (leave r l s).hsbuf = s.hsbuf := rfl
@[simp] theorem leave_fbuf (r : Res) (l : Seq) : (leave r l s).fbuf = s.fbuf := rfl
@[simp] theorem leave_flen (r : Res) (l : Seq) : (leave r l s).flen = s.flen := rfl
@[simp] theorem leave_lastRes (r : Res) (l : Seq) : (leave r l s).lastRes = s.lastRes := rfl
@[simp] theorem leave_fault (r : Res) (l : Seq) : (leave r l s).fault = s.fault := rfl
@[simp] theorem leave_faultCause (r : Res) (l : Seq) : (leave r l s).faultCause = s.faultCause := rfl
@[simp] theorem leave_csN (r : Res) (l : Seq) : (leave r l s).csN = s.csN := rfl
@[simp] theorem leave_rRem (r : Res) (l : Seq) : (leave r l s).rRem = s.rRem := rfl
@[simp] theorem leave_winK (r : Res) (l : Seq) : (leave r l s).winK = s.winK := rfl
@[simp] theorem leave_seq (r : Res) (l : Seq) : (leave r l s).seq = l := rfl
@[simp] theorem leave_cur (r : Res) (l : Seq) : (leave r l s).cur = s.cur.map (fun c => { c with res := r }) := rfl
@[simp] theorem leave_out (r : Res) (l : Seq) : (leave r l s).out = s.out := rfl
@[simp] theorem leave_trace (r : Res) (l : Seq) : (leave r l s).trace = s.trace := rfl
@[simp] theorem leave_env (r : Res) (l : Seq) : (leave r l s).env = s.env := rfl
@[simp] theorem leave_port (r : Res) (l : Seq) : (leave r l s).port = s.port := rfl
@[simp] theorem leave_fresh (r : Res) (l : Seq) : (leave r l s).fresh = s.fresh := rfl

/-! ### openWindow -/

@[simp] theorem openWindow_cfg : (openWindow s).cfg = s.cfg := rfl
@[simp] theorem openWindow_wp : (openWindow s).wp = s.wp := rfl
@[simp] theorem openWindow_rp : (openWindow s).rp = s.rp := rfl
@[simp] theorem openWindow_cnt : (openWindow s).cnt = s.cnt := rfl
@[simp] theorem openWindow_rb : (openWindow s).rb = s.rb := rfl
@[simp] theorem openWindow_hsbuf : (openWindow s).hsbuf = s.hsbuf := rfl
@[simp] theorem openWindow_fbuf : (openWindow s).fbuf = s.fbuf := rfl
@[simp] theorem openWindow_flen : (openWindow s).flen = s.flen := rfl
@[simp] theorem openWindow_lastRes : (openWindow s).lastRes = s.lastRes := rfl
@[simp] theorem openWindow_fault : (openWindow s).fault = s.fault := rfl
@[simp] theorem openWindow_faultCause : (openWindow s).faultCause = s.faultCause := rfl
@[simp] theorem openWindow_csN : (openWindow s).csN = s.csN := rfl
@[simp] theorem openWindow_rRem : (openWindow s).rRem = s.rRem := rfl
@[simp] theorem openWindow_winK : (openWindow s).winK = BitVec.ofNat 16 (min s.rRem.toNat (contigLen s)) := rfl
@[simp] theorem openWindow_seq : (openWindow s).seq = s.seq := rfl
@[simp] theorem openWindow_cur : (openWindow s).cur = s.cur := rfl
@[simp] theorem openWindow_out : (openWindow s).out = s.out := rfl
@[simp] theorem openWindow_trace : (openWindow s).trace = s.trace := rfl
@[simp] theorem openWindow_env : (openWindow s).env = s.env := rfl
@[simp] theorem openWindow_port : (openWindow s).port = s.port := rfl
@[simp] theorem openWindow_fresh : (openWindow s).fresh = s.fresh := rfl

/-! ### zeroWindow -/

@[simp] theorem zeroWindow_cfg : (zeroWindow s).cfg = s.cfg := rfl
@[simp] theorem zeroWindow_wp : (zeroWindow s).wp = s.wp := rfl
@[simp] theorem zeroWindow_rp : (zeroWindow s).rp = s.rp := rfl
@[simp] theorem zeroWindow_cnt : (zeroWindow s).cnt = s.cnt := rfl
@[simp] theorem zeroWindow_rb : (zeroWindow s).rb = s.rb.writeList s.wp.toNat (zeros s.winK.toNat) := rfl
@[simp] theorem zeroWindow_hsbuf : (zeroWindow s).hsbuf = s.hsbuf := rfl
@[simp] theorem zeroWindow_fbuf : (zeroWindow s).fbuf = s.fbuf := rfl
@[simp] theorem zeroWindow_flen : (zeroWindow s).flen = s.flen := rfl
@[simp] theorem zeroWindow_lastRes : (zeroWindow s).lastRes = s.lastRes := rfl
@[simp] theorem zeroWindow_fault : (zeroWindow s).fault = s.fault := rfl
@[simp] theorem zeroWindow_faultCause : (zeroWindow s).faultCause = s.faultCause := rfl
@[simp] theorem zeroWindow_csN : (zeroWindow s).csN = s.csN := rfl
@[simp] theorem zeroWindow_rRem : (zeroWindow s).rRem = s.rRem := rfl
@[simp] theorem zeroWindow_winK : (zeroWindow s).winK = s.winK := rfl
@[simp] theorem zeroWindow_seq : (zeroWindow s).seq = s.seq := rfl
@[simp] theorem zeroWindow_cur : (zeroWindow s).cur = s.cur := rfl
@[simp] theorem zeroWindow_out : (zeroWindow s).out = s.out := rfl
@[simp] theorem zeroWindow_trace : (zeroWindow s).trace = s.trace := rfl
@[simp] theorem zeroWindow_env : (zeroWindow s).env = s.env := rfl
@[simp] theorem zeroWindow_port : (zeroWindow s).port = s.port := rfl
@[simp] theorem zeroWindow_fresh : (zeroWindow s).fresh = s.fresh := rfl

/-! ### acceptRcap -/

@[simp] theorem acceptRcap_cfg (r : Half) : (acceptRcap r s).cfg = s.cfg := rfl
@[simp] theorem acceptRcap_wp (r : Half) : (acceptRcap r s).wp = s.wp := rfl
@[simp] theorem acceptRcap_rp (r : Half) : (acceptRcap r s).rp = s.rp := rfl
@[simp] theorem acceptRcap_cnt (r : Half) : (acceptRcap r s).cnt = s.cnt := rfl
@[simp] theorem acceptRcap_rb (r : Half) : (acceptRcap r s).rb = s.rb := rfl
@[simp] theorem acceptRcap_hsbuf (r : Half) : (acceptRcap r s).hsbuf = s.hsbuf := rfl
@[simp] theorem acceptRcap_fbuf (r : Half) : (acceptRcap r s).fbuf = s.fbuf := rfl
@[simp] theorem acceptRcap_flen (r : Half) : (acceptRcap r s).flen = s.flen := rfl
@[simp] theorem acceptRcap_lastRes (r : Half) : (acceptRcap r s).lastRes = s.lastRes := rfl
@[simp] theorem acceptRcap_fault (r : Half) : (acceptRcap r s).fault = s.fault := rfl
@[simp] theorem acceptRcap_faultCause (r : Half) : (acceptRcap r s).faultCause = s.faultCause := rfl
@[simp] theorem acceptRcap_csN (r : Half) : (acceptRcap r s).csN = s.csN := rfl
@[simp] theorem acceptRcap_rRem (r : Half) : (acceptRcap r s).rRem = r := rfl
@[simp] theorem acceptRcap_winK (r : Half) : (acceptRcap r s).winK = s.winK := rfl
@[simp] theorem acceptRcap_seq (r : Half) : (acceptRcap r s).seq = .p4 := rfl
@[simp] theorem acceptRcap_cur (r : Half) : (acceptRcap r s).cur = s.cur := rfl
@[simp] theorem acceptRcap_out (r : Half) : (acceptRcap r s).out = s.out := rfl
@[simp] theorem acceptRcap_trace (r : Half) : (acceptRcap r s).trace = s.trace := rfl
@[simp] theorem acceptRcap_env (r : Half) : (acceptRcap r s).env = s.env := rfl
@[simp] theorem acceptRcap_port (r : Half) : (acceptRcap r s).port = s.port := rfl
@[simp] theorem acceptRcap_fresh (r : Half) : (acceptRcap r s).fresh = s.fresh := rfl

/-! ### startAt -/

@[simp] theorem startAt_cfg (l : Seq) (i : Instr) : (startAt l i s).cfg = s.cfg := rfl
@[simp] theorem startAt_wp (l : Seq) (i : Instr) : (startAt l i s).wp = s.wp := rfl
@[simp] theorem startAt_rp (l : Seq) (i : Instr) : (startAt l i s).rp = s.rp := rfl
@[simp] theorem startAt_cnt (l : Seq) (i : Instr) : (startAt l i s).cnt = s.cnt := rfl
@[simp] theorem startAt_rb (l : Seq) (i : Instr) : (startAt l i s).rb = s.rb := rfl
@[simp] theorem startAt_hsbuf (l : Seq) (i : Instr) : (startAt l i s).hsbuf = s.hsbuf := rfl
@[simp] theorem startAt_fbuf (l : Seq) (i : Instr) : (startAt l i s).fbuf = s.fbuf := rfl
@[simp] theorem startAt_flen (l : Seq) (i : Instr) : (startAt l i s).flen = s.flen := rfl
@[simp] theorem startAt_lastRes (l : Seq) (i : Instr) : (startAt l i s).lastRes = s.lastRes := rfl
@[simp] theorem startAt_fault (l : Seq) (i : Instr) : (startAt l i s).fault = s.fault := rfl
@[simp] theorem startAt_faultCause (l : Seq) (i : Instr) : (startAt l i s).faultCause = s.faultCause := rfl
@[simp] theorem startAt_csN (l : Seq) (i : Instr) : (startAt l i s).csN = s.csN := rfl
@[simp] theorem startAt_rRem (l : Seq) (i : Instr) : (startAt l i s).rRem = s.rRem := rfl
@[simp] theorem startAt_winK (l : Seq) (i : Instr) : (startAt l i s).winK = s.winK := rfl
@[simp] theorem startAt_seq (l : Seq) (i : Instr) : (startAt l i s).seq = l := rfl
@[simp] theorem startAt_cur (l : Seq) (i : Instr) : (startAt l i s).cur = some { cmd := i, res := .ok } := rfl
@[simp] theorem startAt_out (l : Seq) (i : Instr) : (startAt l i s).out = none := rfl
@[simp] theorem startAt_trace (l : Seq) (i : Instr) : (startAt l i s).trace = s.trace := rfl
@[simp] theorem startAt_env (l : Seq) (i : Instr) : (startAt l i s).env = s.env := rfl
@[simp] theorem startAt_port (l : Seq) (i : Instr) : (startAt l i s).port = s.port := rfl
@[simp] theorem startAt_fresh (l : Seq) (i : Instr) : (startAt l i s).fresh = s.fresh := rfl

/-! ### raise -/

/-- Fault entry by any cause but REENTRY, FAULT clear. -/
theorem raise_first {c : Cause} (hc : c ≠ .reentry) (hf : s.fault = false) :
    raise c s = { s with fault := true, faultCause := c, seq := .idle, cur := none, out := none } := by
  simp [raise, hc, hf]

/-- REENTRY, FAULT clear: the sequencer goes on where it is (R244). -/
theorem raise_reentry_first (hf : s.fault = false) :
    raise .reentry s = { s with fault := true, faultCause := .reentry, out := none } := by
  simp [raise, hf]

/-- REENTRY, FAULT set: the first cause stays (R237). -/
theorem raise_reentry_again (hf : s.fault = true) : raise .reentry s = { s with out := none } := by
  simp [raise, hf]

@[simp] theorem raise_cfg (c : Cause) : (raise c s).cfg = s.cfg := by
  unfold raise; split <;> split <;> rfl
@[simp] theorem raise_wp (c : Cause) : (raise c s).wp = s.wp := by
  unfold raise; split <;> split <;> rfl
@[simp] theorem raise_rp (c : Cause) : (raise c s).rp = s.rp := by
  unfold raise; split <;> split <;> rfl
@[simp] theorem raise_cnt (c : Cause) : (raise c s).cnt = s.cnt := by
  unfold raise; split <;> split <;> rfl
@[simp] theorem raise_rb (c : Cause) : (raise c s).rb = s.rb := by
  unfold raise; split <;> split <;> rfl
@[simp] theorem raise_hsbuf (c : Cause) : (raise c s).hsbuf = s.hsbuf := by
  unfold raise; split <;> split <;> rfl
@[simp] theorem raise_fbuf (c : Cause) : (raise c s).fbuf = s.fbuf := by
  unfold raise; split <;> split <;> rfl
@[simp] theorem raise_flen (c : Cause) : (raise c s).flen = s.flen := by
  unfold raise; split <;> split <;> rfl
@[simp] theorem raise_lastRes (c : Cause) : (raise c s).lastRes = s.lastRes := by
  unfold raise; split <;> split <;> rfl
@[simp] theorem raise_csN (c : Cause) : (raise c s).csN = s.csN := by
  unfold raise; split <;> split <;> rfl
@[simp] theorem raise_rRem (c : Cause) : (raise c s).rRem = s.rRem := by
  unfold raise; split <;> split <;> rfl
@[simp] theorem raise_winK (c : Cause) : (raise c s).winK = s.winK := by
  unfold raise; split <;> split <;> rfl
@[simp] theorem raise_trace (c : Cause) : (raise c s).trace = s.trace := by
  unfold raise; split <;> split <;> rfl
@[simp] theorem raise_env (c : Cause) : (raise c s).env = s.env := by
  unfold raise; split <;> split <;> rfl
@[simp] theorem raise_port (c : Cause) : (raise c s).port = s.port := by
  unfold raise; split <;> split <;> rfl
@[simp] theorem raise_fresh (c : Cause) : (raise c s).fresh = s.fresh := by
  unfold raise; split <;> split <;> rfl
@[simp] theorem raise_out (c : Cause) : (raise c s).out = none := by
  unfold raise; split <;> split <;> rfl
@[simp] theorem raise_fault (c : Cause) : (raise c s).fault = true := by
  cases hf : s.fault <;> simp [raise, hf] <;> split <;> simp

/-! ### nextDraw -/

@[simp] theorem nextDraw_cfg : (nextDraw s).2.cfg = s.cfg := rfl
@[simp] theorem nextDraw_wp : (nextDraw s).2.wp = s.wp := rfl
@[simp] theorem nextDraw_rp : (nextDraw s).2.rp = s.rp := rfl
@[simp] theorem nextDraw_cnt : (nextDraw s).2.cnt = s.cnt := rfl
@[simp] theorem nextDraw_rb : (nextDraw s).2.rb = s.rb := rfl
@[simp] theorem nextDraw_hsbuf : (nextDraw s).2.hsbuf = s.hsbuf := rfl
@[simp] theorem nextDraw_fbuf : (nextDraw s).2.fbuf = s.fbuf := rfl
@[simp] theorem nextDraw_flen : (nextDraw s).2.flen = s.flen := rfl
@[simp] theorem nextDraw_lastRes : (nextDraw s).2.lastRes = s.lastRes := rfl
@[simp] theorem nextDraw_fault : (nextDraw s).2.fault = s.fault := rfl
@[simp] theorem nextDraw_faultCause : (nextDraw s).2.faultCause = s.faultCause := rfl
@[simp] theorem nextDraw_csN : (nextDraw s).2.csN = s.csN := rfl
@[simp] theorem nextDraw_rRem : (nextDraw s).2.rRem = s.rRem := rfl
@[simp] theorem nextDraw_winK : (nextDraw s).2.winK = s.winK := rfl
@[simp] theorem nextDraw_seq : (nextDraw s).2.seq = s.seq := rfl
@[simp] theorem nextDraw_cur : (nextDraw s).2.cur = s.cur := rfl
@[simp] theorem nextDraw_out : (nextDraw s).2.out = s.out := rfl
@[simp] theorem nextDraw_trace : (nextDraw s).2.trace = s.trace := rfl
@[simp] theorem nextDraw_port : (nextDraw s).2.port = s.port := rfl

end Sys2Proof.Machine
end

