-- ==== Sys2Proof/Laws/RingBuffer.lean ====
section
/-! SUPPORT. What the ring-buffer primitives do to the valid window: a fill appends, a take removes from the head, and
both keep the invariants of R24. -/

namespace Sys2Proof.Machine

variable {s : State}

/-- A cursor sum is reduced mod N by at most one subtraction (R123). -/
theorem mod_once {x n : Nat} (h : x < 2 * n) : x % n = if x < n then x else x - n := by
  split
  · exact Nat.mod_eq_of_lt ‹_›
  · rw [Nat.mod_eq_sub_mod (by omega), Nat.mod_eq_of_lt (by omega)]

theorem capN_lt (s : State) : capN s < 65536 := s.cfg.cap.isLt

theorem ofNat16_toNat {x : Nat} (h : x < 65536) : (BitVec.ofNat 16 x).toNat = x := by
  simp [BitVec.toNat_ofNat, Nat.mod_eq_of_lt h]

@[simp] theorem zeros_length (k : Nat) : (zeros k).length = k := by simp [zeros]

@[simp] theorem headBytes_length (n : Nat) (s : State) : (headBytes n s).length = n := by simp [headBytes]

@[simp] theorem headBytes_zero (s : State) : headBytes 0 s = [] := rfl

theorem headBytes_getElem (n : Nat) (s : State) (j : Nat) (h : j < (headBytes n s).length) :
    (headBytes n s)[j] = peek j s := by simp [headBytes]

@[simp] theorem contents_length (s : State) : (contents s).length = s.cnt.toNat := by simp [contents]

/-- The bytes at the head are the first of the valid window. -/
theorem headBytes_eq_take {n : Nat} (h : n ≤ s.cnt.toNat) : headBytes n s = (contents s).take n := by
  apply List.ext_getElem
  · simp; omega
  · intro j h1 h2
    simp [headBytes_getElem, contents]

theorem contigLen_le_free (s : State) : contigLen s ≤ capN s - s.cnt.toNat := Nat.min_le_left _ _

theorem contigLen_le_run (s : State) : contigLen s ≤ capN s - s.wp.toNat := Nat.min_le_right _ _

theorem contigLen_lt (s : State) : contigLen s < 65536 := by
  have := contigLen_le_free s
  have := capN_lt s
  omega

theorem rbFill_cnt_toNat {bs : List Byte} (hc : s.cnt.toNat ≤ capN s) (h : bs.length ≤ contigLen s) :
    (rbFill bs s).cnt.toNat = s.cnt.toNat + bs.length := by
  have := contigLen_le_free s
  have := capN_lt s
  exact ofNat16_toNat (by omega)

theorem rbFill_wp_toNat {bs : List Byte} (hr : RingInv s) :
    (rbFill bs s).wp.toNat = (s.wp.toNat + bs.length) % capN s := by
  have h1 := capN_lt s
  have h2 := Nat.mod_lt (s.wp.toNat + bs.length) (show capN s > 0 from hr.capPos)
  exact ofNat16_toNat (by omega)

/-- A fill keeps the ring buffer's invariants (R24, R113). -/
theorem rbFill_ring {bs : List Byte} (hr : RingInv s) (h : bs.length ≤ contigLen s) : RingInv (rbFill bs s) := by
  have hf := contigLen_le_free s
  have hcap : capN (rbFill bs s) = capN s := rfl
  refine ⟨hr.capPos, ?_, ?_, hr.rpLt, ?_⟩
  · rw [rbFill_cnt_toNat hr.cntLe h, hcap]; have := hr.cntLe; omega
  · rw [rbFill_wp_toNat hr, hcap]; exact Nat.mod_lt _ hr.capPos
  · rw [rbFill_wp_toNat hr, rbFill_cnt_toNat hr.cntLe h, hcap, hr.wpEq, rbFill_rp, Nat.mod_add_mod, Nat.add_assoc]

/-- The bytes of a fill join the valid window at its end, and the rest of the window is as before (R113). -/
theorem rbFill_contents {bs : List Byte} (hr : RingInv s) (h : bs.length ≤ contigLen s) :
    contents (rbFill bs s) = contents s ++ bs := by
  have hf := contigLen_le_free s
  have hw := contigLen_le_run s
  have hcnt := rbFill_cnt_toNat hr.cntLe h
  have hc := hr.cntLe
  have hp := hr.rpLt
  have hwp := hr.wpEq
  rw [mod_once (by omega)] at hwp
  apply List.ext_getElem
  · simp [-rbFill_cnt, hcnt]
  · intro j h1 h2
    simp only [contents, headBytes_length, hcnt] at h1
    have hread : (contents (rbFill bs s))[j] =
        (s.rb.writeList s.wp.toNat bs).read ((s.rp.toNat + j) % capN s) := by
      simp [contents, headBytes_getElem, peek, capN]
    rw [hread, mod_once (by omega)]
    by_cases hj : j < s.cnt.toNat
    · rw [List.getElem_append_left (by simpa using hj)]
      simp only [contents, headBytes_getElem, peek]
      rw [mod_once (by omega)]
      apply read_writeList_outside
      split at hwp <;> split <;> omega
    · rw [List.getElem_append_right (by simpa using hj)]
      have hidx : (if s.rp.toNat + j < capN s then s.rp.toNat + j else s.rp.toNat + j - capN s) =
          s.wp.toNat + (j - s.cnt.toNat) := by split at hwp <;> split <;> omega
      rw [hidx, read_writeList_inside _ _ _ _ (by omega)]
      simp

theorem dropHead_cnt_toNat (s : State) (n : Nat) : (dropHead n s).cnt.toNat = s.cnt.toNat - n := by
  have := s.cnt.isLt
  exact ofNat16_toNat (by omega)

theorem dropHead_rp_toNat {n : Nat} (hr : RingInv s) :
    (dropHead n s).rp.toNat = (s.rp.toNat + n) % capN s := by
  have h1 := capN_lt s
  have h2 := Nat.mod_lt (s.rp.toNat + n) (show capN s > 0 from hr.capPos)
  exact ofNat16_toNat (by omega)

/-- A take keeps the ring buffer's invariants (R24, R118). -/
theorem dropHead_ring {n : Nat} (hr : RingInv s) (h : n ≤ s.cnt.toNat) : RingInv (dropHead n s) := by
  have hcap : capN (dropHead n s) = capN s := rfl
  refine ⟨hr.capPos, ?_, hr.wpLt, ?_, ?_⟩
  · rw [dropHead_cnt_toNat, hcap]; have := hr.cntLe; omega
  · rw [dropHead_rp_toNat hr, hcap]; exact Nat.mod_lt _ hr.capPos
  · rw [dropHead_rp_toNat hr, dropHead_cnt_toNat, hcap, dropHead_wp, hr.wpEq, Nat.mod_add_mod]
    congr 1; omega

/-- A take removes its bytes from the head of the valid window (R118). -/
theorem dropHead_contents {n : Nat} (hr : RingInv s) :
    contents (dropHead n s) = (contents s).drop n := by
  apply List.ext_getElem
  · simp [-dropHead_cnt, dropHead_cnt_toNat]
  · intro j h1 h2
    simp only [contents, headBytes_getElem, List.getElem_drop, peek, dropHead_rb]
    rw [dropHead_rp_toNat hr]
    have hcap : capN (dropHead n s) = capN s := rfl
    rw [hcap, Nat.mod_add_mod, Nat.add_assoc]

/-- A fill writes below N alone, so RB keeps its canonical form. -/
theorem rbFill_wf {bs : List Byte} (h : bs.length ≤ contigLen s) (hw : s.wp.toNat < capN s)
    (hm : s.rb.wf (capN s) = true) : (rbFill bs s).rb.wf (capN s) = true := by
  have := contigLen_le_run s
  exact writeList_keeps_wf _ _ _ _ (by omega) hm

/-- A frame written to FBUF is read back from it (R26). -/
theorem storeFrame_read (f : List Byte) (s : State) (j : Nat) (h : j < f.length) :
    (storeFrame f s).fbuf.read j = f[j] := by
  have := read_writeList_inside s.fbuf 0 f j h
  simpa using this

/-- Bytes of FBUF past the frame keep their values (R26). -/
theorem storeFrame_read_past (f : List Byte) (s : State) (j : Nat) (h : f.length ≤ j) :
    (storeFrame f s).fbuf.read j = s.fbuf.read j := by
  apply read_writeList_outside; omega

theorem storeFrame_wf {f : List Byte} (h : f.length ≤ Config.frameMax)
    (hm : s.fbuf.wf Config.frameMax = true) : (storeFrame f s).fbuf.wf Config.frameMax = true :=
  writeList_keeps_wf _ _ _ _ (by omega) hm

/-- Zeroing a window beyond the valid bytes leaves the valid window alone (R37, R171). -/
theorem zeroWindow_contents (hr : RingInv s) (hk : s.winK.toNat ≤ contigLen s) :
    contents (zeroWindow s) = contents s := by
  have hf := contigLen_le_free s
  have hw := contigLen_le_run s
  have hc := hr.cntLe
  have hp := hr.rpLt
  have hwp := hr.wpEq
  rw [mod_once (by omega)] at hwp
  apply List.ext_getElem
  · simp
  · intro j h1 h2
    simp only [contents_length] at h2
    simp only [contents, headBytes_getElem, peek, zeroWindow_rb, zeroWindow_rp]
    have hcap : capN (zeroWindow s) = capN s := rfl
    rw [hcap, mod_once (by omega)]
    apply read_writeList_outside
    rw [zeros_length]
    split at hwp <;> split <;> omega

end Sys2Proof.Machine
end

