-- ==== Sys2Proof/Laws/Ops.lean ====
section
/-! SUPPORT. What each shared operation around a command can do: the entry checks, the end of a command, fault entry, and
the step by what it fetched. -/

namespace Sys2Proof.Machine

variable {s : State}

/-- A command presented at a boundary with FAULT = 0 runs. -/
theorem enter_ready (h : Ready s) (b : State → State) : enter b s = .next (b s) := by
  simp [enter, h.1, h.2]

/-- A command presented while another is in progress raises REENTRY. -/
theorem enter_busy (h : s.seq ≠ .idle) (b : State → State) : enter b s = .next (raise .reentry s) := by
  simp [enter, h]

/-- A command presented while FAULT = 1 is refused. -/
theorem enter_faulted (h : s.seq = .idle) (hf : s.fault = true) (b : State → State) :
    enter b s = .next (refuse s) := by
  simp [enter, h, hf]

/-- The entry checks never stop the model. -/
theorem enter_next (b : State → State) (s : State) :
    enter b s = .next (raise .reentry s) ∨ enter b s = .next (refuse s) ∨ enter b s = .next (b s) := by
  unfold enter; split <;> [skip; split] <;> simp

/-- Fault entry from a boundary. -/
theorem raise_ready (h : Ready s) {c : Cause} (hc : c ≠ .reentry) : raise c s = faulted c s := by
  rw [raise_first s hc h.2]
  have := h.1
  cases s; simp_all [faulted]

/-- Completion from a boundary. -/
theorem complete_idle (h : s.seq = .idle) (o : Output) :
    complete o s = { s with lastRes := o.res, cur := none, out := some o } := by
  cases s; simp_all [complete]

/-- A completed command leaves the block ready. -/
theorem complete_ready (h : s.fault = false) (o : Output) : Ready (complete o s) := ⟨rfl, h⟩

/-- REENTRY, whatever FAULT is (R244). -/
theorem raise_reentry (s : State) : raise .reentry s = { s with
    fault := true, faultCause := (if s.fault then s.faultCause else .reentry), out := none } := by
  cases hf : s.fault <;> cases s <;> simp_all [raise]

/-- No command word decodes to a wire header. -/
theorem decode_command_not_header {w : Word} {st : Strings} {i : Instr} (h : decode (.command w st) = .ok i) :
    i ≠ .hsWreq ∧ i ≠ .hsRreq ∧ ∀ a b, i ≠ .hsReady a b := by
  simp only [decode, decodeCommand] at h
  split at h
  · simp at h
  · unfold decodeOp at h
    split at h <;> (try simp only [withoutArg] at h) <;> (try split at h) <;> simp at h <;> subst h <;> simp

/-- A command other than RDREG goes through the entry checks. -/
theorem exec_busy {i : Instr} (hs : s.seq ≠ .idle) (h : i ≠ .hsWreq ∧ i ≠ .hsRreq ∧ ∀ a b, i ≠ .hsReady a b) :
    exec i s = .next (raise .reentry s) := by
  cases i <;> simp_all [exec, execWrite, execRead, execPull, execExtract, execRdreg, execRbContig, execRbFill,
    execRbAvail, execRbPeek, execRbTake, enter]

end Sys2Proof.Machine
end

