-- ==== Sys2Proof/Laws/Bus.lean ====
section
/-! SUPPORT. What the bus primitives and the handshake can do, each said once: which answer, which event, and which
fields of the state. -/

namespace Sys2Proof.Machine

variable {s : State}

/-- What a draw takes: the script and the count of free values, nothing else. -/
theorem nextDraw_state (s : State) :
    (nextDraw s).2 = { s with env := (nextDraw s).2.env, fresh := (nextDraw s).2.fresh } := rfl

/-- A draw depends on the script and the count of free values alone. -/
theorem nextDraw_congr {t : State} (he : s.env = t.env) (hf : s.fresh = t.fresh) :
    (nextDraw s).1 = (nextDraw t).1 ∧ (nextDraw s).2.env = (nextDraw t).2.env ∧
      (nextDraw s).2.fresh = (nextDraw t).2.fresh := by
  simp [nextDraw, he, hf]

/-- The draws to come depend on the script and the count of free values alone. -/
theorem draws_congr (k : Nat) {s t : State} (he : s.env = t.env) (hf : s.fresh = t.fresh) : draws k s = draws k t := by
  induction k generalizing s t with
  | zero => rfl
  | succ k ih =>
    obtain ⟨h1, h2, h3⟩ := nextDraw_congr he hf
    simp only [draws, h1, ih h2 h3]

/-- The first draw to come is the next one, and the rest come after it. -/
theorem draws_cons {k : Nat} {d : Draw} {ds : List Draw} (h : draws (k + 1) s = d :: ds) :
    (nextDraw s).1 = d ∧ draws k (nextDraw s).2 = ds := by
  simpa [draws] using h

@[simp] theorem fit_length (n : Nat) (bs : List Byte) : (fit n bs).length = n := by
  simp [fit]

/-- The answer to a transfer, by the draw (R46). -/
theorem answerOf_fault {d : Draw} (n : Nat) (h : d.commFault = true) : answerOf n d = .commFault (d.rx.take n) := by
  simp [answerOf, h]

@[inherit_doc answerOf_fault]
theorem answerOf_ok {d : Draw} (n : Nat) (h : d.commFault = false) : answerOf n d = .ok (fit n d.rx) := by
  simp [answerOf, h]

theorem answerOf_outcome (n : Nat) (d : Draw) :
    (answerOf n d).outcome = if d.commFault then .commFault else .ok (fit n d.rx) := by
  cases h : d.commFault <;> simp [answerOf, XferAnswer.outcome, h]

/-- Five bytes go into HSBUF and come out of it. -/
theorem headerOf_bytes {bs : List Byte} (h : bs.length = 5) : (headerOf bs).bytes = bs := by
  match bs, h with
  | [a, b, c, d, e], _ => rfl

@[simp] theorem headerOf_request_bytes (d : Dir) : (headerOf (request d)).bytes = request d := by
  cases d <;> rfl

@[simp] theorem request_length (d : Dir) : (request d).length = 5 := by cases d <;> rfl

/-- The state after the handshake's bus event, before HSBUF takes the reply. -/
def afterRequest (d : Dir) (s : State) : State :=
  emit (.xfer (request d) (answerOf 5 (nextDraw s).1).outcome) { (nextDraw s).2 with hsbuf := headerOf (request d) }

theorem handshakeXfer_fault (d : Dir) (h : (nextDraw s).1.commFault = true) :
    handshakeXfer d s = (false, scrambleHsbuf (afterRequest d s)) := by
  have h' : (nextDraw { s with hsbuf := headerOf (request d) }).1.commFault = true := h
  unfold handshakeXfer busXfer afterRequest
  simp only [headerOf_request_bytes, request_length]
  rw [answerOf_fault _ h', answerOf_fault _ h]
  rfl

theorem handshakeXfer_ok (d : Dir) (h : (nextDraw s).1.commFault = false) :
    handshakeXfer d s =
      (true, { afterRequest d s with hsbuf := headerOf (fit 5 (nextDraw s).1.rx) }) := by
  have h' : (nextDraw { s with hsbuf := headerOf (request d) }).1.commFault = false := h
  unfold handshakeXfer busXfer afterRequest
  simp only [headerOf_request_bytes, request_length]
  rw [answerOf_ok _ h', answerOf_ok _ h]
  rfl

/-- The reply of a header (R90, R142). -/
theorem replyOf_eq (h : Header) :
    replyOf h = if h.b0 = 0x02#8 then .ready (le16 h.b1 h.b2) (le16 h.b3 h.b4) else .notReady := by
  by_cases h0 : h.b0 = 0x02#8
  · simp [replyOf, Header.bytes, decodeHeader, readyMarker, h0]
  · by_cases h1 : h.b0 = writeMarker
    · by_cases h2 : [h.b1, h.b2, h.b3, h.b4] = [0#8, 0#8, 0#8, 0#8] <;>
        simp only [replyOf, Header.bytes, decodeHeader, readyMarker, h1, h2, if_true, if_false] <;> rfl
    · by_cases h2 : h.b0 = readMarker
      · by_cases h3 : [h.b1, h.b2, h.b3, h.b4] = [0#8, 0#8, 0#8, 0#8] <;>
          simp only [replyOf, Header.bytes, decodeHeader, readyMarker, h2, h3, if_true, if_false] <;> rfl
      · simp only [replyOf, Header.bytes, decodeHeader, readyMarker, h0, h1, h2, if_false]

theorem handshake_fault (d : Dir) (h : (nextDraw s).1.commFault = true) :
    handshake d s = (.comm, scrambleHsbuf (afterRequest d s)) := by
  simp [handshake, handshakeXfer_fault d h]

theorem handshake_ok (d : Dir) (h : (nextDraw s).1.commFault = false) :
    handshake d s = (replyOf (headerOf (fit 5 (nextDraw s).1.rx)),
      { afterRequest d s with hsbuf := headerOf (fit 5 (nextDraw s).1.rx) }) := by
  simp [handshake, handshakeXfer_ok d h]

/-- The handshake changes HSBUF, the trace and what it draws from, and records one event (R141). -/
theorem handshake_frame (d : Dir) (s : State) : (handshake d s).2 = { s with
    hsbuf := (handshake d s).2.hsbuf, env := (handshake d s).2.env, fresh := (handshake d s).2.fresh
    trace := s.trace ++ [.xfer (request d) (answerOf 5 (nextDraw s).1).outcome] } := by
  cases h : (nextDraw s).1.commFault
  · rw [handshake_ok d h]; rfl
  · rw [handshake_fault d h]; rfl

end Sys2Proof.Machine
end

