-- ==== Sys2Proof/Laws/Transfer.lean ====
section
/-! SUPPORT. What a pull can do: one window, moved or faulted (R170, R172); that after a window the loop is over or the
next window ends it (R173); and the loop and PullBody() as a whole. -/

namespace Sys2Proof.Machine

variable {s : State}

/-- The length of the window that @P4 opens (R170). -/
def windowLen (s : State) : Nat := min s.rRem.toNat (contigLen s)

theorem windowLen_le (s : State) : windowLen s ≤ contigLen s := Nat.min_le_right _ _

theorem windowLen_le_rem (s : State) : windowLen s ≤ s.rRem.toNat := Nat.min_le_left _ _

theorem windowLen_lt (s : State) : windowLen s < 65536 := by
  have := windowLen_le s
  have := contigLen_lt s
  omega

/-- The loop goes on exactly when a window has a byte (R170). -/
theorem wantsWindow_iff (s : State) : wantsWindow s = true ↔ 0 < windowLen s := by
  unfold wantsWindow windowLen
  simp only [Bool.and_eq_true, decide_eq_true_eq]
  omega

theorem openWindow_winK_toNat (s : State) : (openWindow s).winK.toNat = windowLen s :=
  ofNat16_toNat (windowLen_lt s)

theorem ring_congr {t : State} (hr : RingInv s) (h1 : t.cfg = s.cfg) (h2 : t.wp = s.wp) (h3 : t.rp = s.rp)
    (h4 : t.cnt = s.cnt) : RingInv t := by
  constructor <;> simp only [capN, h1, h2, h3, h4]
  · exact hr.capPos
  · exact hr.cntLe
  · exact hr.wpLt
  · exact hr.rpLt
  · exact hr.wpEq

theorem contents_congr {t : State} (h1 : t.cfg = s.cfg) (h2 : t.rp = s.rp) (h3 : t.cnt = s.cnt)
    (h4 : t.rb = s.rb) : contents t = contents s := by
  simp only [contents, headBytes, peek, capN, h1, h2, h3, h4]

theorem contigLen_congr {t : State} (h1 : t.cfg = s.cfg) (h2 : t.wp = s.wp) (h3 : t.cnt = s.cnt) :
    contigLen t = contigLen s := by
  simp only [contigLen, capN, h1, h2, h3]

@[simp] theorem faultedWindow_length {k : Nat} {p : List Byte} (h : p.length ≤ k) : (faultedWindow k p).length = k := by
  simp [faultedWindow]; omega

/-- How a committed window of `k` bytes changes the state: `bs` at WP, and the fields a window touches. -/
structure Moved (k : Nat) (s t : State) (bs : List Byte) (rem : Nat) (out : XferOutcome) : Prop where
  ring : RingInv t
  contents : contents t = contents s ++ bs
  cnt : t.cnt.toNat = s.cnt.toNat + k
  wp : t.wp.toNat = (s.wp.toNat + k) % capN s
  rem : t.rRem.toNat = rem
  frame : t = { s with
    rb := t.rb, wp := t.wp, cnt := t.cnt, rRem := t.rRem, winK := t.winK
    env := (nextDraw s).2.env, fresh := (nextDraw s).2.fresh
    trace := s.trace ++ [.xfer (zeros k) out] }
  rbWf : s.rb.wf (capN s) = true → t.rb.wf (capN s) = true
  outside : ∀ a, a < s.wp.toNat ∨ s.wp.toNat + k ≤ a → t.rb.read a = s.rb.read a

theorem zeroWindow_rbWf (hr : RingInv s) (hk : s.winK.toNat ≤ contigLen s) (h : s.rb.wf (capN s) = true) :
    (zeroWindow s).rb.wf (capN s) = true := by
  have h2 := contigLen_le_run s
  have h3 := hr.wpLt
  refine writeList_keeps_wf _ _ _ _ ?_ h
  rw [zeros_length]
  omega

/-- The commit of a window, whatever its bytes, from the state its transfer left. -/
theorem commit_moved (hr : RingInv s) (hk : s.winK.toNat ≤ contigLen s) (bs : List Byte)
    (hl : bs.length = s.winK.toNat) (out : XferOutcome) (rem : Half) :
    Moved s.winK.toNat s
      { rbFill bs (emit (.xfer (zeros s.winK.toNat) out) (nextDraw (zeroWindow s)).2) with rRem := rem }
      bs rem.toNat out := by
  let m := emit (.xfer (zeros s.winK.toNat) out) (nextDraw (zeroWindow s)).2
  have hm : RingInv m := ring_congr hr rfl rfl rfl rfl
  have hc : contigLen m = contigLen s := contigLen_congr rfl rfl rfl
  have hcont : contents m = contents s :=
    (contents_congr (s := zeroWindow s) rfl rfl rfl rfl).trans (zeroWindow_contents hr hk)
  have hfit : bs.length ≤ contigLen m := by omega
  refine ⟨?_, ?_, ?_, ?_, rfl, ?_, ?_, ?_⟩
  · exact ring_congr (rbFill_ring hm hfit) rfl rfl rfl rfl
  · refine (contents_congr (s := rbFill bs m) rfl rfl rfl rfl).trans ?_
    rw [rbFill_contents hm hfit, hcont]
  · have := rbFill_cnt_toNat hm.cntLe hfit
    rw [← hl]; exact this
  · have := rbFill_wp_toNat (bs := bs) hm
    rw [← hl]; exact this
  · rfl
  · intro hw
    exact rbFill_wf hfit hm.wpLt (zeroWindow_rbWf hr hk hw)
  · intro a ha
    have h1 : ((zeroWindow s).rb.writeList s.wp.toNat bs).read a = s.rb.read a := by
      rw [zeroWindow_rb, read_writeList_outside _ _ _ (by rw [hl]; exact ha),
        read_writeList_outside _ _ _ (by rw [zeros_length]; exact ha)]
    exact h1

/-- @P5 where the transfer succeeds (R170). -/
theorem moveWindow_commits (hr : RingInv s) (hk : s.winK.toNat ≤ contigLen s) (h : (nextDraw s).1.commFault = false) :
    ∃ t, moveWindow s = (true, t) ∧
      Moved s.winK.toNat s t (fit s.winK.toNat (nextDraw s).1.rx) (s.rRem.toNat - s.winK.toNat)
        (.ok (fit s.winK.toNat (nextDraw s).1.rx)) := by
  have h' : (nextDraw (zeroWindow s)).1.commFault = false := h
  have hrem : (BitVec.ofNat 16 (s.rRem.toNat - s.winK.toNat)).toNat = s.rRem.toNat - s.winK.toNat := by
    have := s.rRem.isLt; exact ofNat16_toNat (by omega)
  have hm := commit_moved hr hk (fit s.winK.toNat (nextDraw s).1.rx) (fit_length _ _)
    (.ok (fit s.winK.toNat (nextDraw s).1.rx)) (BitVec.ofNat 16 (s.rRem.toNat - s.winK.toNat))
  rw [hrem] at hm
  refine ⟨_, ?_, hm⟩
  unfold moveWindow busXfer
  simp only [zeros_length]
  rw [answerOf_ok _ h']
  rfl

/-- @P5 where the transfer faults: R_REM stays (R172). -/
theorem moveWindow_commits_fault (hr : RingInv s) (hk : s.winK.toNat ≤ contigLen s)
    (h : (nextDraw s).1.commFault = true) :
    ∃ t, moveWindow s = (false, t) ∧
      Moved s.winK.toNat s t (faultedWindow s.winK.toNat ((nextDraw s).1.rx.take s.winK.toNat)) s.rRem.toNat
        .commFault := by
  have h' : (nextDraw (zeroWindow s)).1.commFault = true := h
  have hm := commit_moved hr hk (faultedWindow s.winK.toNat ((nextDraw s).1.rx.take s.winK.toNat))
    (faultedWindow_length (by simp)) .commFault s.rRem
  refine ⟨_, ?_, hm⟩
  unfold moveWindow busXfer
  simp only [zeros_length]
  rw [answerOf_fault _ h']
  rfl

/-- A window moved from the state @P4 left, seen from the state before @P4. -/
theorem Moved.opened {k : Nat} {t : State} {bs : List Byte} {rem : Nat} {out : XferOutcome}
    (h : Moved k (openWindow s) t bs rem out) : Moved k s t bs rem out where
  ring := h.ring
  contents := h.contents.trans (congrArg (· ++ bs) (contents_congr (s := s) rfl rfl rfl rfl))
  cnt := h.cnt
  wp := h.wp
  rem := h.rem
  frame := h.frame
  rbWf := h.rbWf
  outside := h.outside

theorem openWindow_fits (s : State) : (openWindow s).winK.toNat ≤ contigLen (openWindow s) := by
  rw [openWindow_winK_toNat]
  exact windowLen_le s

/-- A window opened and moved without a fault (R170). -/
theorem moveWindow_ok (hr : RingInv s) (h : (nextDraw s).1.commFault = false) :
    ∃ t, moveWindow (openWindow s) = (true, t) ∧
      Moved (windowLen s) s t (fit (windowLen s) (nextDraw s).1.rx) (s.rRem.toNat - windowLen s)
        (.ok (fit (windowLen s) (nextDraw s).1.rx)) := by
  obtain ⟨t, ht, hm⟩ := moveWindow_commits (s := openWindow s) (ring_congr hr rfl rfl rfl rfl) (openWindow_fits s) h
  rw [openWindow_winK_toNat] at hm
  exact ⟨t, ht, hm.opened⟩

/-- A window opened whose transfer faults (R172). -/
theorem moveWindow_fault (hr : RingInv s) (h : (nextDraw s).1.commFault = true) :
    ∃ t, moveWindow (openWindow s) = (false, t) ∧
      Moved (windowLen s) s t (faultedWindow (windowLen s) ((nextDraw s).1.rx.take (windowLen s))) s.rRem.toNat
        .commFault := by
  obtain ⟨t, ht, hm⟩ :=
    moveWindow_commits_fault (s := openWindow s) (ring_congr hr rfl rfl rfl rfl) (openWindow_fits s) h
  rw [openWindow_winK_toNat] at hm
  exact ⟨t, ht, hm.opened⟩

theorem pullLoop_done (turns : Nat) (h : windowLen s = 0) : pullLoop turns s = (.ok, s) := by
  cases turns with
  | zero => rfl
  | succ n =>
    have : wantsWindow s = false := by
      cases hw : wantsWindow s
      · rfl
      · have := (wantsWindow_iff s).mp hw; omega
    simp [pullLoop, this]

theorem pullLoop_next (turns : Nat) (h : 0 < windowLen s) {t : State} (hm : moveWindow (openWindow s) = (true, t)) :
    pullLoop (turns + 1) s = pullLoop turns t := by
  simp [pullLoop, (wantsWindow_iff s).mpr h, hm]

theorem pullLoop_stop (turns : Nat) (h : 0 < windowLen s) {t : State} (hm : moveWindow (openWindow s) = (false, t)) :
    pullLoop (turns + 1) s = (.errComm, t) := by
  simp [pullLoop, (wantsWindow_iff s).mpr h, hm]

/-- The bytes free in the buffer. -/
def freeLen (s : State) : Nat := capN s - s.cnt.toNat

/-- After a window moved without a fault, the next window is what is left of the announced bytes, up to the free space:
it starts at index 0 or the buffer is full (R173). -/
theorem windowLen_next {t : State} {bs : List Byte} {out : XferOutcome} (hr : RingInv s)
    (hm : Moved (windowLen s) s t bs (s.rRem.toNat - windowLen s) out) :
    windowLen t = min (s.rRem.toNat - windowLen s) (freeLen s - windowLen s) ∧
      freeLen t = freeLen s - windowLen s := by
  have hcap : capN t = capN s := by rw [hm.frame]; rfl
  have h1 := hm.cnt
  have h2 := hm.wp
  have h3 := hr.wpLt
  have h4 := windowLen_le s
  have h5 := contigLen_le_run s
  rw [mod_once (by omega)] at h2
  have hf : freeLen t = freeLen s - windowLen s := by unfold freeLen; rw [hcap, h1]; omega
  refine ⟨?_, hf⟩
  have hw : windowLen t = min t.rRem.toNat (min (capN t - t.cnt.toNat) (capN t - t.wp.toNat)) := rfl
  have hs : windowLen s = min s.rRem.toNat (min (capN s - s.cnt.toNat) (capN s - s.wp.toNat)) := rfl
  rw [hw, hm.rem, hcap, h2]
  unfold freeLen at hf ⊢
  rw [hcap] at hf
  split <;> omega

/-- Two windows end the loop (R173): after the second nothing is left, or nothing is free. -/
theorem windowLen_third {t u : State} {bs bs' : List Byte} {out out' : XferOutcome} (hr : RingInv s)
    (hm : Moved (windowLen s) s t bs (s.rRem.toNat - windowLen s) out)
    (hm' : Moved (windowLen t) t u bs' (t.rRem.toNat - windowLen t) out') : windowLen u = 0 := by
  have h1 := windowLen_next hr hm
  have h2 := windowLen_next hm.ring hm'
  have h3 := hm.rem
  omega

/-- What pulled windows leave of a state, up to two of them: bytes at the end of the valid window and their events. -/
structure Loaded (s t : State) (bs : List Byte) (events : List BusEvent) : Prop where
  ring : RingInv t
  contents : contents t = contents s ++ bs
  rbWf : s.rb.wf (capN s) = true → t.rb.wf (capN s) = true
  xfers : ∀ e ∈ events, ∃ tx out, e = .xfer tx out
  frame : t = { s with
    rb := t.rb, wp := t.wp, cnt := t.cnt, rRem := t.rRem, winK := t.winK
    env := t.env, fresh := t.fresh, trace := s.trace ++ events }

theorem Loaded.none (hr : RingInv s) : Loaded s s [] [] where
  ring := hr
  contents := by simp
  rbWf := id
  xfers := by simp
  frame := by simp

theorem Moved.loaded {t : State} {bs : List Byte} {rem : Nat} {out : XferOutcome} (h : Moved (windowLen s) s t bs rem out) :
    Loaded s t bs [.xfer (zeros (windowLen s)) out] where
  ring := h.ring
  contents := h.contents
  rbWf := h.rbWf
  xfers := by simp
  frame := by have := h.frame; rw [this]

theorem Loaded.trans {t u : State} {bs bs' : List Byte} {ev ev' : List BusEvent} (h : Loaded s t bs ev)
    (h' : Loaded t u bs' ev') : Loaded s u (bs ++ bs') (ev ++ ev') where
  ring := h'.ring
  contents := by rw [h'.contents, h.contents, List.append_assoc]
  rbWf := by
    have hcap : capN t = capN s := by rw [h.frame]; rfl
    intro hs
    have := h'.rbWf
    rw [hcap] at this
    exact this (h.rbWf hs)
  xfers := by
    intro e he
    exact (List.mem_append.mp he).elim (h.xfers e) (h'.xfers e)
  frame := by
    have h1 := h.frame
    have h2 := h'.frame
    rw [h2, h1]; simp

/-- The pull loop, whatever the environment answers (R170 to R173): at most two windows. -/
theorem pullLoop_spec (turns : Nat) (hr : RingInv s) :
    ∃ r t bs ev, pullLoop turns s = (r, t) ∧ Loaded s t bs ev ∧ ev.length ≤ 2 ∧ (r = .ok ∨ r = .errComm) := by
  match turns with
  | 0 => exact ⟨_, _, _, _, rfl, .none hr, by simp, .inl rfl⟩
  | 1 =>
    by_cases hw : windowLen s = 0
    · exact ⟨_, _, _, _, pullLoop_done _ hw, .none hr, by simp, .inl rfl⟩
    cases hf : (nextDraw s).1.commFault
    · obtain ⟨t, ht, hm⟩ := moveWindow_ok hr hf
      exact ⟨_, _, _, _, pullLoop_next 0 (by omega) ht, hm.loaded, by simp, .inl rfl⟩
    · obtain ⟨t, ht, hm⟩ := moveWindow_fault hr hf
      exact ⟨_, _, _, _, pullLoop_stop 0 (by omega) ht, hm.loaded, by simp, .inr rfl⟩
  | n + 2 =>
    by_cases hw : windowLen s = 0
    · exact ⟨_, _, _, _, pullLoop_done _ hw, .none hr, by simp, .inl rfl⟩
    cases hf : (nextDraw s).1.commFault
    · obtain ⟨t, ht, hm⟩ := moveWindow_ok hr hf
      have e := pullLoop_next (n + 1) (by omega) ht
      by_cases hw' : windowLen t = 0
      · exact ⟨_, _, _, _, e.trans (pullLoop_done _ hw'), hm.loaded, by simp, .inl rfl⟩
      cases hf' : (nextDraw t).1.commFault
      · obtain ⟨u, hu, hm'⟩ := moveWindow_ok hm.ring hf'
        exact ⟨_, _, _, _, e.trans ((pullLoop_next n (by omega) hu).trans (pullLoop_done _ (windowLen_third hr hm hm'))),
          hm.loaded.trans hm'.loaded, by simp, .inl rfl⟩
      · obtain ⟨u, hu, hm'⟩ := moveWindow_fault hm.ring hf'
        exact ⟨_, _, _, _, e.trans (pullLoop_stop n (by omega) hu), hm.loaded.trans hm'.loaded, by simp, .inr rfl⟩
    · obtain ⟨t, ht, hm⟩ := moveWindow_fault hr hf
      exact ⟨_, _, _, _, pullLoop_stop (n + 1) (by omega) ht, hm.loaded, by simp, .inr rfl⟩

/-- PullBody() where the readiness line is not asserted (R168). -/
theorem pullBody_gated (h : asserted s.cfg (nextDraw s).1.level = false) :
    pullBody s = (.notReady, emit (.rdys false) (nextDraw s).2) := by
  simp [pullBody, sampleRdy, h]

/-- PullBody() where it is asserted: chip-select around the transfer (R167). -/
theorem pullBody_selected (h : asserted s.cfg (nextDraw s).1.level = true) :
    pullBody s = ((pullTransfer (setCS false (emit (.rdys true) (nextDraw s).2))).1,
      setCS true (pullTransfer (setCS false (emit (.rdys true) (nextDraw s).2))).2) := by
  simp [pullBody, sampleRdy, h]

/-- The transfer of a pull, whatever the environment answers: a handshake, then at most two windows. -/
theorem pullTransfer_spec (hr : RingInv s) :
    ∃ r t bs ev m, pullTransfer s = (r, t) ∧ m = (handshake .read s).2 ∧
      (r = .ok ∨ r = .notReady ∨ r = .errComm) ∧ ev.length ≤ 2 ∧
      ∃ rem, Loaded { m with rRem := rem } t bs ev := by
  have hm : ∀ rem, RingInv { (handshake .read s).2 with rRem := rem } := by
    intro rem
    rw [handshake_frame]
    exact ring_congr hr rfl rfl rfl rfl
  unfold pullTransfer
  rcases h : handshake .read s with ⟨o, m⟩
  rw [h] at hm
  cases o with
  | comm => exact ⟨_, m, [], [], m, rfl, rfl, by simp, by simp, m.rRem, .none (hm _)⟩
  | notReady => exact ⟨_, m, [], [], m, rfl, rfl, by simp, by simp, m.rRem, .none (hm _)⟩
  | ready w rc =>
    obtain ⟨r, t, bs, ev, h1, h2, h3, h4⟩ := pullLoop_spec rc.toNat (hm rc)
    exact ⟨r, t, bs, ev, m, h1, rfl, by rcases h4 with h | h <;> simp [h], h3, rc, h2⟩

/-- What a pull leaves of a state, whatever the environment answers (R167): the events, the bytes that joined the valid
window, and what stays as it was. -/
structure Pulled (s t : State) (r : Res) (bs : List Byte) (evs : List BusEvent) : Prop where
  res : r = .ok ∨ r = .notReady ∨ r = .errComm
  ring : RingInv t
  contents : contents t = contents s ++ bs
  rbWf : s.rb.wf (capN s) = true → t.rb.wf (capN s) = true
  events : (asserted s.cfg (nextDraw s).1.level = true ∧ t.csN = true ∧ ∃ mid, mid.length ≤ 3 ∧
      evs = [.rdys true, .cs false] ++ mid ++ [.cs true] ∧ ∀ e ∈ mid, ∃ tx out, e = .xfer tx out) ∨
    (asserted s.cfg (nextDraw s).1.level = false ∧ t.csN = s.csN ∧ evs = [.rdys false] ∧ r = .notReady ∧ bs = [])
  frame : t = { s with
    rb := t.rb, wp := t.wp, cnt := t.cnt, rRem := t.rRem, winK := t.winK, hsbuf := t.hsbuf, csN := t.csN
    env := t.env, fresh := t.fresh, trace := s.trace ++ evs }

theorem pullBody_spec (hr : RingInv s) : ∃ r t bs ev, pullBody s = (r, t) ∧ Pulled s t r bs ev := by
  cases ha : asserted s.cfg (nextDraw s).1.level
  · refine ⟨_, _, [], [.rdys false], pullBody_gated ha, by simp, ring_congr hr rfl rfl rfl rfl, ?_, by simp, .inr ⟨ha, ?_⟩, ?_⟩
    · simp only [List.append_nil]; exact contents_congr rfl rfl rfl rfl
    · simp
    · rfl
  · let m := setCS false (emit (.rdys true) (nextDraw s).2)
    have hrm : RingInv m := ring_congr hr rfl rfl rfl rfl
    obtain ⟨r, t, bs, ev, k, h1, h2, h3, h4, rem, h5⟩ := pullTransfer_spec hrm
    have hk := handshake_frame .read m
    rw [← h2] at hk
    have hf := h5.frame
    refine ⟨r, setCS true t, bs, [.rdys true, .cs false] ++
      (.xfer (request .read) (answerOf 5 (nextDraw m).1).outcome :: ev) ++ [.cs true],
      by rw [pullBody_selected ha, h1], h3, ?_, ?_, ?_, .inl ⟨ha, rfl, _, ?_, rfl, ?_⟩, ?_⟩
    · exact ring_congr h5.ring rfl rfl rfl rfl
    · rw [contents_congr (s := t) (by simp) (by simp) (by simp) (by simp), h5.contents]
      congr 1
      rw [hk]
      exact contents_congr (by simp [m]) (by simp [m]) (by simp [m]) (by simp [m])
    · intro hs
      have h := h5.rbWf
      rw [hk] at h
      have hcap : capN m = capN s := rfl
      simpa [capN, m] using h (by simpa [capN, m] using hs)
    · simp; omega
    · intro e he
      rcases List.mem_cons.mp he with h | h
      · exact ⟨_, _, h⟩
      · exact h5.xfers e h
    · rw [hf, hk]; simp [m, setCS, emit]

/-- WRITE between its two CS events, whatever the environment answers (R161): at most three transfers, and HSBUF. -/
theorem writeBody_spec (hdrs pays : List Byte) (s : State) :
    ∃ r t ev, writeBody hdrs pays s = (r, t) ∧ ev.length ≤ 3 ∧
      (∀ e ∈ ev, (∃ tx out, e = .xfer tx out) ∨ ∃ tx out, e = .wro tx out) ∧
      t = { s with hsbuf := t.hsbuf, env := t.env, fresh := t.fresh, trace := s.trace ++ ev } := by
  have hf := handshake_frame .write s
  unfold writeBody
  rcases hh : handshake .write s with ⟨o, m⟩
  rw [hh] at hf
  dsimp only at hf
  let e1 : BusEvent := .xfer (request .write) (answerOf 5 (nextDraw s).1).outcome
  have h0 : ∃ ev : List BusEvent, ev.length ≤ 3 ∧
      (∀ e ∈ ev, (∃ tx out, e = .xfer tx out) ∨ ∃ tx out, e = .wro tx out) ∧
      m = { s with hsbuf := m.hsbuf, env := m.env, fresh := m.fresh, trace := s.trace ++ ev } :=
    ⟨[e1], by simp, by simp [e1], hf⟩
  obtain ⟨ev, h1, h2, h3⟩ := h0
  cases o with
  | comm => exact ⟨_, m, ev, rfl, h1, h2, h3⟩
  | notReady => exact ⟨_, m, ev, rfl, h1, h2, h3⟩
  | ready w c =>
    dsimp only
    split
    · exact ⟨_, m, ev, rfl, h1, h2, h3⟩
    · unfold busWrite
      dsimp only
      cases wroOf (nextDraw m).1 with
      | commFault =>
        refine ⟨_, _, [e1, .wro hdrs .commFault], rfl, by simp, by simp [e1], ?_⟩
        rw [hf]; simp [emit, e1]
      | ok =>
        dsimp only
        cases wroOf (nextDraw (emit (.wro hdrs .ok) (nextDraw m).2)).1 with
        | commFault =>
          refine ⟨_, _, [e1, .wro hdrs .ok, .wro pays .commFault], rfl, by simp, by simp [e1], ?_⟩
          rw [hf]; simp [emit, e1]
        | ok =>
          refine ⟨_, _, [e1, .wro hdrs .ok, .wro pays .ok], rfl, by simp, by simp [e1], ?_⟩
          rw [hf]; simp [emit, e1]

/-- The fields a window's transfer and commit may write, in any state, and its one event (R170, R172). -/
theorem moveWindow_frame (m : State) : ∃ e, (moveWindow m).2 = { m with
    rb := (moveWindow m).2.rb, wp := (moveWindow m).2.wp, cnt := (moveWindow m).2.cnt
    rRem := (moveWindow m).2.rRem, env := (moveWindow m).2.env
    fresh := (moveWindow m).2.fresh, trace := m.trace ++ [e] } := by
  unfold moveWindow busXfer
  dsimp only
  cases answerOf (zeros m.winK.toNat).length (nextDraw (zeroWindow m)).1 <;> exact ⟨_, rfl⟩

/-- The fields the pull loop may write, in any state (R170). -/
theorem pullLoop_frame (turns : Nat) (s : State) : ∃ ev, (pullLoop turns s).2 = { s with
    rb := (pullLoop turns s).2.rb, wp := (pullLoop turns s).2.wp, cnt := (pullLoop turns s).2.cnt
    rRem := (pullLoop turns s).2.rRem, winK := (pullLoop turns s).2.winK, env := (pullLoop turns s).2.env
    fresh := (pullLoop turns s).2.fresh, trace := s.trace ++ ev } := by
  induction turns generalizing s with
  | zero => exact ⟨[], by simp [pullLoop]⟩
  | succ n ih =>
    rw [pullLoop]
    split
    · obtain ⟨e, h1⟩ := moveWindow_frame (openWindow s)
      rcases hx : moveWindow (openWindow s) with ⟨b, m⟩
      rw [hx] at h1
      dsimp only at h1
      cases b
      · exact ⟨[e], by dsimp only; rw [h1]; simp⟩
      · obtain ⟨ev, h2⟩ := ih m
        exact ⟨e :: ev, by dsimp only; rw [h2, h1]; simp⟩
    · exact ⟨[], by simp⟩

/-- The fields PullBody() may write, in any state (R167). -/
theorem pullBody_frame (s : State) : ∃ ev, (pullBody s).2 = { s with
    rb := (pullBody s).2.rb, wp := (pullBody s).2.wp, cnt := (pullBody s).2.cnt, hsbuf := (pullBody s).2.hsbuf
    rRem := (pullBody s).2.rRem, winK := (pullBody s).2.winK, csN := (pullBody s).2.csN
    env := (pullBody s).2.env, fresh := (pullBody s).2.fresh, trace := s.trace ++ ev } := by
  cases ha : asserted s.cfg (nextDraw s).1.level
  · exact ⟨[.rdys false], by rw [pullBody_gated ha]; rfl⟩
  · rw [pullBody_selected ha]
    generalize hm : setCS false (emit (.rdys true) (nextDraw s).2) = m
    have ht : ∃ ev, (pullTransfer m).2 = { m with
        rb := (pullTransfer m).2.rb, wp := (pullTransfer m).2.wp, cnt := (pullTransfer m).2.cnt
        hsbuf := (pullTransfer m).2.hsbuf, rRem := (pullTransfer m).2.rRem, winK := (pullTransfer m).2.winK
        env := (pullTransfer m).2.env, fresh := (pullTransfer m).2.fresh, trace := m.trace ++ ev } := by
      have hf := handshake_frame .read m
      unfold pullTransfer
      rcases hh : handshake .read m with ⟨o, k⟩
      rw [hh] at hf
      dsimp only at hf
      cases o with
      | comm => exact ⟨[_], by dsimp only; rw [hf]⟩
      | notReady => exact ⟨[_], by dsimp only; rw [hf]⟩
      | ready w rc =>
        obtain ⟨ev, hp⟩ := pullLoop_frame rc.toNat { k with rRem := rc }
        exact ⟨.xfer (request .read) (answerOf 5 (nextDraw m).1).outcome :: ev, by
          dsimp only; rw [hp, hf]; simp⟩
    obtain ⟨ev, ht⟩ := ht
    refine ⟨[.rdys true, .cs false] ++ ev ++ [.cs true], ?_⟩
    dsimp only
    rw [ht, ← hm]
    simp [setCS, emit]

/-- PullBody() only adds to the trace. -/
theorem pullBody_grows (s : State) : ∃ ev, (pullBody s).2.trace = s.trace ++ ev := by
  obtain ⟨ev, h⟩ := pullBody_frame s
  exact ⟨ev, by rw [h]⟩

end Sys2Proof.Machine
end

