-- ==== Sys2Proof/Laws/Reassembly.lean ====
section
/-! SUPPORT. What ExtractStep() can do (R192, R194): no frame, a frame too long, or a frame taken. -/

namespace Sys2Proof.Machine

variable {s : State}

/-- A frame is at least as long as its header. -/
theorem hdrLen_le_frameLen (s : State) : s.cfg.hdrLen ≤ frameLen s := Nat.le_add_right _ _

/-- No frame is complete (R193). -/
theorem extractStep_none (h : s.cnt.toNat < s.cfg.hdrLen ∨ s.cnt.toNat < frameLen s) :
    extractStep s = (.noFrame, s) := by
  unfold extractStep
  split
  · rfl
  · rw [if_pos (h.resolve_left ‹_›)]

/-- A complete frame is longer than FRAME_MAX (R194). -/
theorem extractStep_long (h : frameLen s ≤ s.cnt.toNat) (h2 : Config.frameMax < frameLen s) :
    extractStep s = (.tooLong, s) := by
  have := hdrLen_le_frameLen s
  unfold extractStep
  rw [if_neg (by omega), if_neg (by omega), if_pos h2]

/-- A complete frame leaves the buffer (R192, R195). -/
theorem extractStep_frame (h : frameLen s ≤ s.cnt.toNat) (h2 : frameLen s ≤ Config.frameMax) :
    extractStep s = (.frame (headBytes (frameLen s) s) (Config.decodeFrame (headBytes (frameLen s) s)),
      storeFrame (headBytes (frameLen s) s) (dropHead (frameLen s) s)) := by
  have := hdrLen_le_frameLen s
  unfold extractStep
  rw [if_neg (by omega), if_neg (by omega), if_neg (by omega)]

/-- The three cases, one of which holds. -/
theorem extractStep_cases (s : State) :
    extractStep s = (.noFrame, s) ∨ extractStep s = (.tooLong, s) ∨
      ∃ n v, n ≤ s.cnt.toNat ∧ n ≤ Config.frameMax ∧
        extractStep s = (.frame (headBytes n s) v, storeFrame (headBytes n s) (dropHead n s)) := by
  by_cases h : s.cnt.toNat < frameLen s
  · exact .inl (extractStep_none (.inr h))
  · by_cases h2 : Config.frameMax < frameLen s
    · exact .inr (.inl (extractStep_long (by omega) h2))
    · exact .inr (.inr ⟨_, _, by omega, by omega, extractStep_frame (by omega) (by omega)⟩)

/-- ExtractStep() looks at the ring buffer alone: what a completed command before it wrote does not matter. -/
theorem extractStep_complete (o : Output) (s : State) :
    extractStep s = (.noFrame, s) ∧ extractStep (complete o s) = (.noFrame, complete o s) ∨
    extractStep s = (.tooLong, s) ∧ extractStep (complete o s) = (.tooLong, complete o s) ∨
    ∃ n v, n ≤ s.cnt.toNat ∧ n ≤ Config.frameMax ∧
      extractStep s = (.frame (headBytes n s) v, storeFrame (headBytes n s) (dropHead n s)) ∧
      extractStep (complete o s) =
        (.frame (headBytes n s) v, storeFrame (headBytes n s) (dropHead n (complete o s))) := by
  have hc : (complete o s).cnt = s.cnt := rfl
  have hl : frameLen (complete o s) = frameLen s := rfl
  have hb : headBytes (frameLen s) (complete o s) = headBytes (frameLen s) s := rfl
  by_cases h : s.cnt.toNat < frameLen s
  · exact .inl ⟨extractStep_none (.inr h), extractStep_none (.inr (by rwa [hc, hl]))⟩
  · by_cases h2 : Config.frameMax < frameLen s
    · exact .inr (.inl ⟨extractStep_long (by omega) h2, extractStep_long (by rw [hc, hl]; omega) (by rwa [hl])⟩)
    · refine .inr (.inr ⟨frameLen s, Config.decodeFrame (headBytes (frameLen s) s), by omega, by omega,
        extractStep_frame (by omega) (by omega), ?_⟩)
      rw [extractStep_frame (by rw [hc, hl]; omega) (by rw [hl]; omega), hl, hb]

end Sys2Proof.Machine
end

