-- ==== Sys2Proof/Laws/Commands.lean ====
section
/-! SUPPORT. What any command can do, said once: how it ends, and which fields it leaves alone. -/

namespace Sys2Proof.Machine

variable {s : State}

/-- Is this a host command, not a wire header? -/
def IsCommand (i : Instr) : Prop := i ≠ .hsWreq ∧ i ≠ .hsRreq ∧ ∀ a b, i ≠ .hsReady a b

/-- `m` is `s` but for the fields that a command's work may write before the command ends. -/
structure Worked (s m : State) : Prop where
  frame : m = { s with
    wp := m.wp, rp := m.rp, cnt := m.cnt, rb := m.rb, hsbuf := m.hsbuf, fbuf := m.fbuf, flen := m.flen
    csN := m.csN, rRem := m.rRem, winK := m.winK, trace := m.trace, env := m.env, fresh := m.fresh }
  grows : ∃ ev, m.trace = s.trace ++ ev

theorem Worked.refl (s : State) : Worked s s := ⟨rfl, [], by simp⟩

theorem Worked.trans {m u : State} (h : Worked s m) (h' : Worked m u) : Worked s u := by
  obtain ⟨ev, h3⟩ := h.grows
  obtain ⟨ev', h4⟩ := h'.grows
  refine ⟨?_, ev ++ ev', by rw [h4, h3, List.append_assoc]⟩
  have h1 := h.frame
  have h2 := h'.frame
  rw [h2, h1]

theorem Worked.cfg {m : State} (h : Worked s m) : m.cfg = s.cfg := by rw [h.frame]
theorem Worked.lastRes {m : State} (h : Worked s m) : m.lastRes = s.lastRes := by rw [h.frame]
theorem Worked.fault {m : State} (h : Worked s m) : m.fault = s.fault := by rw [h.frame]
theorem Worked.faultCause {m : State} (h : Worked s m) : m.faultCause = s.faultCause := by rw [h.frame]
theorem Worked.seq {m : State} (h : Worked s m) : m.seq = s.seq := by rw [h.frame]
theorem Worked.port {m : State} (h : Worked s m) : m.port = s.port := by rw [h.frame]

/-- Which fault a command may raise once it is decoded (R232). -/
def Raises : Instr → Cause → Prop
  | .read, c => c = .frameTooLong
  | .extract, c => c = .frameTooLong
  | .rbFill _ _, c => c = .operandMismatch ∨ c = .rbFillOverrun
  | .rbPeek _, c => c = .rbPeekRange
  | .rbTake _, c => c = .rbTakeRange
  | .rdreg _, c => c = .illegalCmd
  | _, _ => False

/-- How a command ends when the block is ready for it. -/
inductive Ending (i : Instr) (s : State) : State → Prop where
  /-- RDREG gives a value and changes nothing. -/
  | reads (reg v : Half) (hi : i = .rdreg reg) : Ending i s { s with out := some { res := .ok, value := v } }
  /-- Any other command completes after its work. -/
  | completes (m : State) (o : Output) (hi : ∀ reg, i ≠ .rdreg reg) (hm : Worked s m) : Ending i s (complete o m)
  /-- A fault; only READ may have done work before it. -/
  | faults (m : State) (c : Cause) (hc : Raises i c) (hi : i = .read ∨ m = s) (hm : Worked s m) :
    Ending i s (raise c m)

theorem Raises.ne {i : Instr} {c : Cause} (h : Raises i c) : c ≠ .none ∧ c ≠ .reentry := by
  cases i <;> simp only [Raises] at h <;> first | (subst h; simp) | (rcases h with rfl | rfl <;> simp)

theorem extractStep_worked (s : State) : Worked s (extractStep s).2 := by
  rcases extractStep_cases s with h | h | ⟨n, v, -, -, h⟩ <;> rw [h]
  · exact .refl s
  · exact .refl s
  · exact ⟨by simp [storeFrame, dropHead], [], by simp⟩

theorem pullBody_worked (s : State) : Worked s (pullBody s).2 :=
  ⟨by obtain ⟨ev, h⟩ := pullBody_frame s; rw [h], pullBody_grows s⟩

theorem writeBody_worked (hdrs pays : List Byte) (s : State) : Worked s (writeBody hdrs pays s).2 := by
  obtain ⟨r, t, ev, h, -, -, hf⟩ := writeBody_spec hdrs pays s
  rw [h]
  exact ⟨by rw [hf], ev, by rw [hf]⟩

theorem setCS_worked (b : Bool) (s : State) : Worked s (setCS b s) := ⟨rfl, _, rfl⟩

/-- The end of an extraction, in EXTRACT and in READ: a frame, no frame, or FRAME_TOO_LONG with nothing taken. -/
theorem extraction_ending {i : Instr} {m : State} (hw : Worked s m) (hi : i = .read ∨ i = .extract ∧ m = s)
    (none' : Output) (frame' : List Byte → Verdict → Output) :
    Ending i s (match extractStep m with
      | (.noFrame, s1) => complete none' s1
      | (.tooLong, s1) => raise .frameTooLong s1
      | (.frame f v, s1) => complete (frame' f v) s1) := by
  have hr : ∀ reg, i ≠ .rdreg reg := by rcases hi with rfl | ⟨rfl, -⟩ <;> simp
  have hx := extractStep_worked m
  rcases extractStep_cases m with h | h | ⟨n, v, -, -, h⟩ <;> rw [h] at hx ⊢
  · exact .completes m _ hr hw
  · refine .faults m _ ?_ (hi.imp_right (·.2)) hw
    rcases hi with rfl | ⟨rfl, -⟩ <;> rfl
  · exact .completes _ _ hr (hw.trans hx)

/-- Every command, presented when the block is ready for it, ends (R46, R274). -/
theorem exec_ending {i : Instr} (hr : Ready s) (hi : IsCommand i) : ∃ t, exec i s = .next t ∧ Ending i s t := by
  have hf := hr.2
  cases i with
  | write hdrs pays =>
    refine ⟨runWrite hdrs pays s, enter_ready hr _, .completes _ _ (by simp) ?_⟩
    exact ((setCS_worked false s).trans (writeBody_worked hdrs pays _)).trans (setCS_worked true _)
  | read => exact ⟨runRead s, enter_ready hr _, extraction_ending (pullBody_worked s) (.inl rfl) _ _⟩
  | pull => exact ⟨runPull s, enter_ready hr _, .completes _ _ (by simp) (pullBody_worked s)⟩
  | extract => exact ⟨runExtract s, enter_ready hr _, extraction_ending (.refl s) (.inr ⟨rfl, rfl⟩) _ _⟩
  | rdreg reg =>
    refine ⟨runRdreg reg s, by simp [exec, execRdreg, hr.1], ?_⟩
    unfold runRdreg
    cases readReg reg s with
    | some v => exact .reads reg v rfl
    | none => simp only [hf, Bool.false_eq_true, if_false]; exact .faults s .illegalCmd rfl (.inr rfl) (.refl s)
  | rbContig => exact ⟨_, enter_ready hr _, .completes s _ (by simp) (.refl s)⟩
  | rbFill n fills =>
    refine ⟨runRbFill n fills s, enter_ready hr _, ?_⟩
    unfold runRbFill
    split
    · exact .faults s _ (.inl rfl) (.inr rfl) (.refl s)
    · split
      · exact .faults s _ (.inr rfl) (.inr rfl) (.refl s)
      · exact .completes _ _ (by simp) ⟨by simp [rbFill], [], by simp⟩
  | rbAvail => exact ⟨_, enter_ready hr _, .completes s _ (by simp) (.refl s)⟩
  | rbPeek offset =>
    refine ⟨runRbPeek offset s, enter_ready hr _, ?_⟩
    unfold runRbPeek
    split
    · exact .faults s _ rfl (.inr rfl) (.refl s)
    · exact .completes s _ (by simp) (.refl s)
  | rbTake n =>
    refine ⟨runRbTake n s, enter_ready hr _, ?_⟩
    unfold runRbTake
    split
    · exact .faults s _ rfl (.inr rfl) (.refl s)
    · exact .completes _ _ (by simp) ⟨by simp [dropHead], [], by simp⟩
  | hsWreq => exact absurd rfl hi.1
  | hsRreq => exact absurd rfl hi.2.1
  | hsReady a b => exact absurd rfl (hi.2.2 a b)

/-- Every command, presented while the fault state holds: refused, but for RDREG (R234). -/
theorem exec_faulted {i : Instr} (hs : s.seq = .idle) (hf : s.fault = true) (hi : IsCommand i) :
    ((∀ reg, i ≠ .rdreg reg) → exec i s = .next (refuse s)) ∧
      ∀ reg, i = .rdreg reg → ∃ v, exec i s = .next { s with out := some { res := .ok, value := v } } := by
  refine ⟨fun hr => ?_, ?_⟩
  · cases i with
    | rdreg reg => exact absurd rfl (hr reg)
    | hsWreq => exact absurd rfl hi.1
    | hsRreq => exact absurd rfl hi.2.1
    | hsReady a b => exact absurd rfl (hi.2.2 a b)
    | _ => exact enter_faulted hs hf _
  · rintro reg rfl
    simp only [exec, execRdreg, hs, ne_eq, not_true_eq_false, if_false, runRdreg, hf]
    cases readReg reg s <;> simp

end Sys2Proof.Machine
end

