-- ==== Sys2Proof/Laws/PerInstr.lean ====
section
/-! SUPPORT. Statements made of each instruction as syntax, one lemma per constructor. -/

namespace Sys2Proof.Laws

/-- EncodeFormat: a host command is carried by a word with RSV = 0 (R80, R85), a wire header by five bytes of which the
first is a marker of R13 (R12, R89). -/
def EncodeFormat.Statement (i : Instr) : Prop :=
  match encode i with
  | .command w _ => rsvField w = 0#12
  | .header bytes => bytes.length = Config.hsLen ∧ bytes.head? ∈ [some writeMarker, some readMarker, some readyMarker]

theorem EncodeFormat.write (hdrs pays : List Byte) : EncodeFormat.Statement (.write hdrs pays) :=
  rsvField_commandWord _ _

theorem EncodeFormat.read : EncodeFormat.Statement .read := rsvField_commandWord _ _

theorem EncodeFormat.pull : EncodeFormat.Statement .pull := rsvField_commandWord _ _

theorem EncodeFormat.extract : EncodeFormat.Statement .extract := rsvField_commandWord _ _

theorem EncodeFormat.rdreg (reg : Half) : EncodeFormat.Statement (.rdreg reg) := rsvField_commandWord _ _

theorem EncodeFormat.rbContig : EncodeFormat.Statement .rbContig := rsvField_commandWord _ _

theorem EncodeFormat.rbFill (n : Half) (fills : List Byte) : EncodeFormat.Statement (.rbFill n fills) :=
  rsvField_commandWord _ _

theorem EncodeFormat.rbAvail : EncodeFormat.Statement .rbAvail := rsvField_commandWord _ _

theorem EncodeFormat.rbPeek (offset : Half) : EncodeFormat.Statement (.rbPeek offset) := rsvField_commandWord _ _

theorem EncodeFormat.rbTake (n : Half) : EncodeFormat.Statement (.rbTake n) := rsvField_commandWord _ _

theorem EncodeFormat.hsWreq : EncodeFormat.Statement .hsWreq := ⟨rfl, by simp [requestHeader]⟩

theorem EncodeFormat.hsRreq : EncodeFormat.Statement .hsRreq := ⟨rfl, by simp [requestHeader]⟩

theorem EncodeFormat.hsReady (wcap rcap : Half) : EncodeFormat.Statement (.hsReady wcap rcap) :=
  ⟨rfl, by simp⟩

end Sys2Proof.Laws
end

