-- ==== Sys2Proof/Laws/Step.lean ====
section
/-! SUPPORT. What one step can do: the wire headers, the labelled steps, and a step as a whole. -/

namespace Sys2Proof.Machine

variable {s : State}

/-- What every step but a reset keeps: the configuration, the events so far and a fault once recorded; `n` bounds the
events it adds. -/
structure Stepped (n : Nat) (s t : State) : Prop where
  cfg : t.cfg = s.cfg
  grows : ∃ ev, t.trace = s.trace ++ ev ∧ ev.length ≤ n
  fault : s.fault = true → t.fault = true ∧ t.faultCause = s.faultCause

theorem Worked.stepped {m : State} (h : Worked s m) : ∃ n, Stepped n s m := by
  obtain ⟨ev, he⟩ := h.grows
  exact ⟨_, h.cfg, ⟨ev, he, Nat.le_refl _⟩, fun hf => ⟨h.fault.trans hf, h.faultCause⟩⟩

/-- Steps that add no event and leave FAULT alone. -/
theorem stepped_quiet {t : State} (n : Nat) (h1 : t.cfg = s.cfg) (h2 : t.trace = s.trace)
    (h3 : s.fault = true → t.fault = true ∧ t.faultCause = s.faultCause) : Stepped n s t :=
  ⟨h1, ⟨[], by simp [h2], by simp⟩, h3⟩

/-- Steps that add one event and leave FAULT alone. -/
theorem stepped_event {t : State} {e : BusEvent} (h1 : t.cfg = s.cfg) (h2 : t.trace = s.trace ++ [e])
    (h3 : t.fault = s.fault) (h4 : t.faultCause = s.faultCause) : Stepped 1 s t :=
  ⟨h1, ⟨[e], h2, by simp⟩, fun h => ⟨h3.trans h, h4⟩⟩

theorem raise_stepped (c : Cause) (s : State) : Stepped 0 s (raise c s) := by
  refine stepped_quiet 0 ?_ ?_ ?_
  · unfold raise; cases s.fault <;> simp <;> split <;> rfl
  · unfold raise; cases s.fault <;> simp <;> split <;> rfl
  · intro h; unfold raise; simp only [h, if_true]; split <;> exact ⟨rfl, rfl⟩

theorem Stepped.mono {n m : Nat} {t : State} (h : Stepped n s t) (hl : n ≤ m) : Stepped m s t := by
  obtain ⟨ev, he, hn⟩ := h.grows
  exact ⟨h.cfg, ⟨ev, he, by omega⟩, h.fault⟩

theorem Stepped.trans {n m : Nat} {t u : State} (h : Stepped n s t) (h' : Stepped m t u) : Stepped (n + m) s u := by
  obtain ⟨ev, he, hn⟩ := h.grows
  obtain ⟨ev', he', hn'⟩ := h'.grows
  refine ⟨h'.cfg.trans h.cfg, ⟨ev ++ ev', by rw [he', he, List.append_assoc], by simp; omega⟩, fun hf => ?_⟩
  obtain ⟨h1, h2⟩ := h.fault hf
  obtain ⟨h3, h4⟩ := h'.fault h1
  exact ⟨h3, h4.trans h2⟩

/-- The handshake's transfer changes HSBUF, the trace and what it draws from (R141). -/
theorem handshakeXfer_frame (d : Dir) (s : State) : (handshakeXfer d s).2 = { s with
    hsbuf := (handshakeXfer d s).2.hsbuf, env := (handshakeXfer d s).2.env, fresh := (handshakeXfer d s).2.fresh
    trace := s.trace ++ [.xfer (request d) (answerOf 5 (nextDraw s).1).outcome] } := by
  cases h : (nextDraw s).1.commFault
  · rw [handshakeXfer_ok d h]; rfl
  · rw [handshakeXfer_fault d h]; rfl

/-- A request header at its place: both ways it can end (R141). -/
theorem sendHeader_spec (d : Dir) {here reply exit : Seq} (hs : s.seq = here) (hc : s.csN = false) :
    ∃ m : State, ∃ ok : Bool, handshakeXfer d s = (ok, m) ∧
      sendHeader d here reply exit s = .next (if ok then { m with seq := reply } else leave .errComm exit m) := by
  unfold sendHeader
  rw [if_pos ⟨hs, hc⟩]
  rcases handshakeXfer d s with ⟨ok, m⟩
  cases ok <;> exact ⟨m, _, rfl, rfl⟩

theorem sendHeader_stepped {d : Dir} {here reply exit : Seq} {t : State}
    (h : sendHeader d here reply exit s = .next t) : Stepped 1 s t := by
  unfold sendHeader at h
  split at h
  · have hf := handshakeXfer_frame d s
    rcases hx : handshakeXfer d s with ⟨ok, m⟩
    rw [hx] at hf h
    dsimp only at hf
    cases ok <;> cases h <;> rw [hf] <;> exact stepped_event rfl rfl rfl rfl
  · cases h

theorem writeString_spec (bs : List Byte) (onOk : State → State) (s : State) :
    ∃ m : State, ∃ out : WroOutcome, m = emit (.wro bs out) (nextDraw s).2 ∧
      writeString bs onOk s = (match out with | .ok => onOk m | .commFault => leave .errComm .w9 m) := by
  unfold writeString busWrite
  dsimp only
  cases wroOf (nextDraw s).1
  · exact ⟨_, .ok, rfl, rfl⟩
  · exact ⟨_, .commFault, rfl, rfl⟩

theorem endPull_stepped (r : Res) (s : State) : Stepped 0 s (endPull r s) := by
  unfold endPull
  split <;> exact stepped_quiet 0 rfl rfl fun h => ⟨h, rfl⟩

theorem extraction_stepped (s : State) (none' : Output) (frame' : List Byte → Verdict → Output) :
    Stepped 0 s (match extractStep s with
      | (.noFrame, s1) => complete none' s1
      | (.tooLong, s1) => raise .frameTooLong s1
      | (.frame f v, s1) => complete (frame' f v) s1) := by
  rcases extractStep_cases s with h | h | ⟨n, v, -, -, h⟩ <;> rw [h]
  · exact stepped_quiet 0 rfl rfl fun h => ⟨h, rfl⟩
  · exact raise_stepped _ _
  · exact stepped_quiet 0 rfl rfl fun h => ⟨h, rfl⟩

/-- One labelled step adds at most one event (R35). -/
theorem labelStep_stepped (s : State) : Stepped 1 s (labelStep s) := by
  unfold labelStep
  cases s.seq <;> dsimp only
  case idle => exact stepped_quiet 1 rfl rfl fun h => ⟨h, rfl⟩
  case w1 => exact stepped_event rfl rfl rfl rfl
  case w2 => exact stepped_quiet 1 rfl rfl fun h => ⟨h, rfl⟩
  case w2reply => exact stepped_quiet 1 rfl rfl fun h => ⟨h, rfl⟩
  case w3 =>
    obtain ⟨m, out, rfl, h⟩ := writeString_spec (curHdrs s) (fun s1 => { s1 with seq := .w4 }) s
    rw [h]
    cases out <;> exact stepped_event rfl rfl rfl rfl
  case w4 =>
    obtain ⟨m, out, rfl, h⟩ := writeString_spec (curPays s) (leave .ok .w9) s
    rw [h]
    cases out <;> exact stepped_event rfl rfl rfl rfl
  case w9 => exact stepped_event rfl rfl rfl rfl
  case p1 =>
    unfold stepP1 sampleRdy
    dsimp only
    cases asserted s.cfg (nextDraw s).1.level
    · exact (stepped_event (s := s) (t := emit (.rdys false) (nextDraw s).2) rfl rfl rfl rfl).trans (endPull_stepped _ _)
    · exact stepped_event (e := .rdys true) rfl rfl rfl rfl
  case p2 => exact stepped_event rfl rfl rfl rfl
  case p3 => exact stepped_quiet 1 rfl rfl fun h => ⟨h, rfl⟩
  case p3reply => exact stepped_quiet 1 rfl rfl fun h => ⟨h, rfl⟩
  case p4 => unfold stepP4; split <;> exact stepped_quiet 1 rfl rfl fun h => ⟨h, rfl⟩
  case p5 =>
    unfold stepP5
    obtain ⟨e, hf⟩ := moveWindow_frame s
    rcases hx : moveWindow s with ⟨ok, m⟩
    rw [hx] at hf
    dsimp only at hf
    cases ok <;> dsimp only <;> rw [hf] <;> exact stepped_event rfl rfl rfl rfl
  case p9 => exact (stepped_event (s := s) (t := setCS true s) rfl rfl rfl rfl).trans (endPull_stepped _ _)
  case x1 => exact (extraction_stepped s _ _).mono (by omega)
  case r1 => exact stepped_quiet 1 rfl rfl fun h => ⟨h, rfl⟩
  case r2 => exact (extraction_stepped s _ _).mono (by omega)

/-- A command's whole execution, in any state. -/
theorem exec_stepped {i : Instr} (hi : IsCommand i) (s : State) : ∃ n t, exec i s = .next t ∧ Stepped n s t := by
  by_cases hs : s.seq = .idle
  · cases hf : s.fault
    · obtain ⟨t, h, he⟩ := exec_ending ⟨hs, hf⟩ hi
      cases he with
      | reads reg v _ => exact ⟨0, _, h, stepped_quiet 0 rfl rfl fun h => ⟨h, rfl⟩⟩
      | completes m o _ hm =>
        obtain ⟨n, hn⟩ := hm.stepped
        exact ⟨_, _, h, hn.trans (stepped_quiet 0 rfl rfl fun h => ⟨h, rfl⟩)⟩
      | faults m c _ _ hm =>
        obtain ⟨n, hn⟩ := hm.stepped
        exact ⟨_, _, h, hn.trans (raise_stepped c m)⟩
    · obtain ⟨h1, h2⟩ := exec_faulted hs hf hi
      by_cases hr : ∀ reg, i ≠ .rdreg reg
      · exact ⟨0, _, h1 hr, stepped_quiet 0 rfl rfl fun h => ⟨h, rfl⟩⟩
      · simp only [ne_eq, not_forall, not_not] at hr
        obtain ⟨reg, hr⟩ := hr
        obtain ⟨v, h⟩ := h2 reg hr
        exact ⟨0, _, h, stepped_quiet 0 rfl rfl fun h => ⟨h, rfl⟩⟩
  · exact ⟨0, _, exec_busy hs hi, raise_stepped _ _⟩

theorem enter_stepped (b : State → State) (hb : Stepped 0 s (b s)) : ∃ t, enter b s = .next t ∧ Stepped 0 s t := by
  rcases enter_next b s with h | h | h
  · exact ⟨_, h, raise_stepped _ _⟩
  · exact ⟨_, h, stepped_quiet 0 rfl rfl fun h => ⟨h, rfl⟩⟩
  · exact ⟨_, h, hb⟩

/-- With nothing presented a step is a wire header's or a label's. -/
theorem label_step_stepped {s t : State} (h : (match fetchLabel s with
    | .run i => exec i s
    | _ => .next (labelStep s)) = .next t) : Stepped 1 s t := by
  unfold fetchLabel wireHeader at h
  cases hs : s.seq <;> rw [hs] at h <;> dsimp only at h
  case w2 => exact sendHeader_stepped h
  case p3 => exact sendHeader_stepped h
  case w2reply =>
    cases hr : replyOf s.hsbuf <;> rw [hr] at h <;> dsimp only at h
    case ready w r =>
      simp only [exec, execHsReady, hs] at h
      split at h
      · cases h
        unfold acceptWcap
        split <;> exact stepped_quiet 1 rfl rfl fun h => ⟨h, rfl⟩
      · simp at h
    all_goals cases h; exact labelStep_stepped s
  case p3reply =>
    cases hr : replyOf s.hsbuf <;> rw [hr] at h <;> dsimp only at h
    case ready w r =>
      simp only [exec, execHsReady, hs] at h
      rw [if_neg (by simp)] at h
      split at h
      · cases h; exact stepped_quiet 1 rfl rfl fun h => ⟨h, rfl⟩
      · cases h
    all_goals cases h; exact labelStep_stepped s
  all_goals cases h; exact labelStep_stepped s

/-- What goes on when nothing is presented. -/
theorem step_nothing {m : State} (h : Unpresented s m) :
    step s = (match wireHeader m with | some i => exec i m | none => .next (labelStep m)) := by
  rcases h with ⟨hp, rfl⟩ | ⟨rest, hp, rfl⟩
  · simp only [step, fetch, hp, fetchLabel]
    cases wireHeader m <;> rfl
  · have hw : wireHeader (taken s rest) = wireHeader s := rfl
    rw [hw]
    simp only [step, fetch, hp, fetchLabel]
    cases wireHeader s <;> rfl

/-- A presented word without a meaning. -/
theorem step_illegal {w : Word} {st : Strings} {rest : List HostInput} {e : DecodeError}
    (hp : s.port = .call w st :: rest ∨ s.port = .present w st :: rest) (hd : decode (.command w st) = .error e) :
    step s = illegalCommand (taken s rest) := by
  rcases hp with hp | hp <;> simp [step, fetch, hp, fetchCommand, hd, taken]

/-- A presented command: one the host waits for, or one without labels, runs; any other starts. -/
theorem step_command {w : Word} {st : Strings} {rest : List HostInput} {i : Instr}
    (hp : s.port = .call w st :: rest ∨ s.port = .present w st :: rest) (hd : decode (.command w st) = .ok i) :
    step s = exec i (taken s rest) ∨
      ∃ label, firstLabel i = some label ∧ step s = enter (startAt label i) (taken s rest) := by
  rcases hp with hp | hp
  · simp [step, fetch, hp, fetchCommand, hd, taken]
  · cases hl : firstLabel i <;> simp [step, fetch, hp, fetchCommand, hd, hl, taken]

/-- A step, said once: a reset; a wire header or a label; or a presented word, which runs, starts or has no meaning. -/
theorem step_cases {t : State} (h : step s = .next t) :
    (∃ rest, s.port = .rst :: rest ∧ t = resetBlock (taken s rest)) ∨
    (∃ m, Unpresented s m ∧
      ((∃ i, wireHeader m = some i ∧ exec i m = .next t) ∨ wireHeader m = none ∧ t = labelStep m)) ∨
    (∃ w st rest, (s.port = .call w st :: rest ∨ s.port = .present w st :: rest) ∧
      ((∃ e, decode (.command w st) = .error e ∧ illegalCommand (taken s rest) = .next t) ∨
        ∃ i, decode (.command w st) = .ok i ∧
          (exec i (taken s rest) = .next t ∨
            ∃ label, firstLabel i = some label ∧ enter (startAt label i) (taken s rest) = .next t))) := by
  have quiet : ∀ m, Unpresented s m →
      (∃ i, wireHeader m = some i ∧ exec i m = .next t) ∨ wireHeader m = none ∧ t = labelStep m := by
    intro m hm
    rw [step_nothing hm] at h
    cases hw : wireHeader m <;> rw [hw] at h
    · cases h; exact .inr ⟨rfl, rfl⟩
    · exact .inl ⟨_, rfl, h⟩
  have word : ∀ w st rest, (s.port = .call w st :: rest ∨ s.port = .present w st :: rest) →
      (∃ e, decode (.command w st) = .error e ∧ illegalCommand (taken s rest) = .next t) ∨
        ∃ i, decode (.command w st) = .ok i ∧
          (exec i (taken s rest) = .next t ∨
            ∃ label, firstLabel i = some label ∧ enter (startAt label i) (taken s rest) = .next t) := by
    intro w st rest hp
    cases hd : decode (.command w st) with
    | error e => exact .inl ⟨e, rfl, (step_illegal hp hd).symm.trans h⟩
    | ok i =>
      refine .inr ⟨i, rfl, ?_⟩
      rcases step_command hp hd with e | ⟨label, hl, e⟩
      · exact .inl (e.symm.trans h)
      · exact .inr ⟨label, hl, e.symm.trans h⟩
  cases hp : s.port with
  | nil => exact .inr (.inl ⟨s, .inl ⟨hp, rfl⟩, quiet s (.inl ⟨hp, rfl⟩)⟩)
  | cons a rest =>
    cases a with
    | rst => simp only [step, fetch, hp] at h; cases h; exact .inl ⟨rest, rfl, rfl⟩
    | quiet => exact .inr (.inl ⟨_, .inr ⟨rest, hp, rfl⟩, quiet _ (.inr ⟨rest, hp, rfl⟩)⟩)
    | call w st => exact .inr (.inr ⟨w, st, rest, .inl rfl, word w st rest (.inl hp)⟩)
    | present w st => exact .inr (.inr ⟨w, st, rest, .inr rfl, word w st rest (.inr hp)⟩)

end Sys2Proof.Machine
end

