-- ==== Sys2Proof/Tests/Slice0.lean ====
section
/-! SUPPORT. Tests: expected values from spec/95_test_vectors.md (their row is named) or from the rule named, never from the
model. Then one witness for each obligation that has hypotheses: states and operands that meet them all. -/

namespace Sys2Proof.Tests

open Sys2Proof.Machine

/-! ### Helpers -/

/-- A block of capacity n after reset, with cursors and listed RB bytes. -/
def ringAt (n wp rp cnt : Half) (cells : List Host.Cell) : State :=
  { State.construct { cap := n, hdrLen := 4, rdyActiveHigh := true } with
    wp := wp, rp := rp, cnt := cnt, rb := { cells := cells, tag := 0 } }

/-- A state with a script of the environment's answers. -/
def withEnv (ds : List Draw) (s : State) : State := { s with env := ds }

/-- A state with inputs at the host port. -/
def withPort (p : List HostInput) (s : State) : State := { s with port := p }

/-- The readiness line asserted or not (active high). -/
def rdy (b : Bool) : Draw := { level := b, commFault := false, rx := [] }

/-- A transfer that succeeds. -/
def okX (bs : List Byte) : Draw := { level := false, commFault := false, rx := bs }

/-- A transfer that faults after `p`. -/
def cf (p : List Byte) : Draw := { level := false, commFault := true, rx := p }

def hw : List Byte := [0x0A#8, 0#8, 0#8, 0#8, 0#8]
def hr : List Byte := [0x0B#8, 0#8, 0#8, 0#8, 0#8]

/-- What a test looks at in an outcome. -/
def look {α : Type} (f : State → α) (r : Host.Outcome State Fault Refusal) : Option α :=
  match r with
  | .next t => some (f t)
  | _ => none

def cursors (t : State) : Nat × Nat × Nat := (t.wp.toNat, t.rp.toNat, t.cnt.toNat)

def result (t : State) : Option (Res × List Byte) := t.out.map (fun o => (o.res, o.data))

def value (t : State) : Option Half := t.out.map (fun o => o.value)

def isFaultStop (r : Host.Outcome State Fault Refusal) : Bool :=
  match r with
  | .fault .headerOutOfTurn => true
  | _ => false

/-! ### Well-formedness: each check refuses an ill-formed term (R83) -/

theorem test_wellFormed_refuses_long_hdrs (bs : List Byte) (h : bs.length = 65536) :
    (Instr.write bs []).wellFormed = false := by simp [Instr.wellFormed, h]

theorem test_wellFormed_refuses_long_pays (bs : List Byte) (h : bs.length = 65536) :
    (Instr.write [] bs).wellFormed = false := by simp [Instr.wellFormed, h]

theorem test_wellFormed_takes_longest (bs : List Byte) (h : bs.length = 65535) :
    (Instr.write bs bs).wellFormed = true := by simp [Instr.wellFormed, h]

/-- Strings of both lengths exist. -/
theorem test_wellFormed_strings_exist : (∃ bs : List Byte, bs.length = 65536) ∧ ∃ bs : List Byte, bs.length = 65535 :=
  ⟨⟨_, List.length_replicate (n := 65536) (a := 0#8)⟩, _, List.length_replicate (n := 65535) (a := 0#8)⟩

theorem test_wellFormed_refuses_fill_mismatch : (Instr.rbFill 2#16 [0xAA#8]).wellFormed = false := by decide

/-! ### Decoding: words written out from R80, R82, R89, R94 and 95 E1 to E9 -/

theorem test_decode_write : decode (.command 0b0000000000000000_000000000000_0001#32 ⟨[1#8], [2#8], []⟩) =
    .ok (.write [1#8] [2#8]) := by decide
theorem test_decode_read : decode (.command 0b0000000000000000_000000000000_0010#32 Strings.none) = .ok .read := by decide
theorem test_decode_pull : decode (.command 0b0000000000000000_000000000000_0011#32 Strings.none) = .ok .pull := by decide
theorem test_decode_extract : decode (.command 0b0000000000000000_000000000000_0100#32 Strings.none) = .ok .extract := by
  decide
theorem test_decode_rdreg : decode (.command 0b0000000000000100_000000000000_0111#32 Strings.none) = .ok (.rdreg 4#16) := by
  decide
theorem test_decode_contig : decode (.command 0b0000000000000000_000000000000_1000#32 Strings.none) = .ok .rbContig := by
  decide
theorem test_decode_fill : decode (.command 0b0000000000000010_000000000000_1001#32 ⟨[], [], [0xAA#8, 0xBB#8]⟩) =
    .ok (.rbFill 2#16 [0xAA#8, 0xBB#8]) := by decide
theorem test_decode_avail : decode (.command 0b0000000000000000_000000000000_1010#32 Strings.none) = .ok .rbAvail := by
  decide
theorem test_decode_peek : decode (.command 0b0000000000000011_000000000000_1011#32 Strings.none) = .ok (.rbPeek 3#16) := by
  decide
theorem test_decode_take : decode (.command 0b1111111111111111_000000000000_1100#32 Strings.none) =
    .ok (.rbTake 65535#16) := by decide
theorem test_decode_wreq : decode (.header [0b00001010#8, 0#8, 0#8, 0#8, 0#8]) = .ok .hsWreq := by decide
theorem test_decode_rreq : decode (.header [0b00001011#8, 0#8, 0#8, 0#8, 0#8]) = .ok .hsRreq := by decide
/-- 95 HS1. -/
theorem test_decode_ready : decode (.header [0b00000010#8, 0x34#8, 0x12#8, 0x78#8, 0x56#8]) =
    .ok (.hsReady 4660#16 22136#16) := by decide

/-- 95 E1, E2. -/
theorem test_decode_reserved_op :
    decode (.command 0x00000000#32 Strings.none) = .error .reservedOp ∧
    decode (.command 0x00000005#32 Strings.none) = .error .reservedOp ∧
    decode (.command 0x00000006#32 Strings.none) = .error .reservedOp ∧
    decode (.command 0x0000000D#32 Strings.none) = .error .reservedOp ∧
    decode (.command 0x0000000E#32 Strings.none) = .error .reservedOp ∧
    decode (.command 0x0000000F#32 Strings.none) = .error .reservedOp := by decide
/-- 95 E3, E6: the reserved field comes first. -/
theorem test_decode_reserved_field :
    decode (.command 0x00000012#32 Strings.none) = .error .reservedField ∧
    decode (.command 0x00030019#32 ⟨[], [], [1#8, 2#8]⟩) = .error .reservedField := by decide
/-- 95 E4. -/
theorem test_decode_unused_arg : decode (.command 0x00010002#32 Strings.none) = .error .unusedArg := by decide
/-- 95 HS2 and R12: no marker, no five bytes. -/
theorem test_decode_no_header :
    decode (.header [0xFF#8, 2#8, 2#8, 2#8, 2#8]) = .error .noMarker ∧
    decode (.header [0x02#8, 0#8, 0#8, 0#8]) = .error .headerLength := by decide

/-- R94: the words of the encoder. -/
theorem test_encode_words :
    encode (.rbFill 6#16 [1#8, 2#8, 3#8, 4#8, 5#8, 6#8]) =
      .command 0x00060009#32 ⟨[], [], [1#8, 2#8, 3#8, 4#8, 5#8, 6#8]⟩ ∧
    encode (.rdreg 4#16) = .command 0x00040007#32 Strings.none ∧
    encode (.hsReady 10#16 0#16) = .header [0x02#8, 0x0A#8, 0#8, 0#8, 0#8] := by decide

/-- The table's rows decode, and step runs them after reset: a command row and a header row. -/
theorem test_table_words :
    decodeTableWord 32 0x00000003 = some .pull ∧ decodeTableWord 8 0x0B = some .hsRreq ∧
    decodeTableWord 8 0x02 = some (.hsReady 0#16 0#16) ∧ decodeTableWord 32 0x00000005 = none := by decide

theorem test_withFetchWord_runs :
    look value (step (State.reset.withFetchWord 32 0x00040007)) = some (some 0x0080#16) ∧
    look (fun t => t.seq) (step (State.reset.withFetchWord 8 0x02)) = some .w3 := by decide

/-! ### One command each, from the vectors -/

/-- 95 S1, W1: the events of a WRITE. -/
theorem test_write_ok :
    look (fun t => (t.lastRes, t.csN, t.trace)) (exec (.write [1#8, 2#8, 3#8] [0x10#8, 0x11#8, 0x12#8, 0x13#8, 0x14#8])
      (withEnv [okX [0x02#8, 0x0A#8, 0#8, 0#8, 0#8], okX [], okX []] State.reset)) =
    some (.ok, true, [.rrst, .cs false, .xfer hw (.ok [0x02#8, 0x0A#8, 0#8, 0#8, 0#8]), .wro [1#8, 2#8, 3#8] .ok,
      .wro [0x10#8, 0x11#8, 0x12#8, 0x13#8, 0x14#8] .ok, .cs true]) := by decide
/-- 95 W3: capacity 7 for 8 bytes. -/
theorem test_write_short :
    look (fun t => (t.lastRes, t.trace.length)) (exec (.write [1#8, 2#8, 3#8] [4#8, 5#8, 6#8, 7#8, 8#8])
      (withEnv [okX [0x02#8, 0x07#8, 0#8, 0#8, 0#8]] State.reset)) = some (.notReady, 4) := by decide

/-- 95 P-5: a pull split at the wrap. -/
theorem test_pull_wraps :
    look (fun t => (t.lastRes, cursors t, contents t)) (exec .pull (withEnv
      [rdy true, okX [0x02#8, 0#8, 0#8, 5#8, 0#8], okX [1#8, 2#8], okX [3#8, 4#8, 5#8]] (ringAt 8#16 6#16 6#16 0#16 []))) =
    some (.ok, (3, 6, 5), [1#8, 2#8, 3#8, 4#8, 5#8]) := by decide
/-- 95 P-10: a faulted window is committed. -/
theorem test_pull_faults :
    look (fun t => (t.lastRes, cursors t, contents t)) (exec .pull (withEnv
      [rdy true, okX [0x02#8, 0#8, 0#8, 3#8, 0#8], okX [7#8, 8#8], cf [9#8]] (ringAt 8#16 6#16 6#16 0#16 []))) =
    some (.errComm, (1, 6, 3), [7#8, 8#8, 9#8]) := by decide

/-- 95 X9: the length byte past the wrap. -/
theorem test_extract_wraps :
    look (fun t => (t.out.map (fun o => o.data), t.flen.toNat, cursors t)) (exec .extract (ringAt 8#16 3#16 7#16 4#16
      [(0, 0x00#8), (1, 0xD0#8), (2, 0xD1#8), (7, 0x04#8)])) =
    some (some [0x04#8, 0x00#8, 0xD0#8, 0xD1#8], 4, (3, 3, 0)) := by decide
/-- 95 X10: a frame of 129 bytes. -/
theorem test_extract_too_long :
    look (fun t => (t.fault, t.faultCause, cursors t)) (exec .extract (ringAt 200#16 129#16 0#16 129#16
      [(0, 0x04#8), (1, 0x7D#8)])) = some (true, .frameTooLong, (129, 0, 129)) := by decide

/-- 95 RD10: a frame that this very pull completes. -/
theorem test_read_completes_frame :
    look (fun t => (t.out.map (fun o => o.data), cursors t)) (exec .read (withEnv
      [rdy true, okX [0x02#8, 0#8, 0#8, 4#8, 0#8], okX [0xBB#8, 0xCC#8, 0xDD#8, 0xEE#8]]
      (ringAt 8#16 3#16 0#16 3#16 [(0, 0x04#8), (1, 0x03#8), (2, 0xAA#8)]))) =
    some (some [0x04#8, 0x03#8, 0xAA#8, 0xBB#8, 0xCC#8, 0xDD#8, 0xEE#8], (7, 7, 0)) := by decide
/-- 95 RD9: no frame after a communication error. -/
theorem test_read_passes_error :
    look result (exec .read (withEnv [rdy true, cf []] State.reset)) = some (some (.errComm, [])) := by decide

/-- 95 RR8: LAST_RES 1, FAULT_CAUSE 6. -/
theorem test_rdreg_status :
    look value (exec (.rdreg 4#16) { State.reset with lastRes := .notReady, fault := true, faultCause := .frameTooLong }) =
      some (some 0x00B5#16) := by decide
/-- 95 RR4, RR6: a reserved number, before and after a fault. -/
theorem test_rdreg_reserved :
    look (fun t => (t.faultCause, t.out.isNone)) (exec (.rdreg 5#16) State.reset) = some (.illegalCmd, true) ∧
    look value (exec (.rdreg 5#16) { State.reset with fault := true, faultCause := .illegalCmd }) = some (some 0#16) := by
  decide

/-- 95 RB13, RB9: an empty buffer off the origin, a full one. -/
theorem test_contig :
    look value (exec .rbContig (ringAt 8#16 3#16 3#16 0#16 [])) = some (some 5#16) ∧
    look value (exec .rbContig (ringAt 8#16 3#16 3#16 8#16 [])) = some (some 0#16) := by decide
/-- 95 RB18. -/
theorem test_fill_wraps :
    look (fun t => (cursors t, t.rb.cells)) (exec (.rbFill 2#16 [0xAA#8, 0xBB#8]) (ringAt 8#16 6#16 2#16 4#16 [])) =
      some ((0, 2, 6), [(6, 0xAA#8), (7, 0xBB#8)]) := by decide
/-- 95 RB17, RB19. -/
theorem test_fill_faults :
    look (fun t => t.faultCause) (exec (.rbFill 3#16 [1#8, 2#8, 3#8]) (ringAt 8#16 6#16 2#16 4#16 [])) =
      some .rbFillOverrun ∧
    look (fun t => t.faultCause) (exec (.rbFill 2#16 [0xAA#8]) State.reset) = some .operandMismatch := by decide
/-- RB_AVAIL, the example of R115. -/
theorem test_avail : look value (exec .rbAvail (ringAt 8#16 0#16 2#16 6#16 [])) = some (some 6#16) := by decide
/-- 95 RB20, RB16. -/
theorem test_peek :
    look result (exec (.rbPeek 2#16) (ringAt 8#16 2#16 6#16 4#16 [(0, 0x33#8), (1, 0x44#8), (6, 0x11#8), (7, 0x22#8)])) =
      some (some (.ok, [0x33#8])) ∧
    look (fun t => t.faultCause) (exec (.rbPeek 0#16) (ringAt 8#16 3#16 3#16 0#16 [])) = some .rbPeekRange := by decide
/-- 95 RB21, RB14. -/
theorem test_take :
    look (fun t => (result t, cursors t)) (exec (.rbTake 3#16)
      (ringAt 8#16 2#16 6#16 4#16 [(0, 0x33#8), (1, 0x44#8), (6, 0x11#8), (7, 0x22#8)])) =
      some (some (.ok, [0x11#8, 0x22#8, 0x33#8]), (2, 1, 1)) ∧
    look (fun t => t.faultCause) (exec (.rbTake 1#16) (ringAt 8#16 3#16 3#16 0#16 [])) = some .rbTakeRange := by decide

/-- The states in which a handshake's header goes out or comes in. -/
def handshaking (q : Seq) (i : Instr) (h : List Byte) : State :=
  { State.reset with seq := q, csN := false, cur := some ⟨i, .ok⟩, hsbuf := headerOf h, trace := [.rrst, .cs false] }

/-- 95 HS1, through WRITE (R141). -/
theorem test_wreq : look (fun t => (t.seq, t.hsbuf.bytes)) (exec .hsWreq (withEnv
    [okX [0x02#8, 0x34#8, 0x12#8, 0x78#8, 0x56#8]] (handshaking .w2 (.write [] []) []))) =
    some (.w2reply, [0x02#8, 0x34#8, 0x12#8, 0x78#8, 0x56#8]) := by decide
/-- 95 HS7, through PULL. -/
theorem test_rreq_faults : look (fun t => (t.seq, t.cur, t.trace.getLast?)) (exec .hsRreq (withEnv
    [cf []] (handshaking .p3 .pull []))) = some (.p9, some ⟨.pull, .errComm⟩, some (.xfer hr .commFault)) := by decide
/-- R162: capacity 7 and 8 for 8 bytes. -/
theorem test_ready_wcap :
    look (fun t => t.seq) (exec (.hsReady 7#16 0#16) (handshaking .w2reply (.write [1#8, 2#8, 3#8]
      [4#8, 5#8, 6#8, 7#8, 8#8]) [])) = some .w9 ∧
    look (fun t => t.seq) (exec (.hsReady 8#16 0#16) (handshaking .w2reply (.write [1#8, 2#8, 3#8]
      [4#8, 5#8, 6#8, 7#8, 8#8]) [])) = some .w3 := by decide
/-- R167: R_REM takes rcap. -/
theorem test_ready_rcap :
    look (fun t => (t.seq, t.rRem)) (exec (.hsReady 0#16 5#16) (handshaking .p3reply .pull [])) = some (.p4, 5#16) := by
  decide
/-- 95 HS3: an echoed request marker is not ready (R142). -/
theorem test_echo_not_ready :
    look (fun t => (t.seq, t.cur)) (step (handshaking .p3reply .pull [0x0B#8, 0#8, 0#8, 0#8, 0#8])) =
      some (.p9, some ⟨.pull, .notReady⟩) := by decide

/-- 95 RR5: the fault state refuses READ. -/
theorem test_refusal : exec .read { State.reset with fault := true, faultCause := .illegalCmd } =
    .next { State.reset with fault := true, faultCause := .illegalCmd, out := none } := rfl

/-- R260: reset in the middle of a command. -/
theorem test_reset_abandons :
    look (fun t => (t.seq, t.csN, t.cur, t.trace)) (step (withPort [.rst] (handshaking .w3 (.write [1#8] []) []))) =
      some (.idle, true, none, [.rrst, .cs false, .rrst]) := by decide

/-! ### Witnesses -/

/-- The parts of Inv that are decided on a concrete state. -/
theorem inv_of (s : State) (h1 : s.cfg.Legal) (h2 : 1 ≤ capN s) (h3 : s.cnt.toNat ≤ capN s) (h4 : s.wp.toNat < capN s)
    (h5 : s.rp.toNat < capN s) (h6 : s.wp.toNat = (s.rp.toNat + s.cnt.toNat) % capN s)
    (h7 : s.rb.wf (capN s) = true) (h8 : s.fbuf.wf Config.frameMax = true) (h9 : s.flen.toNat ≤ Config.frameMax)
    (h10 : s.fault = true ↔ s.faultCause ≠ .none) (h11 : s.csN = !s.seq.selected) (h12 : busLevel s.trace = s.csN)
    (h13 : running s.seq s.cur = true)
    (h14 : s.seq = .p5 → 1 ≤ s.winK.toNat ∧ s.winK.toNat ≤ contigLen s ∧ s.winK.toNat ≤ s.rRem.toNat) :
    Machine.Inv s := ⟨h1, ⟨h2, h3, h4, h5, h6⟩, h7, h8, h9, h10, h11, h12, h13, h14⟩

/-- 6/2/4 of 8: the free region wraps. -/
def mid : State := ringAt 8#16 6#16 2#16 4#16 [(2, 4#8), (3, 0#8), (4, 0x11#8), (5, 0x22#8)]
/-- 3/3/8 of 8: full. -/
def full : State := ringAt 8#16 3#16 3#16 8#16 []
/-- 2/6/4 of 8: the valid window wraps. -/
def wrapped : State := ringAt 8#16 2#16 6#16 4#16 [(0, 0x33#8), (1, 0x44#8), (6, 0x11#8), (7, 0x22#8)]
/-- 7/0/7 of 8: a whole frame. -/
def framed : State := ringAt 8#16 7#16 0#16 7#16
  [(0, 4#8), (1, 3#8), (2, 0xAA#8), (3, 0xBB#8), (4, 0xCC#8), (5, 0xDD#8), (6, 0xEE#8)]
/-- In the middle of a PULL, with a window open. -/
def inWindow : State :=
  { ringAt 8#16 6#16 6#16 0#16 [] with
    seq := .p5, csN := false, cur := some ⟨.pull, .ok⟩, winK := 2#16, rRem := 5#16
    trace := [.rrst, .rdys true, .cs false, .xfer hr (.ok [0x02#8, 0#8, 0#8, 5#8, 0#8])] }
/-- In the middle of the same PULL, before the window is opened. -/
def atLoop : State := { inWindow with seq := .p4, winK := 0#16 }
/-- A fault recorded. -/
def broken : State := { mid with fault := true, faultCause := .rbTakeRange }

/-- R170: @P4 changes no byte of RB; R172: the window is zeroed and committed at the end of @P5. -/
theorem test_rb_changes_at_p5 :
    look (fun t => (t.seq, t.winK, t.rb)) (step atLoop) = some (.p5, 2#16, atLoop.rb) ∧
    look (fun t => (t.seq, contents t, t.rRem)) (step (withEnv [cf [9#8]] inWindow)) =
      some (.p9, [9#8, 0#8], 5#16) := by decide

theorem mid_inv : Machine.Inv mid := by apply inv_of <;> decide
theorem full_inv : Machine.Inv full := by apply inv_of <;> decide
theorem wrapped_inv : Machine.Inv wrapped := by apply inv_of <;> decide
theorem framed_inv : Machine.Inv framed := by apply inv_of <;> decide
theorem inWindow_inv : Machine.Inv inWindow := by apply inv_of <;> decide
theorem atLoop_inv : Machine.Inv atLoop := by apply inv_of <;> decide
theorem broken_inv : Machine.Inv broken := by apply inv_of <;> decide
theorem mid_ready : Ready mid := ⟨rfl, rfl⟩
theorem full_ready : Ready full := ⟨rfl, rfl⟩
theorem wrapped_ready : Ready wrapped := ⟨rfl, rfl⟩
theorem framed_ready : Ready framed := ⟨rfl, rfl⟩

theorem withEnv_inv (ds : List Draw) {s : State} (h : Machine.Inv s) : Machine.Inv (withEnv ds s) :=
  ⟨h.legal, ⟨h.ring.capPos, h.ring.cntLe, h.ring.wpLt, h.ring.rpLt, h.ring.wpEq⟩, h.rbWf, h.fbufWf, h.flenLe,
    h.causeIff, h.csLevel, h.traceLevel, h.runs, h.window⟩

theorem witness_DecodeInvertsEncode : (Instr.rbFill 1#16 [0xAA#8]).wellFormed = true ∧
    (Instr.write [] [1#8]).wellFormed = true ∧ (Instr.hsReady 65535#16 0#16).wellFormed = true := by decide

theorem witness_DecodedCarrierIsItsEncoding :
    decode (.command 0xFFFF000C#32 Strings.none) = .ok (.rbTake 65535#16) ∧
    decode (.header [0x02#8, 0xFF#8, 0xFF#8, 0xFF#8, 0xFF#8]) = .ok (.hsReady 65535#16 65535#16) := by decide

/-- A word for each clause of the procedure, with ARG 0 and ARG 1 where it must be 0. -/
theorem witness_CommandDecodingProcedure :
    (0x00000012#32).extractLsb' 4 12 ≠ 0#12 ∧ (0xFFFF0001#32).extractLsb' 4 12 = 0#12 ∧
    ([0x00000001#32, 0x00000002#32, 0x00000003#32, 0x00000004#32, 0x00000008#32, 0x0000000A#32, 0x00000007#32,
      0x00000009#32, 0x0000000B#32, 0x0000000C#32, 0x0000000F#32].map (fun w => (w.extractLsb' 0 4).toNat)) =
      [0x1, 0x2, 0x3, 0x4, 0x8, 0xA, 0x7, 0x9, 0xB, 0xC, 0xF] ∧
    (0x00000001#32).extractLsb' 16 16 = 0#16 ∧ (0x00010001#32).extractLsb' 16 16 ≠ 0#16 := by decide

theorem witness_StepRunsDecodedCommand :
    decode (.command 0x00000003#32 Strings.none) = .ok .pull ∧ firstLabel .pull = some .p1 ∧
    decode (.command 0x0000000A#32 Strings.none) = .ok .rbAvail ∧ firstLabel .rbAvail = none ∧
    (withPort [.call 0x00000003#32 Strings.none] mid).port = [.call 0x00000003#32 Strings.none] ∧
    Ready (withPort [.present 0x00000003#32 Strings.none] mid) := by
  refine ⟨by decide, by decide, by decide, by decide, rfl, rfl, rfl⟩

theorem unpresented_empty {s : State} (h : s.port = []) : Unpresented s s := .inl ⟨h, rfl⟩

theorem unpresented_quiet (rest : List HostInput) (s : State) :
    Unpresented (withPort (.quiet :: rest) s) (withPort rest s) := .inr ⟨rest, rfl, rfl⟩

/-- An empty port, and a quiet input before a command. -/
theorem witness_StepRunsWireHeader_unpresented :
    Unpresented (handshaking .w2 (.write [] []) []) (handshaking .w2 (.write [] []) []) ∧
    Unpresented (withPort [.quiet, .call 0x00000002#32 Strings.none] (handshaking .w2 (.write [] []) []))
      (withPort [.call 0x00000002#32 Strings.none] (handshaking .w2 (.write [] []) [])) :=
  ⟨unpresented_empty rfl, unpresented_quiet _ _⟩

theorem witness_StepRunsWireHeader :
    (handshaking .w2 (.write [] []) []).port = [] ∧ (handshaking .w2 (.write [] []) []).seq = .w2 ∧
    (handshaking .p3 .pull []).seq = .p3 ∧
    (handshaking .w2reply (.write [] []) [0x02#8, 0#8, 0#8, 0#8, 0#8]).seq = .w2reply ∧
    decode (.header (handshaking .p3reply .pull [0x02#8, 0#8, 0#8, 5#8, 0#8]).hsbuf.bytes) =
      .ok (.hsReady 0#16 5#16) := by decide

theorem witness_UndecodableWordRaisesIllegalCmd :
    Ready (withPort [.call 0x00000012#32 Strings.none] mid) ∧ (0x00000012#32).extractLsb' 4 12 ≠ 0#12 ∧
    ((0x00010002#32).extractLsb' 0 4).toNat ∈ [0x1, 0x2, 0x3, 0x4, 0x8, 0xA] ∧
    (0x00010002#32).extractLsb' 16 16 ≠ 0#16 ∧
    ((0x00000000#32).extractLsb' 0 4).toNat ∈ [0x0, 0x5, 0x6, 0xD, 0xE, 0xF] := by
  refine ⟨⟨rfl, rfl⟩, ?_⟩; decide

theorem witness_RbContigReturnsContiguousLength : Machine.Inv full ∧ Ready full ∧ Machine.Inv mid ∧ Ready mid :=
  ⟨full_inv, full_ready, mid_inv, mid_ready⟩

theorem witness_RbAvailReturnsCount : Ready mid := mid_ready

/-- The longest fill, and the empty fill of a full buffer. -/
theorem witness_RbFillAppends :
    (Machine.Inv mid ∧ Ready mid ∧ [0xAA#8, 0xBB#8].length = (2#16).toNat ∧
      (2#16).toNat ≤ min (mid.cfg.cap.toNat - mid.cnt.toNat) (mid.cfg.cap.toNat - mid.wp.toNat)) ∧
    (Machine.Inv full ∧ Ready full ∧ ([] : List Byte).length = (0#16).toNat ∧
      (0#16).toNat ≤ min (full.cfg.cap.toNat - full.cnt.toNat) (full.cfg.cap.toNat - full.wp.toNat)) :=
  ⟨⟨mid_inv, mid_ready, by decide, by decide⟩, full_inv, full_ready, by decide, by decide⟩

theorem witness_RbFillChecksInOrder : Ready mid ∧ [0xAA#8].length ≠ (2#16).toNat ∧
    ([1#8, 2#8, 3#8].length = (3#16).toNat ∧
      min (mid.cfg.cap.toNat - mid.cnt.toNat) (mid.cfg.cap.toNat - mid.wp.toNat) < (3#16).toNat) :=
  ⟨mid_ready, by decide, by decide, by decide⟩

theorem witness_RbPeekReadsWithoutConsuming :
    Ready wrapped ∧ (3#16).toNat < wrapped.cnt.toNat ∧ wrapped.cnt.toNat ≤ (4#16).toNat :=
  ⟨wrapped_ready, by decide, by decide⟩

theorem witness_RbTakeRemovesFromHead : Machine.Inv wrapped ∧ Ready wrapped ∧ (4#16).toNat ≤ wrapped.cnt.toNat ∧
    (0#16).toNat ≤ wrapped.cnt.toNat ∧ wrapped.cnt.toNat < (5#16).toNat :=
  ⟨wrapped_inv, wrapped_ready, by decide, by decide, by decide⟩

/-- Both cases of the rule. -/
theorem witness_ContiguityLaw :
    (Machine.Inv mid ∧ Ready mid ∧ 0 < contigLen mid ∧ [1#8, 2#8].length = contigLen mid ∧
      mid.rp.toNat ≤ mid.wp.toNat) ∧
    (Machine.Inv wrapped ∧ Ready wrapped ∧ 0 < contigLen wrapped ∧ [1#8, 2#8, 3#8, 4#8].length = contigLen wrapped ∧
      wrapped.wp.toNat < wrapped.rp.toNat) :=
  ⟨⟨mid_inv, mid_ready, by decide, by decide, by decide⟩, wrapped_inv, wrapped_ready, by decide, by decide, by decide⟩

/-- Two fills, the first up to the wrap. -/
theorem witness_FifoLaw : Machine.Inv mid ∧ Ready mid ∧
    look (fun t => t.fault) (execAll ([[1#8, 2#8], [3#8]].map (fun f => .rbFill (BitVec.ofNat 16 f.length) f)) mid) =
      some false := ⟨mid_inv, mid_ready, by decide⟩

/-- The three answers. -/
theorem witness_HandshakeOutcome :
    (nextDraw (withEnv [cf []] mid)).1.commFault = true ∧
    ((nextDraw (withEnv [okX [0x0B#8]] mid)).1.commFault = false ∧
      (fit 5 (nextDraw (withEnv [okX [0x0B#8]] mid)).1.rx).getD 0 0#8 ≠ 0x02#8) ∧
    (fit 5 (nextDraw (withEnv [okX [0x02#8, 1#8, 2#8, 3#8, 4#8]] mid)).1.rx).getD 0 0#8 = 0x02#8 := by decide

theorem witness_RequestHeadersGoOut :
    (handshaking .w2 (.write [] []) []).csN = false ∧ (handshaking .w2 (.write [] []) []).seq = .w2 ∧
    (handshaking .p3 .pull []).csN = false ∧ (handshaking .p3 .pull []).seq = .p3 ∧
    (nextDraw (withEnv [okX []] (handshaking .p3 .pull []))).1.commFault = false ∧
    (nextDraw (withEnv [cf []] (handshaking .p3 .pull []))).1.commFault = true := by decide

/-- One byte short, exactly enough, and a read request's reply. -/
theorem witness_ReadyReplyTaken :
    (handshaking .w2reply (.write [1#8] [2#8]) []).csN = false ∧
    (handshaking .w2reply (.write [1#8] [2#8]) []).cur = some ⟨.write [1#8] [2#8], .ok⟩ ∧
    (1#16).toNat < [1#8].length + [2#8].length ∧ [1#8].length + [2#8].length ≤ (2#16).toNat ∧
    (handshaking .p3reply .pull []).seq = .p3reply := by decide

/-- Out of turn at IDLE, and with chip-select released. -/
theorem witness_HeaderOutOfTurnStops : mid.seq ≠ .w2 ∧ mid.seq ≠ .p3 ∧ mid.seq ≠ .w2reply ∧ mid.seq ≠ .p3reply ∧
    { handshaking .w2 (.write [] []) [] with csN := true }.csN = true := by decide

/-- The draws of 95 W5, W4, W3, W2, W6 and W7: one for each outcome. -/
theorem witness_WriteOutcomes :
    Ready (withEnv [cf [], okX [], okX []] mid) ∧
    draws 3 (withEnv [okX [2#8, 8#8], cf [], okX []] mid) = [okX [2#8, 8#8], cf [], okX []] ∧
    (cf []).commFault = true ∧ (fit 5 (okX [3#8, 0xFF#8, 0xFF#8]).rx).getD 0 0#8 ≠ 0x02#8 ∧
    (fit 5 (okX [2#8, 7#8]).rx).getD 0 0#8 = 0x02#8 ∧
    ((fit 5 (okX [2#8, 7#8]).rx).getD 1 0#8).toNat + 256 * ((fit 5 (okX [2#8, 7#8]).rx).getD 2 0#8).toNat < 8 ∧
    8 ≤ ((fit 5 (okX [2#8, 8#8]).rx).getD 1 0#8).toNat + 256 * ((fit 5 (okX [2#8, 8#8]).rx).getD 2 0#8).toNat := by
  refine ⟨⟨rfl, rfl⟩, ?_⟩; decide

theorem witness_ChipSelectScoping : Machine.Inv (withEnv [rdy true] mid) ∧ Ready (withEnv [rdy true] mid) ∧
    (nextDraw (withEnv [rdy true] mid)).1.level = mid.cfg.rdyActiveHigh ∧
    (nextDraw (withEnv [rdy false] mid)).1.level ≠ mid.cfg.rdyActiveHigh :=
  ⟨withEnv_inv _ mid_inv, ⟨rfl, rfl⟩, by decide, by decide⟩

theorem witness_PullReadinessGate : Machine.Inv (withEnv [rdy false] mid) ∧ Ready (withEnv [rdy false] mid) ∧
    (nextDraw (withEnv [rdy false] mid)).1.level ≠ (withEnv [rdy false] mid).cfg.rdyActiveHigh :=
  ⟨withEnv_inv _ mid_inv, ⟨rfl, rfl⟩, by decide⟩

theorem witness_PullHandshakeFailures :
    Ready (withEnv [rdy true, cf []] mid) ∧ draws 2 (withEnv [rdy true, cf []] mid) = [rdy true, cf []] ∧
    (rdy true).level = mid.cfg.rdyActiveHigh ∧ (cf []).commFault = true ∧
    draws 2 (withEnv [rdy true, okX []] mid) = [rdy true, okX []] ∧ (okX []).commFault = false ∧
    (fit 5 (okX []).rx).getD 0 0#8 ≠ 0x02#8 := by
  refine ⟨⟨rfl, rfl⟩, ?_⟩; decide

/-- The script of a pull of 10 bytes: two windows in `mid` (95 P-7). -/
def pull10 (a b : Draw) : List Draw := [rdy true, okX [2#8, 0#8, 0#8, 10#8, 0#8], a, b]

/-- Two windows in `mid`, none in `full`. -/
theorem witness_PullMovesBytes :
    Machine.Inv (withEnv (pull10 (okX []) (okX [])) mid) ∧ Ready (withEnv (pull10 (okX []) (okX [])) mid) ∧
    draws 4 (withEnv (pull10 (okX []) (okX [])) mid) = pull10 (okX []) (okX []) ∧
    (rdy true).level = mid.cfg.rdyActiveHigh ∧ (fit 5 (okX [2#8, 0#8, 0#8, 10#8, 0#8]).rx).getD 0 0#8 = 0x02#8 ∧
    0 < min 10 (min (mid.cfg.cap.toNat - mid.cnt.toNat) (mid.cfg.cap.toNat - mid.wp.toNat)) ∧
    (okX []).commFault = false ∧
    Machine.Inv (withEnv (pull10 (okX []) (okX [])) full) ∧
    min 10 (min (full.cfg.cap.toNat - full.cnt.toNat) (full.cfg.cap.toNat - full.wp.toNat)) = 0 :=
  ⟨withEnv_inv _ mid_inv, ⟨rfl, rfl⟩, by decide, by decide, by decide, by decide, by decide, withEnv_inv _ full_inv,
    by decide⟩

/-- A fault in the first and in the second window. -/
theorem witness_PullFaultedWindowCommitted :
    Machine.Inv (withEnv (pull10 (cf [9#8]) (okX [])) mid) ∧ Ready (withEnv (pull10 (cf [9#8]) (okX [])) mid) ∧
    draws 4 (withEnv (pull10 (cf [9#8]) (okX [])) mid) = pull10 (cf [9#8]) (okX []) ∧
    draws 4 (withEnv (pull10 (okX []) (cf [9#8])) mid) = pull10 (okX []) (cf [9#8]) ∧ (cf [9#8]).commFault = true ∧
    0 < min (10 - 2) (4 - 2) ∧ mid.cfg.cap.toNat - mid.cnt.toNat = 4 ∧ mid.cfg.cap.toNat - mid.wp.toNat = 2 :=
  ⟨withEnv_inv _ mid_inv, ⟨rfl, rfl⟩, by decide, by decide, by decide, by decide, by decide, by decide⟩

/-- At @P4 with a window to open and with none, and at @P5 with the window moved and faulted. -/
theorem witness_PullWindowSteps :
    Machine.Inv inWindow ∧ Machine.Inv atLoop ∧ Machine.Inv (withEnv [cf [9#8]] inWindow) ∧
    Unpresented inWindow inWindow ∧ Unpresented atLoop atLoop ∧ atLoop.seq = .p4 ∧ inWindow.seq = .p5 ∧
    0 < min atLoop.rRem.toNat (min (atLoop.cfg.cap.toNat - atLoop.cnt.toNat) (atLoop.cfg.cap.toNat - atLoop.wp.toNat)) ∧
    Machine.Inv { atLoop with rRem := 0#16 } ∧ (nextDraw (withEnv [cf [9#8]] inWindow)).1.commFault = true ∧
    (nextDraw (withEnv [okX []] inWindow)).1.commFault = false :=
  ⟨inWindow_inv, atLoop_inv, withEnv_inv _ inWindow_inv, unpresented_empty rfl, unpresented_empty rfl, rfl, rfl,
    by decide, by apply inv_of <;> decide, rfl, rfl⟩

/-- 95 X1 and X2, and an EXTRACT that reports NOT_READY. -/
theorem witness_ExtractPartialFrame :
    look result (exec .extract (ringAt 8#16 3#16 0#16 3#16 [(0, 4#8), (1, 3#8), (2, 0xAA#8)])) =
      some (some (.notReady, [])) ∧
    Ready (ringAt 8#16 3#16 0#16 3#16 [(0, 4#8), (1, 3#8), (2, 0xAA#8)]) ∧
    (ringAt 8#16 3#16 0#16 3#16 [(0, 4#8), (1, 3#8), (2, 0xAA#8)]).cnt.toNat < 4 ∧
    (ringAt 8#16 6#16 0#16 6#16 [(0, 4#8), (1, 3#8)]).cnt.toNat <
      4 + ((ringAt 8#16 6#16 0#16 6#16 [(0, 4#8), (1, 3#8)]).rb.read ((0 + 1) % 8)).toNat := by
  refine ⟨by decide, ⟨rfl, rfl⟩, ?_⟩; decide

/-- 95 X10. -/
def long129 : State := ringAt 200#16 129#16 0#16 129#16 [(0, 4#8), (1, 0x7D#8)]

/-- 95 X11: one byte short of X10's frame. -/
def short129 : State := ringAt 200#16 128#16 0#16 128#16 [(0, 4#8), (1, 0x7D#8)]

theorem witness_ExtractFrameTooLong : Ready long129 ∧ Ready short129 ∧
    128 < short129.cfg.hdrLen + (short129.rb.read ((short129.rp.toNat + 1) % short129.cfg.cap.toNat)).toNat ∧
    short129.cnt.toNat < short129.cfg.hdrLen +
      (short129.rb.read ((short129.rp.toNat + 1) % short129.cfg.cap.toNat)).toNat ∧
    long129.cfg.hdrLen + (long129.rb.read ((long129.rp.toNat + 1) % long129.cfg.cap.toNat)).toNat ≤
      long129.cnt.toNat ∧
    128 < long129.cfg.hdrLen + (long129.rb.read ((long129.rp.toNat + 1) % long129.cfg.cap.toNat)).toNat := by
  refine ⟨⟨rfl, rfl⟩, ⟨rfl, rfl⟩, ?_⟩; decide

/-- 95 X12: the longest frame. -/
def long128 : State := ringAt 200#16 128#16 0#16 128#16 [(0, 4#8), (1, 0x7C#8)]

theorem witness_ExtractTakesFrame : Machine.Inv long128 ∧ Ready long128 ∧
    long128.cfg.hdrLen + (long128.rb.read ((long128.rp.toNat + 1) % long128.cfg.cap.toNat)).toNat ≤
      long128.cnt.toNat ∧
    long128.cfg.hdrLen + (long128.rb.read ((long128.rp.toNat + 1) % long128.cfg.cap.toNat)).toNat ≤ 128 := by
  refine ⟨by apply inv_of <;> decide, ⟨rfl, rfl⟩, ?_⟩; decide

/-- 95 X13, and a frame one byte longer than the buffer. -/
theorem witness_LongFrameStalls :
    (∃ s, Machine.Inv s ∧ Ready s ∧ s.cnt = s.cfg.cap ∧
      s.cfg.cap.toNat < s.cfg.hdrLen + (s.rb.read ((s.rp.toNat + 1) % s.cfg.cap.toNat)).toNat) ∧
    ∃ s, Machine.Inv s ∧ Ready s ∧
      s.cfg.cap.toNat + 1 = s.cfg.hdrLen + (s.rb.read ((s.rp.toNat + 1) % s.cfg.cap.toNat)).toNat :=
  ⟨⟨ringAt 8#16 0#16 0#16 8#16 [(0, 4#8), (1, 0xFF#8)], by apply inv_of <;> decide, ⟨rfl, rfl⟩, by decide, by decide⟩,
    ringAt 8#16 0#16 0#16 8#16 [(0, 4#8), (1, 5#8)], by apply inv_of <;> decide, ⟨rfl, rfl⟩, by decide⟩

/-- READ that faults and READ that completes. -/
theorem witness_ReadIsPullThenExtract : Machine.Inv mid ∧ Ready mid ∧ Machine.Inv framed ∧ Ready framed :=
  ⟨mid_inv, mid_ready, framed_inv, framed_ready⟩

/-- 95 RD2's kind: a frame buffered, the radio not ready. -/
theorem witness_ReadReturnsBufferedFrame :
    Machine.Inv (withEnv [rdy false] framed) ∧ Ready (withEnv [rdy false] framed) ∧
    (nextDraw (withEnv [rdy false] framed)).1.level ≠ framed.cfg.rdyActiveHigh ∧
    framed.cfg.hdrLen + (framed.rb.read ((framed.rp.toNat + 1) % framed.cfg.cap.toNat)).toNat ≤ framed.cnt.toNat ∧
    framed.cfg.hdrLen + (framed.rb.read ((framed.rp.toNat + 1) % framed.cfg.cap.toNat)).toNat ≤ 128 :=
  ⟨withEnv_inv _ framed_inv, ⟨rfl, rfl⟩, by decide, by decide, by decide⟩

theorem witness_RdregReadsRegisters : mid.seq = .idle ∧ broken.seq = .idle := by decide
theorem witness_RdregStatusLayout : broken.seq = .idle := by decide
theorem witness_RdregReservedNumber : mid.seq = .idle ∧ mid.fault = false ∧ broken.seq = .idle ∧ broken.fault = true ∧
    5 ≤ (5#16).toNat ∧ 5 ≤ (65535#16).toNat := by decide

theorem witness_FaultStateRefuses : broken.seq = .idle ∧ broken.fault = true ∧
    Instr.read ≠ .hsWreq ∧ Instr.read ≠ .hsRreq ∧ (∀ w r, Instr.read ≠ .hsReady w r) ∧
    (∀ reg, Instr.read ≠ .rdreg reg) ∧ 5 ≤ (5#16).toNat ∧
    decode (.command 0x00000012#32 Strings.none) = .error .reservedField ∧
    decode (.command 0x00000003#32 Strings.none) = .ok .pull ∧ (∀ reg, Instr.pull ≠ .rdreg reg) ∧
    (withPort [.present 0x00000003#32 Strings.none] broken).port = [.present 0x00000003#32 Strings.none] :=
  ⟨rfl, rfl, by decide, by decide, by simp, by simp, by decide, by decide, by decide, by simp, rfl⟩

/-- A step that keeps the fault, and one that resets. -/
theorem witness_OnlyResetClearsFault :
    look (fun t => t.fault) (step (withPort [.call 0x00000002#32 Strings.none] broken)) = some true ∧
    look (fun t => t.fault) (step (withPort [.rst] broken)) = some false ∧ broken.fault = true := by decide

/-- A READ, and then a word without a meaning, with quiet inputs after each. -/
def overlapped : List HostInput :=
  [.call 0x00000002#32 Strings.none, .quiet, .quiet, .present 0x00000010#32 Strings.none, .quiet, .quiet]

theorem witness_OverlapRaisesReentry : (withPort [.call 0x00000002#32 Strings.none] inWindow).seq ≠ .idle ∧
    (withPort [.call 0x00000002#32 Strings.none] inWindow).port = [.call 0x00000002#32 Strings.none] := by decide

/-- A READ and an undecodable word presented while the four steps of a PULL that fails at its handshake run. -/
theorem witness_OverlappedCommandRunsToItsEnd : Machine.Inv mid ∧ Ready mid ∧ firstLabel .pull = some .p1 ∧
    HostInput.rst ∉ overlapped ∧ overlapped.count .quiet = 4 ∧ overlapped.getLast? = some .quiet ∧
    (∃ x ∈ overlapped, x ≠ .quiet) ∧
    look (fun t => (t.seq, t.faultCause, t.lastRes, t.trace)) (steps 6 (startAt .p1 .pull
      (withPort overlapped (withEnv [rdy true, cf []] mid)))) =
      some (.idle, .reentry, .errComm, [.rrst, .rdys true, .cs false, .xfer hr .commFault, .cs true]) :=
  ⟨mid_inv, mid_ready, rfl, by decide, by decide, by decide, ⟨_, List.mem_cons_self, by simp⟩, by decide⟩

/-- A fault of each kind. -/
theorem witness_FaultsArePrecise : Ready mid ∧ Ready long129 ∧
    look (fun t => t.fault) (exec (.rbTake 5#16) mid) = some true ∧
    look (fun t => t.fault) (exec (.rbPeek 4#16) mid) = some true ∧
    look (fun t => t.fault) (exec (.rbFill 3#16 [1#8, 2#8, 3#8]) mid) = some true ∧
    look (fun t => t.fault) (exec (.rbFill 3#16 []) mid) = some true ∧
    look (fun t => t.fault) (exec (.rdreg 5#16) mid) = some true ∧
    look (fun t => t.fault) (exec .extract long129) = some true ∧
    look (fun t => t.fault) (exec .read (withEnv [rdy false] long129)) = some true := by
  refine ⟨mid_ready, ⟨rfl, rfl⟩, ?_⟩; decide

/-- A completed, an RDREG and a refused command. -/
theorem witness_LastResFollowsResult : mid.seq = .idle ∧
    look (fun t => t.out.isSome) (exec .rbAvail mid) = some true ∧
    look (fun t => t.out.isSome) (exec (.rdreg 0#16) mid) = some true ∧
    look (fun t => t.out.isNone) (exec .rbAvail broken) = some true := by decide

theorem witness_ResetFromAnyState : (withPort [.rst] inWindow).port = [.rst] ∧ inWindow.seq ≠ .idle := by decide

/-- A state in the middle of a command, and a step of it. -/
theorem witness_StepKeepsInvariant : Machine.Inv inWindow ∧
    look (fun t => t.seq) (step (withEnv [okX [1#8, 2#8]] inWindow)) = some .p4 := ⟨inWindow_inv, by decide⟩

theorem witness_StepNeverStops : Machine.Inv inWindow ∧ Machine.Inv broken := ⟨inWindow_inv, broken_inv⟩

theorem witness_LabelledStepsEqualCommand : Machine.Inv mid ∧ Ready mid ∧ (∀ x ∈ mid.port, x = .quiet) ∧
    (∀ x ∈ (withPort [.quiet, .quiet] mid).port, x = .quiet) ∧
    firstLabel (.write [1#8] []) = some .w1 ∧ firstLabel .read = some .r1 ∧ firstLabel .pull = some .p1 ∧
    firstLabel .extract = some .x1 := ⟨mid_inv, mid_ready, by decide, by decide, rfl, rfl, rfl, rfl⟩

theorem witness_BoundedBusEvents : Machine.Inv mid ∧ mid.seq = .idle ∧ Instr.read ≠ .hsWreq ∧ Instr.read ≠ .hsRreq ∧
    (∀ w r, Instr.read ≠ .hsReady w r) ∧ (∀ w r, Instr.rbAvail ≠ .hsReady w r) :=
  ⟨mid_inv, rfl, by decide, by decide, by simp, by simp⟩

theorem witness_TraceOnlyGrows : inWindow.port = [] ∧
    look (fun t => t.trace.length) (step (withEnv [okX [1#8, 2#8]] inWindow)) = some 5 := by decide

theorem witness_ConfigurationIsFixed : look (fun t => t.cfg) (step (withPort [.rst] mid)) = some mid.cfg := by decide

/-- Another byte at an address outside the valid window. -/
theorem witness_BytesOutsideWindowUnobservable : Machine.Inv mid ∧ mid.seq = .idle ∧
    contents { mid with rb := mid.rb.write 7 0x99#8 } = contents mid ∧ mid.rb.write 7 0x99#8 ≠ mid.rb ∧
    (∀ w r, Instr.pull ≠ .hsReady w r) := ⟨mid_inv, rfl, by decide, by decide, by simp⟩

end Sys2Proof.Tests
end

/-! PROOFS. The step on a presented command word, and the simulation between the labelled steps of a command and its
atomic execution (R4, R35). -/

namespace Sys2Proof.Machine

variable {s t : State} {c : Running} {q : Seq}

/-! ### A presented command -/

theorem step_call {w : Word} {st : Strings} {rest : List HostInput} {i : Instr} (hp : s.port = .call w st :: rest)
    (hd : decode (.command w st) = .ok i) : step s = exec i (taken s rest) := by
  simp [step, fetch, hp, fetchCommand, hd, taken]

theorem step_present_unlabelled {w : Word} {st : Strings} {rest : List HostInput} {i : Instr}
    (hp : s.port = .present w st :: rest) (hd : decode (.command w st) = .ok i) (hl : firstLabel i = none) :
    step s = exec i (taken s rest) := by
  simp [step, fetch, hp, fetchCommand, hd, hl, taken]

theorem step_present_labelled {w : Word} {st : Strings} {rest : List HostInput} {i : Instr} {label : Seq}
    (hp : s.port = .present w st :: rest) (hd : decode (.command w st) = .ok i) (hl : firstLabel i = some label) :
    step s = enter (startAt label i) (taken s rest) := by
  simp [step, fetch, hp, fetchCommand, hd, hl, taken]

/-- Settles O5: one rule of the step for each way a command word is presented. -/
theorem stepRunsDecodedCommand : Obligations.StepRunsDecodedCommand := by
  intro s w st rest i hd
  refine ⟨fun hp => step_call hp hd, fun hp hl => step_present_unlabelled hp hd hl, fun label hp hl hr => ?_⟩
  have hr' : Ready (taken s rest) := hr
  exact (step_present_labelled hp hd hl).trans (enter_ready hr' _)

/-! ### A state in the middle of a command

The labelled run of a command is compared with its atomic execution through an overlay: `during q c x s` is the state of
the block at label `q` where the atomic execution has come as far as `s`. Every operation of the model commutes with
it. -/

/-- What the host has done by some moment of a command in progress: the inputs still to come, and whether a command was
presented meanwhile, which records REENTRY and disturbs nothing else (R244). -/
structure Meanwhile where
  port : List HostInput
  overlapped : Bool

/-- `s` as the host's doings leave it. -/
def Meanwhile.on (x : Meanwhile) (s : State) : State :=
  { s with
    port := x.port
    fault := x.overlapped || s.fault
    faultCause := if x.overlapped then .reentry else s.faultCause }

/-- The block at label `q` of the command in progress `c`, whose work so far gives `s`. -/
def during (q : Seq) (c : Running) (x : Meanwhile) (s : State) : State :=
  { x.on s with seq := q, cur := some c, out := none }

/-- Without an overlap only the port differs. -/
theorem on_undisturbed (p : List HostInput) (s : State) : Meanwhile.on ⟨p, false⟩ s = taken s p := rfl

/-- A started command is at its first label, with no work done. -/
theorem startAt_eq_during (label : Seq) (i : Instr) (s : State) :
    startAt label i s = during label ⟨i, .ok⟩ ⟨s.port, false⟩ s := rfl

@[simp] theorem during_seq (x : Meanwhile) : (during q c x s).seq = q := rfl
@[simp] theorem during_hsbuf (x : Meanwhile) : (during q c x s).hsbuf = s.hsbuf := rfl
@[simp] theorem during_csN (x : Meanwhile) : (during q c x s).csN = s.csN := rfl

/-- EXTRACT ends as READ does after a pull that gave OK (R192, R211). -/
theorem runExtract_eq_finishRead (s : State) : runExtract s = finishRead .ok s := by
  unfold runExtract finishRead
  rcases extractStep s with ⟨e, m⟩
  cases e with
  | noFrame => rfl
  | tooLong => rfl
  | frame f v => cases v <;> rfl

section Commutes

variable (q c s) (x : Meanwhile)

theorem leave_during (r : Res) (l : Seq) : leave r l (during q c x s) = during l { c with res := r } x s := rfl

theorem complete_during (o : Output) : complete o (during q c x s) = x.on (complete o s) := rfl

/-- A fault ends the command, and an overlap recorded before it stays the first cause (R237). -/
theorem raise_during {k : Cause} (hk : k ≠ .reentry) : raise k (during q c x s) = x.on (raise k s) := by
  obtain ⟨p, overlapped⟩ := x
  cases overlapped <;> cases hf : s.fault <;> simp [raise, during, Meanwhile.on, hk, hf]

theorem sampleRdy_during : sampleRdy (during q c x s) = ((sampleRdy s).1, during q c x (sampleRdy s).2) := rfl

theorem busWrite_during (tx : List Byte) :
    busWrite tx (during q c x s) = ((busWrite tx s).1, during q c x (busWrite tx s).2) := rfl

theorem handshakeXfer_during (d : Dir) :
    handshakeXfer d (during q c x s) = ((handshakeXfer d s).1, during q c x (handshakeXfer d s).2) := by
  cases h : (nextDraw s).1.commFault
  · rw [handshakeXfer_ok d h, handshakeXfer_ok (s := during q c x s) d h]; rfl
  · rw [handshakeXfer_fault d h, handshakeXfer_fault (s := during q c x s) d h]; rfl

theorem openWindow_during : openWindow (during q c x s) = during q c x (openWindow s) := rfl

theorem wantsWindow_during : wantsWindow (during q c x s) = wantsWindow s := rfl

theorem moveWindow_during :
    moveWindow (during q c x s) = ((moveWindow s).1, during q c x (moveWindow s).2) := by
  have hd : (nextDraw (zeroWindow (during q c x s))).1 = (nextDraw (zeroWindow s)).1 := rfl
  have hk : (during q c x s).winK = s.winK := rfl
  unfold moveWindow busXfer
  simp only [hd, hk]
  cases answerOf (zeros s.winK.toNat).length (nextDraw (zeroWindow s)).1 <;> rfl

theorem extractStep_during :
    extractStep (during q c x s) = ((extractStep s).1, during q c x (extractStep s).2) := by
  by_cases h : s.cnt.toNat < frameLen s
  · rw [extractStep_none (.inr h), extractStep_none (s := during q c x s) (.inr h)]
  · have hle : frameLen s ≤ s.cnt.toNat := by omega
    by_cases h2 : Config.frameMax < frameLen s
    · rw [extractStep_long hle h2, extractStep_long (s := during q c x s) hle h2]
    · have h3 : frameLen s ≤ Config.frameMax := by omega
      rw [extractStep_frame hle h3, extractStep_frame (s := during q c x s) hle h3]; rfl

theorem finishRead_during (p : Res) : finishRead p (during q c x s) = x.on (finishRead p s) := by
  unfold finishRead
  rw [extractStep_during]
  rcases extractStep s with ⟨e, m⟩
  cases e with
  | noFrame => exact complete_during ..
  | tooLong => exact raise_during _ _ _ _ (by simp)
  | frame f v => exact complete_during ..

theorem runExtract_during : runExtract (during q c x s) = x.on (runExtract s) := by
  simp only [runExtract_eq_finishRead, finishRead_during]

end Commutes

/-! ### Labels with a step function of their own -/

theorem labelStep_p1 (x : Meanwhile) : labelStep (during .p1 c x s) = stepP1 (during .p1 c x s) := rfl
theorem labelStep_p4 (x : Meanwhile) : labelStep (during .p4 c x s) = stepP4 (during .p4 c x s) := rfl
theorem labelStep_p5 (x : Meanwhile) : labelStep (during .p5 c x s) = stepP5 (during .p5 c x s) := rfl

/-! ### Runs of labelled steps -/

/-- What a step does when nothing is presented: the wire header or the label the sequencer is at. -/
def proceed (s : State) : Host.Outcome State Fault Refusal :=
  match wireHeader s with
  | some i => exec i s
  | none => .next (labelStep s)

theorem step_proceeds {m : State} (h : Unpresented s m) : step s = proceed m := step_nothing h

/-- `Ends n q c s t`: from label `q`, with the work of `c` done as far as `s`, the command ends in `t` after exactly `n`
labelled steps, whatever the host did meanwhile. -/
inductive Ends : Nat → Seq → Running → State → State → Prop where
  /-- The step that ends the command. -/
  | last {q : Seq} {c : Running} {s t : State} (h : ∀ x, proceed (during q c x s) = .next (x.on t)) : Ends 1 q c s t
  /-- A step to another label. -/
  | step {n : Nat} {q q' : Seq} {c c' : Running} {s s' t : State}
    (h : ∀ x, proceed (during q c x s) = .next (during q' c' x s')) (rest : Ends n q' c' s' t) : Ends (n + 1) q c s t

/-- The command ends in `t` within `k` labelled steps. -/
def EndsWithin (k : Nat) (q : Seq) (c : Running) (s t : State) : Prop := ∃ n ≤ k, Ends n q c s t

theorem EndsWithin.last (h : ∀ x, proceed (during q c x s) = .next (x.on t)) : EndsWithin 1 q c s t :=
  ⟨1, Nat.le_refl _, .last h⟩

/-- One step, and then the rest of the run. -/
theorem EndsWithin.step {k l : Nat} {q' : Seq} {c' : Running} {s' : State}
    (h : ∀ x, proceed (during q c x s) = .next (during q' c' x s')) (rest : EndsWithin k q' c' s' t)
    (hl : k < l := by omega) : EndsWithin l q c s t := by
  obtain ⟨n, hn, he⟩ := rest
  exact ⟨n + 1, by omega, .step h he⟩

/-- A step at a label without a wire header is what `labelStep` says. -/
theorem EndsWithin.label {k l : Nat} {q' : Seq} {c' : Running} {s' : State}
    (h : ∀ x, labelStep (during q c x s) = during q' c' x s') (rest : EndsWithin k q' c' s' t)
    (hl : k < l := by omega) (hw : ∀ x, wireHeader (during q c x s) = none := by exact fun _ => rfl) :
    EndsWithin l q c s t :=
  .step (fun x => by rw [proceed, hw, h]) rest

theorem EndsWithin.mono {k l : Nat} (h : EndsWithin k q c s t) (hl : k ≤ l) : EndsWithin l q c s t := by
  obtain ⟨n, hn, he⟩ := h
  exact ⟨n, hn.trans hl, he⟩

/-- With only quiet inputs at the port, a labelled step takes one of them and proceeds. -/
theorem step_during_quiet {p : List HostInput} (hp : ∀ y ∈ p, y = .quiet) :
    step (during q c ⟨p, false⟩ s) = proceed (during q c ⟨p.drop 1, false⟩ s) := by
  cases p with
  | nil => exact step_proceeds (.inl ⟨rfl, rfl⟩)
  | cons y rest =>
    obtain rfl : y = .quiet := hp _ List.mem_cons_self
    exact step_proceeds (.inr ⟨rest, rfl, rfl⟩)

/-- An undisturbed run of labelled steps, as steps of the machine. -/
theorem Ends.steps_quiet {n : Nat} (h : Ends n q c s t) (p : List HostInput) (hp : ∀ y ∈ p, y = .quiet) :
    steps n (during q c ⟨p, false⟩ s) = .next (taken t (p.drop n)) := by
  induction h generalizing p with
  | last h => rw [steps, step_during_quiet hp, h, on_undisturbed]; rfl
  | step h _ ih =>
    rw [steps, step_during_quiet hp, h]
    dsimp only
    rw [ih _ fun y hy => hp y (List.mem_of_mem_drop hy), List.drop_drop, Nat.add_comm]

/-! ### The handshake -/

theorem replyOf_cases (h : Header) : replyOf h = .notReady ∨ ∃ wcap rcap, replyOf h = .ready wcap rcap := by
  rw [replyOf_eq]
  split
  · exact .inr ⟨_, _, rfl⟩
  · exact .inl rfl

theorem handshake_of_reply {d : Dir} {m : State} (h : handshakeXfer d s = (true, m)) :
    handshake d s = (replyOf m.hsbuf, m) := by simp [handshake, h]

theorem handshake_of_fault {d : Dir} {m : State} (h : handshakeXfer d s = (false, m)) :
    handshake d s = (.comm, m) := by simp [handshake, h]

theorem handshakeXfer_csN {d : Dir} {ok : Bool} {m : State} (h : handshakeXfer d s = (ok, m)) : m.csN = s.csN := by
  have hf := handshakeXfer_frame d s
  rw [h] at hf
  dsimp only at hf
  rw [hf]

theorem sendHeader_during_reply {d : Dir} {m : State} (reply exit : Seq) (hc : s.csN = false)
    (h : handshakeXfer d s = (true, m)) (x : Meanwhile) :
    sendHeader d q reply exit (during q c x s) = .next (during reply c x m) := by
  unfold sendHeader
  rw [if_pos ⟨rfl, hc⟩, handshakeXfer_during, h]
  rfl

theorem sendHeader_during_fault {d : Dir} {m : State} (reply exit : Seq) (hc : s.csN = false)
    (h : handshakeXfer d s = (false, m)) (x : Meanwhile) :
    sendHeader d q reply exit (during q c x s) = .next (during exit { c with res := .errComm } x m) := by
  unfold sendHeader
  rw [if_pos ⟨rfl, hc⟩, handshakeXfer_during, h]
  rfl

theorem proceed_w2reply_ready {wcap rcap : Half} (hc : s.csN = false) (h : replyOf s.hsbuf = .ready wcap rcap)
    (x : Meanwhile) : proceed (during .w2reply c x s) = .next (acceptWcap wcap (during .w2reply c x s)) := by
  simp [proceed, wireHeader, h, exec, execHsReady, hc]

theorem proceed_p3reply_ready {wcap rcap : Half} (hc : s.csN = false) (h : replyOf s.hsbuf = .ready wcap rcap)
    (x : Meanwhile) : proceed (during .p3reply c x s) = .next (during .p4 c x { s with rRem := rcap }) := by
  have hrun : proceed (during .p3reply c x s) = .next (acceptRcap rcap (during .p3reply c x s)) := by
    simp [proceed, wireHeader, h, exec, execHsReady, hc]
  exact hrun

theorem proceed_w2reply_notReady (h : replyOf s.hsbuf = .notReady) (x : Meanwhile) :
    proceed (during .w2reply c x s) = .next (during .w9 { c with res := .notReady } x s) := by
  simp [proceed, wireHeader, h, labelStep, replyNotReady, leave_during]

theorem proceed_p3reply_notReady (h : replyOf s.hsbuf = .notReady) (x : Meanwhile) :
    proceed (during .p3reply c x s) = .next (during .p9 { c with res := .notReady } x s) := by
  simp [proceed, wireHeader, h, labelStep, replyNotReady, leave_during]

/-! ### WRITE -/

theorem writeString_during_ok {bs : List Byte} {m : State} (onOk : State → State) (h : busWrite bs s = (.ok, m))
    (x : Meanwhile) : writeString bs onOk (during q c x s) = onOk (during q c x m) := by
  rw [writeString, busWrite_during, h]

theorem writeString_during_fault {bs : List Byte} {m : State} (onOk : State → State)
    (h : busWrite bs s = (.commFault, m)) (x : Meanwhile) :
    writeString bs onOk (during q c x s) = during .w9 { c with res := .errComm } x m := by
  rw [writeString, busWrite_during, h]
  rfl

/-- WRITE past its capacity check: the two transfers of @W3 and @W4 (R161). -/
def sendStrings (hdrs pays : List Byte) (s : State) : Res × State :=
  match busWrite hdrs s with
  | (.commFault, m) => (.errComm, m)
  | (.ok, m) => match busWrite pays m with
    | (.commFault, u) => (.errComm, u)
    | (.ok, u) => (.ok, u)

theorem writeBody_comm {hdrs pays : List Byte} {m : State} (h : handshake .write s = (.comm, m)) :
    writeBody hdrs pays s = (.errComm, m) := by
  rw [writeBody, h]

theorem writeBody_notReady {hdrs pays : List Byte} {m : State} (h : handshake .write s = (.notReady, m)) :
    writeBody hdrs pays s = (.notReady, m) := by
  rw [writeBody, h]

theorem writeBody_ready {hdrs pays : List Byte} {m : State} {wcap rcap : Half}
    (h : handshake .write s = (.ready wcap rcap, m)) : writeBody hdrs pays s =
      if wcap.toNat < hdrs.length + pays.length then (.notReady, m) else sendStrings hdrs pays m := by
  rw [writeBody, h]
  rfl

/-- The end of a WRITE's bus phase: chip-select is released and the command completes (R166). -/
def release (b : Res × State) : State := complete { res := b.1 } (setCS true b.2)

theorem endsWithin_w9 (c : Running) (s : State) : EndsWithin 1 .w9 c s (release (c.res, s)) := .last fun _ => rfl

theorem endsWithin_w3 (hdrs pays : List Byte) (r : Res) (s : State) :
    EndsWithin 3 .w3 ⟨.write hdrs pays, r⟩ s (release (sendStrings hdrs pays s)) := by
  unfold sendStrings
  rcases h3 : busWrite hdrs s with ⟨out, m⟩
  cases out with
  | commFault => exact .label (writeString_during_fault _ h3) (endsWithin_w9 _ m)
  | ok =>
    refine .label (k := 2) (writeString_during_ok _ h3) ?_
    dsimp only
    rcases h4 : busWrite pays m with ⟨out, u⟩
    cases out with
    | commFault => exact .label (writeString_during_fault _ h4) (endsWithin_w9 _ u)
    | ok => exact .label (writeString_during_ok _ h4) (endsWithin_w9 _ u)

theorem acceptWcap_during {hdrs pays : List Byte} {r : Res} {wcap : Half} (x : Meanwhile) :
    acceptWcap wcap (during q ⟨.write hdrs pays, r⟩ x s) =
      if wcap.toNat < hdrs.length + pays.length then during .w9 ⟨.write hdrs pays, .notReady⟩ x s
      else during .w3 ⟨.write hdrs pays, r⟩ x s := rfl

theorem endsWithin_w2 (hdrs pays : List Byte) (r : Res) (hc : s.csN = false) :
    EndsWithin 5 .w2 ⟨.write hdrs pays, r⟩ s (release (writeBody hdrs pays s)) := by
  rcases hx : handshakeXfer .write s with ⟨ok, m⟩
  have hcm : m.csN = false := (handshakeXfer_csN hx).trans hc
  cases ok with
  | false =>
    rw [writeBody_comm (handshake_of_fault hx)]
    exact .step (sendHeader_during_fault _ _ hc hx) (endsWithin_w9 _ m)
  | true =>
    have hh := handshake_of_reply hx
    refine .step (k := 4) (sendHeader_during_reply _ _ hc hx) ?_
    rcases replyOf_cases m.hsbuf with h | ⟨wcap, rcap, h⟩ <;> rw [h] at hh
    · rw [writeBody_notReady hh]
      exact .step (proceed_w2reply_notReady h) (endsWithin_w9 _ m)
    · rw [writeBody_ready hh]
      have hp := proceed_w2reply_ready (c := ⟨.write hdrs pays, r⟩) hcm h
      simp only [acceptWcap_during] at hp
      split at hp
      · rw [if_pos ‹_›]
        exact .step hp (endsWithin_w9 _ m)
      · rw [if_neg ‹_›]
        exact .step hp (endsWithin_w3 hdrs pays r m)

/-- WRITE from @W1: its labelled steps end where its atomic execution does (R161). -/
theorem endsWithin_write (hdrs pays : List Byte) (r : Res) (s : State) :
    EndsWithin 6 .w1 ⟨.write hdrs pays, r⟩ s (runWrite hdrs pays s) :=
  .label (fun _ => rfl) (endsWithin_w2 hdrs pays r (s := setCS false s) rfl)

/-! ### PULL and READ -/

/-- What follows PullBody(): PULL completes with its result, READ extracts a frame (R167, R210). -/
def afterPull (i : Instr) (b : Res × State) : State :=
  if i = .read then finishRead b.1 b.2 else complete { res := b.1 } b.2

theorem endPull_during_read {r : Res} (h : c.cmd = .read) (x : Meanwhile) :
    endPull r (during q c x s) = during .r2 { c with res := r } x s := by
  have hr : curIsRead (during q c x s) = true := decide_eq_true h
  rw [endPull, hr]
  rfl

theorem endPull_during_pull {r : Res} (h : c.cmd ≠ .read) (x : Meanwhile) :
    endPull r (during q c x s) = x.on (complete { res := r } s) := by
  have hr : curIsRead (during q c x s) = false := decide_eq_false h
  rw [endPull, hr]
  rfl

/-- @R2 (R210). -/
theorem endsWithin_r2 (c : Running) (s : State) : EndsWithin 1 .r2 c s (finishRead c.res s) :=
  .last fun x => congrArg _ (finishRead_during s c .r2 x c.res)

/-- The label that ends a pull; READ takes one more step. -/
theorem endsWithin_endPull {r : Res} {m : State} (h : ∀ x, labelStep (during q c x s) = endPull r (during q c x m))
    (hw : ∀ x, wireHeader (during q c x s) = none) : EndsWithin 2 q c s (afterPull c.cmd (r, m)) := by
  unfold afterPull
  split
  case isTrue hread =>
    exact .label (fun x => (h x).trans (endPull_during_read hread x)) (endsWithin_r2 _ m) (hw := hw)
  case isFalse hpull =>
    have hlast : EndsWithin 1 q c s (complete { res := r } m) :=
      .last fun x => by rw [proceed, hw, h, endPull_during_pull hpull]
    exact hlast.mono (by omega)

/-- The end of a pull's bus phase: chip-select is released, and the pull ends (R167). -/
def deselect (b : Res × State) : Res × State := (b.1, setCS true b.2)

/-- @P9. -/
theorem endsWithin_p9 (c : Running) (s : State) : EndsWithin 2 .p9 c s (afterPull c.cmd (deselect (c.res, s))) :=
  endsWithin_endPull (fun _ => rfl) fun _ => rfl

/-- @P4 where the loop is over (R170). -/
theorem endsWithin_p4_done (c : Running) (h : windowLen s = 0) :
    EndsWithin 3 .p4 c s (afterPull c.cmd (deselect (.ok, s))) := by
  have hw : wantsWindow s = false :=
    Bool.eq_false_iff.mpr fun hwants => by have := (wantsWindow_iff s).mp hwants; omega
  refine .label (fun x => ?_) (endsWithin_p9 { c with res := .ok } s)
  rw [labelStep_p4, stepP4, wantsWindow_during, hw]
  rfl

/-- @P4 where a window is opened (R170). -/
theorem labelStep_p4_open (c : Running) (h : 0 < windowLen s) (x : Meanwhile) :
    labelStep (during .p4 c x s) = during .p5 c x (openWindow s) := by
  rw [labelStep_p4, stepP4, wantsWindow_during, (wantsWindow_iff s).mpr h, openWindow_during]
  rfl

/-- @P5 where the window's transfer succeeds (R170). -/
theorem labelStep_p5_ok (c : Running) {m : State} (h : moveWindow s = (true, m)) (x : Meanwhile) :
    labelStep (during .p5 c x s) = during .p4 c x m := by
  rw [labelStep_p5, stepP5, moveWindow_during, h]
  rfl

/-- @P5 where it faults (R172). -/
theorem labelStep_p5_fault (c : Running) {m : State} (h : moveWindow s = (false, m)) (x : Meanwhile) :
    labelStep (during .p5 c x s) = during .p9 { c with res := .errComm } x m := by
  rw [labelStep_p5, stepP5, moveWindow_during, h]
  rfl

/-- A window moved without a fault, seen from its result (R170). -/
theorem moved_of_moveWindow (hr : RingInv s) {m : State} (h : moveWindow (openWindow s) = (true, m)) :
    ∃ bs out, Moved (windowLen s) s m bs (s.rRem.toNat - windowLen s) out := by
  cases hf : (nextDraw s).1.commFault with
  | false =>
    obtain ⟨u, hu, hm⟩ := moveWindow_ok hr hf
    obtain rfl : u = m := congrArg Prod.snd (hu.symm.trans h)
    exact ⟨_, _, hm⟩
  | true =>
    obtain ⟨u, hu, -⟩ := moveWindow_fault hr hf
    cases hu.symm.trans h

/-- The pull loop from `s` moves at most `w` windows before it is over. -/
def WindowsWithin : Nat → State → Prop
  | 0, s => windowLen s = 0
  | w + 1, s => ∀ m, moveWindow (openWindow s) = (true, m) → WindowsWithin w m

/-- A pull moves at most two windows (R173). -/
theorem windowsWithin_two (hr : RingInv s) : WindowsWithin 2 s := by
  intro m hm u hu
  obtain ⟨bs, out, hm⟩ := moved_of_moveWindow hr hm
  obtain ⟨bs', out', hu⟩ := moved_of_moveWindow hm.ring hu
  exact windowLen_third hr hm hu

/-- The pull loop from @P4: two labelled steps a window, one that ends the loop, and two that end the pull. -/
theorem endsWithin_p4 (w turns : Nat) (c : Running) (hr : RingInv s) (hw : WindowsWithin w s)
    (hturns : s.rRem.toNat ≤ turns) :
    EndsWithin (2 * w + 3) .p4 c s (afterPull c.cmd (deselect (pullLoop turns s))) := by
  induction w generalizing s turns with
  | zero => rw [pullLoop_done turns hw]; exact endsWithin_p4_done c hw
  | succ w ih =>
    by_cases h0 : windowLen s = 0
    · rw [pullLoop_done turns h0]
      exact (endsWithin_p4_done c h0).mono (by omega)
    have hpos : 0 < windowLen s := by omega
    have hrem := windowLen_le_rem s
    obtain ⟨turns, rfl⟩ : ∃ k, turns = k + 1 := ⟨turns - 1, by omega⟩
    rcases hm : moveWindow (openWindow s) with ⟨ok, m⟩
    refine .label (k := 2 * w + 4) (labelStep_p4_open c hpos) ?_
    cases ok with
    | false =>
      rw [pullLoop_stop turns hpos hm]
      exact .label (labelStep_p5_fault c hm) (endsWithin_p9 _ m)
    | true =>
      obtain ⟨bs, out, hmoved⟩ := moved_of_moveWindow hr hm
      have hleft := hmoved.rem
      rw [pullLoop_next turns hpos hm]
      exact .label (labelStep_p5_ok c hm) (ih turns hmoved.ring (hw m hm) (by omega))

theorem pullTransfer_comm {m : State} (h : handshake .read s = (.comm, m)) : pullTransfer s = (.errComm, m) := by
  rw [pullTransfer, h]

theorem pullTransfer_notReady {m : State} (h : handshake .read s = (.notReady, m)) :
    pullTransfer s = (.notReady, m) := by
  rw [pullTransfer, h]

theorem pullTransfer_ready {m : State} {wcap rcap : Half} (h : handshake .read s = (.ready wcap rcap, m)) :
    pullTransfer s = pullLoop rcap.toNat { m with rRem := rcap } := by
  rw [pullTransfer, h]

theorem handshake_ring {d : Dir} {o : HsOutcome} {m : State} (hr : RingInv s) (h : handshake d s = (o, m)) :
    RingInv m := by
  have hf := handshake_frame d s
  rw [h] at hf
  dsimp only at hf
  rw [hf]
  exact ring_congr hr rfl rfl rfl rfl

/-- A pull from its handshake on (R167). -/
theorem endsWithin_p3 (c : Running) (hr : RingInv s) (hc : s.csN = false) :
    EndsWithin 9 .p3 c s (afterPull c.cmd (deselect (pullTransfer s))) := by
  rcases hx : handshakeXfer .read s with ⟨ok, m⟩
  have hcm : m.csN = false := (handshakeXfer_csN hx).trans hc
  cases ok with
  | false =>
    rw [pullTransfer_comm (handshake_of_fault hx)]
    exact .step (sendHeader_during_fault _ _ hc hx) (endsWithin_p9 _ m)
  | true =>
    have hh := handshake_of_reply hx
    refine .step (k := 8) (sendHeader_during_reply _ _ hc hx) ?_
    rcases replyOf_cases m.hsbuf with h | ⟨wcap, rcap, h⟩ <;> rw [h] at hh
    · rw [pullTransfer_notReady hh]
      exact .step (proceed_p3reply_notReady h) (endsWithin_p9 _ m)
    · rw [pullTransfer_ready hh]
      have hrm : RingInv { m with rRem := rcap } := ring_congr (handshake_ring hr hh) rfl rfl rfl rfl
      exact .step (proceed_p3reply_ready hcm h)
        (endsWithin_p4 2 rcap.toNat c hrm (windowsWithin_two hrm) (Nat.le_refl _))

/-- PullBody() from @P1, and what follows it (R167, R210). -/
theorem endsWithin_p1 (c : Running) (hr : RingInv s) : EndsWithin 11 .p1 c s (afterPull c.cmd (pullBody s)) := by
  cases ha : asserted s.cfg (nextDraw s).1.level with
  | false =>
    rw [pullBody_gated ha]
    have hp1 (x : Meanwhile) : labelStep (during .p1 c x s) =
        endPull .notReady (during .p1 c x (emit (.rdys false) (nextDraw s).2)) := by
      rw [labelStep_p1, stepP1, sampleRdy_during, sampleRdy, ha]
    exact (endsWithin_endPull hp1 fun _ => rfl).mono (by omega)
  | true =>
    rw [pullBody_selected ha]
    have hp1 (x : Meanwhile) : labelStep (during .p1 c x s) =
        during .p2 c x (emit (.rdys true) (nextDraw s).2) := by
      rw [labelStep_p1, stepP1, sampleRdy_during, sampleRdy, ha]
      rfl
    refine .label (k := 10) hp1 (.label (fun _ => rfl) (endsWithin_p3 c ?_ rfl))
    exact ring_congr hr rfl rfl rfl rfl

/-- @X1 (R192). -/
theorem endsWithin_x1 (c : Running) (s : State) : EndsWithin 1 .x1 c s (runExtract s) :=
  .last fun x => congrArg _ (runExtract_during s c .x1 x)

/-! ### The two grains -/

/-- From its first label, every command with labels ends where its atomic execution does. -/
theorem endsWithin_exec {i : Instr} {label : Seq} (hr : RingInv s) (hready : Ready s) (hl : firstLabel i = some label) :
    ∃ t, exec i s = .next t ∧ EndsWithin 12 label ⟨i, .ok⟩ s t := by
  cases i with
  | write hdrs pays =>
    obtain rfl : Seq.w1 = label := Option.some.inj hl
    exact ⟨_, enter_ready hready _, (endsWithin_write hdrs pays .ok s).mono (by omega)⟩
  | read =>
    obtain rfl : Seq.r1 = label := Option.some.inj hl
    exact ⟨_, enter_ready hready _, .label (fun _ => rfl) (endsWithin_p1 ⟨.read, .ok⟩ hr)⟩
  | pull =>
    obtain rfl : Seq.p1 = label := Option.some.inj hl
    exact ⟨_, enter_ready hready _, (endsWithin_p1 ⟨.pull, .ok⟩ hr).mono (by omega)⟩
  | extract =>
    obtain rfl : Seq.x1 = label := Option.some.inj hl
    exact ⟨_, enter_ready hready _, (endsWithin_x1 _ s).mono (by omega)⟩
  | rdreg | rbContig | rbFill | rbAvail | rbPeek | rbTake | hsWreq | hsRreq | hsReady => cases hl

/-- Settles O46: the labelled run and the atomic execution are compared label by label through `during`. -/
theorem labelledStepsEqualCommand : Obligations.LabelledStepsEqualCommand := by
  intro s i label hinv hready hquiet hl
  obtain ⟨t, hexec, n, hn, hends⟩ := endsWithin_exec hinv.ring hready hl
  refine ⟨n, t, hn, hexec, ?_⟩
  rw [startAt_eq_during]
  exact hends.steps_quiet s.port hquiet

end Sys2Proof.Machine

/-! PROOFS. Progress and preservation: from a state that meets the invariant every step answers a next state, and one that
meets it too (R24, R31, R32, R35, R44, R46). -/

namespace Sys2Proof.Machine

variable {s t m : State} {b : Bool} {q : Seq}

/-! ### The part of the invariant that concerns neither the sequencer nor the command in progress -/

theorem busLevel_append (trace : List BusEvent) (e : BusEvent) :
    busLevel (trace ++ [e]) = levelAfter (busLevel trace) e := by simp [busLevel]

/-- The stores, the fault pair and the bus of a state that meets `Inv`, with chip-select at `level`. -/
structure Sound (level : Bool) (s : State) : Prop where
  legal : s.cfg.Legal
  ring : RingInv s
  rbWf : s.rb.wf (capN s) = true
  fbufWf : s.fbuf.wf Config.frameMax = true
  flenLe : s.flen.toNat ≤ Config.frameMax
  causeIff : s.fault = true ↔ s.faultCause ≠ .none
  csLevel : s.csN = level
  traceLevel : busLevel s.trace = level

theorem Inv.sound (h : Inv s) (hq : s.seq = q) : Sound (!q.selected) s := by
  subst hq
  exact { h with traceLevel := h.traceLevel.trans h.csLevel }

/-- The labels of one phase run the same commands. -/
theorem Inv.runsAt (h : Inv s) (hq : s.seq = q) {q' : Seq} (hp : running q' = running q := by rfl) :
    running q' s.cur = true := by
  rw [hp, ← hq]
  exact h.runs

/-- The invariant, from its two parts. -/
theorem Sound.inv (h : Sound b m) (hb : b = !m.seq.selected) (hr : running m.seq m.cur = true)
    (hw : m.seq = .p5 → 1 ≤ m.winK.toNat ∧ m.winK.toNat ≤ contigLen m ∧ m.winK.toNat ≤ m.rRem.toNat) : Inv m where
  legal := h.legal
  ring := h.ring
  rbWf := h.rbWf
  fbufWf := h.fbufWf
  flenLe := h.flenLe
  causeIff := h.causeIff
  csLevel := h.csLevel.trans hb
  traceLevel := h.traceLevel.trans h.csLevel.symm
  runs := hr
  window := hw

/-- Fields that `Sound` does not speak of may change. -/
theorem Sound.of_frame (h : Sound b s) (hf : t = { s with
    hsbuf := t.hsbuf, lastRes := t.lastRes, rRem := t.rRem, winK := t.winK, seq := t.seq, cur := t.cur, out := t.out
    env := t.env, port := t.port, fresh := t.fresh }) : Sound b t := by
  rw [hf]
  exact { h with ring := ring_congr h.ring rfl rfl rfl rfl }

/-- The invariant at a label where no window is open. -/
theorem Sound.goto (h : Sound b m) {c : Option Running} (hr : running q c = true) (hb : b = !q.selected := by rfl)
    (hq : q ≠ .p5 := by decide) : Inv { m with seq := q, cur := c } :=
  (h.of_frame rfl).inv hb hr fun hp => absurd hp hq

/-- The port is no part of the invariant. -/
theorem inv_taken (h : Inv s) (p : List HostInput) : Inv (taken s p) :=
  ((h.sound rfl).of_frame rfl).inv rfl h.runs h.window

theorem inv_of_taken {p : List HostInput} (h : Inv (taken s p)) : Inv s := inv_taken h s.port

/-! ### The bus and the stores -/

theorem Sound.emit (h : Sound b s) {e : BusEvent} (he : levelAfter b e = b) : Sound b (emit e s) where
  legal := h.legal
  ring := ring_congr h.ring rfl rfl rfl rfl
  rbWf := h.rbWf
  fbufWf := h.fbufWf
  flenLe := h.flenLe
  causeIff := h.causeIff
  csLevel := h.csLevel
  traceLevel := by rw [emit_trace, busLevel_append, h.traceLevel, he]

theorem Sound.setCS (h : Sound b s) (level : Bool) : Sound level (setCS level s) where
  legal := h.legal
  ring := ring_congr h.ring rfl rfl rfl rfl
  rbWf := h.rbWf
  fbufWf := h.fbufWf
  flenLe := h.flenLe
  causeIff := h.causeIff
  csLevel := rfl
  traceLevel := by rw [setCS_trace, busLevel_append]; rfl

theorem Sound.sampleRdy (h : Sound b s) : Sound b (sampleRdy s).2 :=
  (h.of_frame (nextDraw_state s)).emit rfl

theorem Sound.handshakeXfer (h : Sound b s) (d : Dir) : Sound b (handshakeXfer d s).2 := by
  rw [handshakeXfer_frame]
  exact (h.emit (e := .xfer _ _) rfl).of_frame rfl

theorem Sound.rbFill (h : Sound b s) {bs : List Byte} (hl : bs.length ≤ contigLen s) : Sound b (rbFill bs s) :=
  { h with ring := rbFill_ring h.ring hl, rbWf := rbFill_wf hl h.ring.wpLt h.rbWf }

theorem Sound.dropHead (h : Sound b s) {n : Nat} (hn : n ≤ s.cnt.toNat) : Sound b (dropHead n s) :=
  { h with ring := dropHead_ring h.ring hn }

theorem Sound.storeFrame (h : Sound b s) {f : List Byte} (hf : f.length ≤ Config.frameMax) : Sound b (storeFrame f s) where
  legal := h.legal
  ring := ring_congr h.ring rfl rfl rfl rfl
  rbWf := h.rbWf
  fbufWf := storeFrame_wf hf h.fbufWf
  flenLe := by
    rw [storeFrame_flen, BitVec.toNat_ofNat]
    exact (Nat.mod_le _ _).trans hf
  causeIff := h.causeIff
  csLevel := h.csLevel
  traceLevel := h.traceLevel

theorem Moved.sound {k rem : Nat} {bs : List Byte} {out : XferOutcome} (hm : Moved k s t bs rem out) (h : Sound b s) :
    Sound b t := by
  have hd : Sound b (Machine.emit (.xfer (zeros k) out) s) := h.emit rfl
  have hf := hm.frame
  have hcap : capN t = capN s := by rw [hf]; rfl
  refine ⟨?_, hm.ring, by rw [hcap]; exact hm.rbWf h.rbWf, ?_, ?_, ?_, ?_, ?_⟩ <;> rw [hf]
  · exact hd.legal
  · exact hd.fbufWf
  · exact hd.flenLe
  · exact hd.causeIff
  · exact hd.csLevel
  · exact hd.traceLevel

/-- An open window that fits is moved and committed, whatever the environment answers (R170, R172). -/
theorem Sound.moveWindow (h : Sound b s) (hk : s.winK.toNat ≤ contigLen s) : Sound b (moveWindow s).2 := by
  cases hf : (nextDraw s).1.commFault with
  | false =>
    obtain ⟨u, hu, hm⟩ := moveWindow_commits h.ring hk hf
    rw [hu]; exact hm.sound h
  | true =>
    obtain ⟨u, hu, hm⟩ := moveWindow_commits_fault h.ring hk hf
    rw [hu]; exact hm.sound h

/-! ### The end of a command -/

theorem Sound.inv_complete (h : Sound true m) (o : Output) : Inv (complete o m) :=
  (h.of_frame rfl).inv rfl rfl nofun

/-- A fault recorded with its cause (R233). -/
theorem Sound.record (h : Sound b m) {c : Cause} (hc : c ≠ .none) : Sound b { m with fault := true, faultCause := c } where
  legal := h.legal
  ring := ring_congr h.ring rfl rfl rfl rfl
  rbWf := h.rbWf
  fbufWf := h.fbufWf
  flenLe := h.flenLe
  causeIff := by simp [hc]
  csLevel := h.csLevel
  traceLevel := h.traceLevel

theorem Sound.inv_raise (h : Sound true m) {c : Cause} (hn : c ≠ .none) (hc : c ≠ .reentry) : Inv (raise c m) := by
  cases hf : m.fault with
  | false =>
    rw [raise_first m hc hf]
    exact ((h.record hn).of_frame rfl).inv rfl rfl nofun
  | true =>
    have he : raise c m = { m with seq := .idle, cur := none, out := none } := by simp [raise, hf, hc]
    rw [he]
    exact (h.of_frame rfl).inv rfl rfl nofun

/-- An overlap leaves the command in progress as it is (R244). -/
theorem inv_reentry (h : Inv s) : Inv (raise .reentry s) := by
  have hc : (if s.fault then s.faultCause else .reentry) ≠ .none := by
    cases hf : s.fault with
    | false => simp
    | true => exact h.causeIff.mp hf
  rw [raise_reentry]
  exact (((h.sound rfl).record hc).of_frame rfl).inv rfl h.runs h.window

theorem Sound.inv_finishRead (h : Sound true m) (p : Res) : Inv (finishRead p m) := by
  unfold finishRead
  rcases extractStep_cases m with hx | hx | ⟨n, v, hn, hmax, hx⟩ <;> rw [hx]
  · exact h.inv_complete _
  · exact h.inv_raise (by simp) (by simp)
  · exact ((h.dropHead hn).storeFrame (by simpa using hmax)).inv_complete _

/-- The block right after reset, from any state (R260). -/
theorem inv_resetBlock (h : s.cfg.Legal) : Inv (resetBlock s) where
  legal := h
  ring := ⟨h.1, Nat.zero_le _, h.1, h.1, (Nat.zero_mod _).symm⟩
  rbWf := empty_wf _ _
  fbufWf := empty_wf _ _
  flenLe := Nat.zero_le _
  causeIff := by simp [resetBlock]
  csLevel := rfl
  traceLevel := busLevel_append _ _
  runs := rfl
  window := nofun

/-! ### The labelled steps -/

theorem running_map (q : Seq) (c : Option Running) (r : Res) :
    running q (c.map fun c => { c with res := r }) = running q c := by
  cases q <;> cases c <;> rfl

theorem running_r2 (h : curIsRead s = true) : running .r2 s.cur = true := by
  cases hc : s.cur <;> simp_all [curIsRead, running]

/-- READ runs the labels of a pull (R210). -/
theorem running_p1_of_r1 {c : Option Running} (h : running .r1 c = true) : running .p1 c = true := by
  cases c <;> simp_all [running, pulls]

theorem Sound.inv_leave (h : Sound b m) (r : Res) (hr : running q m.cur = true) (hb : b = !q.selected := by rfl)
    (hq : q ≠ .p5 := by decide) : Inv (leave r q m) :=
  h.goto ((running_map q m.cur r).trans hr) hb hq

/-- The end of a pull, with chip-select released (R167, R210). -/
theorem Sound.inv_endPull (h : Sound true m) (r : Res) : Inv (endPull r m) := by
  unfold endPull
  split
  case isTrue hread => exact h.inv_leave r (running_r2 hread)
  case isFalse => exact h.inv_complete _

theorem Sound.inv_writeString (h : Sound false s) (hr : running .w9 s.cur = true) (bs : List Byte) {onOk : State → State}
    (hok : ∀ m, Sound false m → m.cur = s.cur → Inv (onOk m)) : Inv (writeString bs onOk s) := by
  obtain ⟨m, out, rfl, he⟩ := writeString_spec bs onOk s
  have hm : Sound false (Machine.emit (.wro bs out) (nextDraw s).2) := (h.of_frame (nextDraw_state s)).emit rfl
  rw [he]
  cases out with
  | ok => exact hok _ hm rfl
  | commFault => exact hm.inv_leave .errComm hr

theorem Sound.inv_stepP1 (h : Sound true s) (hr : running .p2 s.cur = true) : Inv (stepP1 s) := by
  have hm := h.sampleRdy
  unfold stepP1
  unfold Machine.sampleRdy at hm ⊢
  dsimp only at hm ⊢
  cases ha : asserted s.cfg (nextDraw s).1.level <;> rw [ha] at hm
  · exact hm.inv_endPull _
  · exact hm.goto hr

/-- A window that @P4 opens fits (R170). -/
theorem Sound.inv_stepP4 (h : Sound false s) (hr : running .p5 s.cur = true) : Inv (stepP4 s) := by
  unfold stepP4
  split
  case isTrue hw =>
    have hpos := (wantsWindow_iff s).mp hw
    refine (h.of_frame rfl).inv rfl hr fun _ => ?_
    have hk := openWindow_winK_toNat s
    exact ⟨hk ▸ hpos, hk ▸ windowLen_le s, hk ▸ windowLen_le_rem s⟩
  case isFalse => exact h.inv_leave .ok hr

theorem moveWindow_cur (s : State) : (moveWindow s).2.cur = s.cur := by
  obtain ⟨e, hf⟩ := moveWindow_frame s
  rw [hf]

theorem Sound.inv_stepP5 (h : Sound false s) (hk : s.winK.toNat ≤ contigLen s) (hr : running .p4 s.cur = true) :
    Inv (stepP5 s) := by
  have hm := h.moveWindow hk
  have hc := moveWindow_cur s
  unfold stepP5
  rcases hx : Machine.moveWindow s with ⟨ok, m⟩
  rw [hx] at hm hc
  cases ok with
  | true => exact hm.goto (hc ▸ hr)
  | false => exact hm.inv_leave .errComm (hc ▸ hr)

/-- A labelled step keeps the invariant. -/
theorem inv_labelStep (h : Inv s) : Inv (labelStep s) := by
  unfold labelStep
  cases hs : s.seq <;> dsimp only
  case idle | w2 | p3 => exact h
  case w1 => exact ((h.sound hs).setCS false).goto (h.runsAt hs)
  case w2reply => exact (h.sound hs).inv_leave .notReady (h.runsAt hs)
  case w3 => exact (h.sound hs).inv_writeString (h.runsAt hs) _ fun m hm hc => hm.goto (hc ▸ h.runsAt hs)
  case w4 => exact (h.sound hs).inv_writeString (h.runsAt hs) _ fun m hm hc => hm.inv_leave .ok (hc ▸ h.runsAt hs)
  case w9 => exact ((h.sound hs).setCS true).inv_complete _
  case p1 => exact (h.sound hs).inv_stepP1 (h.runsAt hs)
  case p2 => exact ((h.sound hs).setCS false).goto (h.runsAt hs)
  case p3reply => exact (h.sound hs).inv_leave .notReady (h.runsAt hs)
  case p4 => exact (h.sound hs).inv_stepP4 (h.runsAt hs)
  case p5 =>
    obtain ⟨-, hfits, -⟩ := h.window hs
    exact (h.sound hs).inv_stepP5 hfits (h.runsAt hs)
  case p9 => exact ((h.sound hs).setCS true).inv_endPull _
  case x1 => rw [runExtract_eq_finishRead]; exact (h.sound hs).inv_finishRead _
  case r1 => exact (h.sound hs).goto (running_p1_of_r1 (h.runsAt hs))
  case r2 => exact (h.sound hs).inv_finishRead _

/-! ### Progress and preservation -/

/-- The outcome is a next state, and one that meets the invariant. -/
def Safe (r : Host.Outcome State Fault Refusal) : Prop := ∃ t, r = .next t ∧ Inv t

theorem safe_next (h : Inv t) : Safe (.next t) := ⟨t, rfl, h⟩

/-- A request header at its place. -/
theorem sendHeader_safe (d : Dir) {here reply exit : Seq} (h : Sound false s) (hs : s.seq = here)
    (hreply : ∀ m, Sound false m → m.cur = s.cur → Inv { m with seq := reply })
    (hexit : ∀ m, Sound false m → m.cur = s.cur → Inv (leave .errComm exit m)) :
    Safe (sendHeader d here reply exit s) := by
  obtain ⟨m, ok, hx, he⟩ := sendHeader_spec d (reply := reply) (exit := exit) hs h.csLevel
  have hm := h.handshakeXfer d
  have hc : (handshakeXfer d s).2.cur = s.cur := by rw [handshakeXfer_frame]
  rw [hx] at hm hc
  rw [he]
  cases ok with
  | true => exact safe_next (hreply m hm hc)
  | false => exact safe_next (hexit m hm hc)

theorem inv_acceptWcap (h : Inv s) (hs : s.seq = .w2reply) (wcap : Half) : Inv (acceptWcap wcap s) := by
  unfold acceptWcap
  split
  · exact (h.sound hs).inv_leave .notReady (h.runsAt hs)
  · exact (h.sound hs).goto (h.runsAt hs)

theorem inv_acceptRcap (h : Inv s) (hs : s.seq = .p3reply) (rcap : Half) : Inv (acceptRcap rcap s) :=
  ((h.sound hs).of_frame rfl).inv rfl (h.runsAt hs) nofun

theorem execHsReady_safe (h : Inv s) (hs : s.seq = .w2reply ∨ s.seq = .p3reply) (wcap rcap : Half) :
    Safe (execHsReady wcap rcap s) := by
  unfold execHsReady
  rcases hs with hs | hs
  · rw [if_pos ⟨hs, (h.sound hs).csLevel⟩]
    exact safe_next (inv_acceptWcap h hs wcap)
  · rw [if_neg (by simp [hs]), if_pos ⟨hs, (h.sound hs).csLevel⟩]
    exact safe_next (inv_acceptRcap h hs rcap)

/-- Where the sequencer takes a wire header, and which. -/
theorem wireHeader_cases {i : Instr} (h : wireHeader s = some i) :
    s.seq = .w2 ∧ i = .hsWreq ∨ s.seq = .p3 ∧ i = .hsRreq ∨
      (s.seq = .w2reply ∨ s.seq = .p3reply) ∧ ∃ wcap rcap, i = .hsReady wcap rcap := by
  unfold wireHeader at h
  split at h
  case h_1 hs => exact .inl ⟨hs, (Option.some.inj h).symm⟩
  case h_2 hs => exact .inr (.inl ⟨hs, (Option.some.inj h).symm⟩)
  case h_5 => cases h
  case h_3 hs =>
    rcases replyOf_cases s.hsbuf with hr | ⟨w, r, hr⟩ <;> rw [hr] at h
    · cases h
    · exact .inr (.inr ⟨.inl hs, w, r, (Option.some.inj h).symm⟩)
  case h_4 hs =>
    rcases replyOf_cases s.hsbuf with hr | ⟨w, r, hr⟩ <;> rw [hr] at h
    · cases h
    · exact .inr (.inr ⟨.inr hs, w, r, (Option.some.inj h).symm⟩)

/-- With nothing presented the block goes on, and keeps the invariant. -/
theorem proceed_safe (h : Inv s) : Safe (proceed s) := by
  unfold proceed
  cases hw : wireHeader s with
  | none => exact safe_next (inv_labelStep h)
  | some i =>
    rcases wireHeader_cases hw with ⟨hs, rfl⟩ | ⟨hs, rfl⟩ | ⟨hs, wcap, rcap, rfl⟩
    · exact sendHeader_safe .write (h.sound hs) hs (fun m hm hc => hm.goto (hc ▸ h.runsAt hs))
        fun m hm hc => hm.inv_leave .errComm (hc ▸ h.runsAt hs)
    · exact sendHeader_safe .read (h.sound hs) hs (fun m hm hc => hm.goto (hc ▸ h.runsAt hs))
        fun m hm hc => hm.inv_leave .errComm (hc ▸ h.runsAt hs)
    · exact execHsReady_safe h hs wcap rcap

/-! ### Commands -/

/-- The outputs are no part of the invariant. -/
theorem inv_out (h : Inv s) (o : Option Output) : Inv { s with out := o } :=
  ((h.sound rfl).of_frame rfl).inv rfl h.runs h.window

theorem enter_safe (h : Inv s) {body : State → State} (hb : Ready s → Inv (body s)) : Safe (enter body s) := by
  by_cases hs : s.seq = .idle
  · cases hf : s.fault with
    | false => rw [enter_ready ⟨hs, hf⟩]; exact safe_next (hb ⟨hs, hf⟩)
    | true => rw [enter_faulted hs hf]; exact safe_next (inv_out h none)
  · rw [enter_busy hs]; exact safe_next (inv_reentry h)

theorem firstLabel_starts {i : Instr} (h : firstLabel i = some q) :
    q.selected = false ∧ q ≠ .p5 ∧ running q (some ⟨i, .ok⟩) = true := by
  cases i <;> cases h <;> simp [Seq.selected, running, writes, pulls]

theorem inv_startAt (h : Inv s) (hr : Ready s) {i : Instr} (hl : firstLabel i = some q) : Inv (startAt q i s) := by
  obtain ⟨hsel, hq, hrun⟩ := firstLabel_starts hl
  exact ((h.sound hr.1).of_frame rfl).inv (by rw [startAt_seq, hsel]; rfl) hrun fun hp => absurd hp hq

/-- A run of labelled steps ends in a state that meets the invariant. -/
theorem Ends.inv {n : Nat} {c : Running} (h : Ends n q c s t) (hi : Inv (during q c ⟨[], false⟩ s)) : Inv t := by
  induction h with
  | last hlast =>
    obtain ⟨u, hu, hinv⟩ := proceed_safe hi
    rw [hlast] at hu
    cases hu
    exact inv_of_taken hinv
  | step hstep _ ih =>
    obtain ⟨u, hu, hinv⟩ := proceed_safe hi
    rw [hstep] at hu
    cases hu
    exact ih hinv

/-- A command with labels keeps the invariant as one atomic step, because its labelled steps do and end in the same
state. -/
theorem inv_labelled (h : Inv s) (hr : Ready s) (i : Instr) (hl : firstLabel i = some q) (he : exec i s = .next t) :
    Inv t := by
  obtain ⟨u, hu, n, -, hends⟩ := endsWithin_exec h.ring hr hl
  rw [he] at hu
  cases hu
  exact hends.inv (inv_taken (inv_startAt h hr hl) [])

theorem exec_rdreg_idle (hs : s.seq = .idle) (reg : Half) : exec (.rdreg reg) s = .next (runRdreg reg s) := by
  simp [exec, execRdreg, hs]

/-- RDREG faults on a reserved number while FAULT = 0, and gives a value otherwise (R220). -/
theorem runRdreg_eq (reg : Half) (s : State) : runRdreg reg s =
    if readReg reg s = none ∧ s.fault = false then raise .illegalCmd s
    else { s with out := some { res := .ok, value := (readReg reg s).getD 0#16 } } := by
  unfold runRdreg
  cases readReg reg s <;> cases s.fault <;> rfl

theorem inv_runRdreg (h : Inv s) (hs : s.seq = .idle) (reg : Half) : Inv (runRdreg reg s) := by
  rw [runRdreg_eq]
  split
  · exact (h.sound hs).inv_raise (by simp) (by simp)
  · exact inv_out h _

theorem Sound.inv_runRbFill (h : Sound true s) (n : Half) (fills : List Byte) : Inv (runRbFill n fills s) := by
  unfold runRbFill
  split
  · exact h.inv_raise (by simp) (by simp)
  · split
    · exact h.inv_raise (by simp) (by simp)
    · exact (h.rbFill (by omega)).inv_complete _

theorem Sound.inv_runRbPeek (h : Sound true s) (offset : Half) : Inv (runRbPeek offset s) := by
  unfold runRbPeek
  split
  · exact h.inv_raise (by simp) (by simp)
  · exact h.inv_complete _

theorem Sound.inv_runRbTake (h : Sound true s) (n : Half) : Inv (runRbTake n s) := by
  unfold runRbTake
  split
  · exact h.inv_raise (by simp) (by simp)
  · exact (h.dropHead (by omega)).inv_complete _

/-- A command as one atomic step answers a next state, and keeps the invariant. -/
theorem exec_safe (h : Inv s) {i : Instr} (hi : IsCommand i) : Safe (exec i s) := by
  cases i with
  | write hdrs pays => exact enter_safe h fun hr => inv_labelled h hr (.write hdrs pays) rfl (enter_ready hr _)
  | read => exact enter_safe h fun hr => inv_labelled h hr .read rfl (enter_ready hr _)
  | pull => exact enter_safe h fun hr => inv_labelled h hr .pull rfl (enter_ready hr _)
  | extract => exact enter_safe h fun hr => inv_labelled h hr .extract rfl (enter_ready hr _)
  | rdreg reg =>
    by_cases hs : s.seq = .idle
    · rw [exec_rdreg_idle hs]; exact safe_next (inv_runRdreg h hs reg)
    · rw [exec_busy hs hi]; exact safe_next (inv_reentry h)
  | rbContig => exact enter_safe h fun hr => (h.sound hr.1).inv_complete _
  | rbFill n fills => exact enter_safe h fun hr => (h.sound hr.1).inv_runRbFill n fills
  | rbAvail => exact enter_safe h fun hr => (h.sound hr.1).inv_complete _
  | rbPeek offset => exact enter_safe h fun hr => (h.sound hr.1).inv_runRbPeek offset
  | rbTake n => exact enter_safe h fun hr => (h.sound hr.1).inv_runRbTake n
  | hsWreq => exact absurd rfl hi.1
  | hsRreq => exact absurd rfl hi.2.1
  | hsReady wcap rcap => exact absurd rfl (hi.2.2 wcap rcap)

/-! ### The step -/

/-- What stands at the host port: a reset, a command word, or nothing that is presented. -/
theorem port_cases (s : State) : (∃ rest, s.port = .rst :: rest) ∨ (∃ m, Unpresented s m) ∨
    ∃ w st rest, s.port = .call w st :: rest ∨ s.port = .present w st :: rest := by
  unfold Unpresented
  rcases s.port with - | ⟨_ | _ | _ | _, rest⟩ <;> simp

theorem inv_unpresented (h : Inv s) (hm : Unpresented s m) : Inv m := by
  rcases hm with ⟨-, rfl⟩ | ⟨rest, -, rfl⟩
  · exact h
  · exact inv_taken h rest

theorem illegalCommand_safe (h : Inv s) : Safe (illegalCommand s) :=
  enter_safe h fun hr => (h.sound hr.1).inv_raise (by simp) (by simp)

theorem step_reset {rest : List HostInput} (hp : s.port = .rst :: rest) :
    step s = .next (resetBlock (taken s rest)) := by
  simp [step, fetch, hp, taken]

/-- Progress and preservation of the whole machine. -/
theorem step_safe (h : Inv s) : Safe (step s) := by
  rcases port_cases s with ⟨rest, hp⟩ | ⟨m, hm⟩ | ⟨w, st, rest, hp⟩
  · rw [step_reset hp]
    exact safe_next (inv_resetBlock h.legal)
  · rw [step_proceeds hm]
    exact proceed_safe (inv_unpresented h hm)
  · have ht := inv_taken h rest
    cases hd : decode (.command w st) with
    | error e => rw [step_illegal hp hd]; exact illegalCommand_safe ht
    | ok i =>
      rcases step_command hp hd with he | ⟨label, hl, he⟩ <;> rw [he]
      · exact exec_safe ht (decode_command_not_header hd)
      · exact enter_safe ht fun hr => inv_startAt ht hr hl

/-- Settles O44: each label and each command keeps the invariant, and a step is one of these. -/
theorem stepKeepsInvariant : Obligations.StepKeepsInvariant := by
  intro s t h hstep
  obtain ⟨u, hu, hinv⟩ := step_safe h
  rw [hstep] at hu
  cases hu
  exact hinv

/-- Settles O45: a wire header is at its place with chip-select asserted, and nothing else can stop. -/
theorem stepNeverStops : Obligations.StepNeverStops := fun _ h =>
  let ⟨t, ht, _⟩ := step_safe h
  ⟨t, ht⟩

end Sys2Proof.Machine

/-! PROOFS. What a step leaves behind in any state: the trace (R45), the configuration (R49), LAST_RES (R29) and the
registers RDREG reads (R40, R41). -/

namespace Sys2Proof.Machine

variable {s t m : State}

/-! ### The trace and the configuration -/

theorem proceed_stepped (h : proceed s = .next t) : Stepped 1 s t := by
  refine label_step_stepped ?_
  rw [← h]
  unfold fetchLabel proceed
  cases wireHeader s <;> rfl

theorem Unpresented.stepped {n : Nat} (hm : Unpresented s m) (h : Stepped n m t) : Stepped n s t := by
  rcases hm with ⟨-, rfl⟩ | ⟨rest, -, rfl⟩ <;> exact ⟨h.cfg, h.grows, h.fault⟩

theorem illegalCommand_stepped (s : State) : ∃ t, illegalCommand s = .next t ∧ Stepped 0 s t :=
  enter_stepped _ (raise_stepped _ s)

/-- What a step on a presented command word keeps. -/
theorem presented_stepped {w : Word} {st : Strings} {rest : List HostInput}
    (hp : s.port = .call w st :: rest ∨ s.port = .present w st :: rest) :
    ∃ n t, step s = .next t ∧ Stepped n (taken s rest) t := by
  cases hd : decode (.command w st) with
  | error e => rw [step_illegal hp hd]; exact ⟨0, illegalCommand_stepped _⟩
  | ok i =>
    rcases step_command hp hd with he | ⟨label, -, he⟩ <;> rw [he]
    · exact exec_stepped (decode_command_not_header hd) _
    · exact ⟨0, enter_stepped _ (stepped_quiet 0 rfl rfl fun h => ⟨h, rfl⟩)⟩

theorem step_stepped (hrst : ∀ rest, s.port ≠ .rst :: rest) (h : step s = .next t) : ∃ n, Stepped n s t := by
  rcases port_cases s with ⟨rest, hp⟩ | ⟨m, hm⟩ | ⟨w, st, rest, hp⟩
  · exact absurd hp (hrst rest)
  · exact ⟨1, hm.stepped (proceed_stepped ((step_proceeds hm).symm.trans h))⟩
  · obtain ⟨n, u, hu, hs⟩ := presented_stepped hp
    rw [h] at hu
    cases hu
    exact ⟨n, hs.cfg, hs.grows, hs.fault⟩

/-- Settles O49: a reset keeps the configuration, and so does every other step. -/
theorem configurationIsFixed : Obligations.ConfigurationIsFixed := by
  intro s t h
  by_cases hp : ∃ rest, s.port = .rst :: rest
  · obtain ⟨rest, hp⟩ := hp
    rw [step_reset hp] at h
    cases h
    rfl
  · obtain ⟨n, hs⟩ := step_stepped (not_exists.mp hp) h
    exact hs.cfg

/-- With nothing presented, `s` goes on from a state that differs in its port alone. -/
theorem unpresented_of_quiet (hp : s.port = [] ∨ ∃ rest, s.port = .quiet :: rest) : ∃ m, Unpresented s m := by
  rcases hp with hp | ⟨rest, hp⟩
  · exact ⟨s, .inl ⟨hp, rfl⟩⟩
  · exact ⟨taken s rest, .inr ⟨rest, hp, rfl⟩⟩

/-- Settles O48: a reset adds RRST, a label or a wire header at most one event, a command those of its work. -/
theorem traceOnlyGrows : Obligations.TraceOnlyGrows := by
  intro s t h
  by_cases hq : s.port = [] ∨ ∃ rest, s.port = .quiet :: rest
  · obtain ⟨m, hm⟩ := unpresented_of_quiet hq
    obtain ⟨ev, he, hl⟩ := (hm.stepped (proceed_stepped ((step_proceeds hm).symm.trans h))).grows
    exact ⟨ev, he, fun _ => hl⟩
  by_cases hp : ∃ rest, s.port = .rst :: rest
  · obtain ⟨rest, hp⟩ := hp
    rw [step_reset hp] at h
    cases h
    exact ⟨[.rrst], rfl, fun _ => Nat.le_refl 1⟩
  · obtain ⟨n, hs⟩ := step_stepped (not_exists.mp hp) h
    obtain ⟨ev, he, -⟩ := hs.grows
    exact ⟨ev, he, fun hq' => absurd hq' hq⟩

/-! ### LAST_RES -/

/-- A wire header has no meaning at IDLE. -/
theorem isCommand_of_idle {i : Instr} (hs : s.seq = .idle) (h : exec i s = .next t) : IsCommand i := by
  cases i with
  | hsWreq | hsRreq => simp [exec, execHsWreq, execHsRreq, sendHeader, hs] at h
  | hsReady wcap rcap => simp [exec, execHsReady, hs] at h
  | _ => simp [IsCommand]

/-- Settles O40, by the three ways a command ends and the refusal of the fault state. -/
theorem lastResFollowsResult : Obligations.LastResFollowsResult := by
  intro s t i hs h
  have hi := isCommand_of_idle hs h
  cases hf : s.fault with
  | false =>
    obtain ⟨u, hu, hend⟩ := exec_ending ⟨hs, hf⟩ hi
    rw [h] at hu
    cases hu
    cases hend with
    | reads reg v hreg => exact ⟨nofun, fun o _ => ⟨fun _ => rfl, fun hne => absurd hreg (hne reg)⟩⟩
    | completes m o hne _ =>
      refine ⟨nofun, fun o' ho => ⟨fun ⟨reg, hreg⟩ => absurd hreg (hne reg), fun _ => ?_⟩⟩
      cases ho
      rfl
    | faults m c _ _ hm => exact ⟨fun _ => (raise_lastRes m c).trans hm.lastRes, by simp⟩
  | true =>
    obtain ⟨hrefused, hread⟩ := exec_faulted hs hf hi
    by_cases hreg : ∃ reg, i = .rdreg reg
    · obtain ⟨reg, hreg⟩ := hreg
      obtain ⟨v, hv⟩ := hread reg hreg
      rw [h] at hv
      cases hv
      exact ⟨nofun, fun o _ => ⟨fun _ => rfl, fun hne => absurd hreg (hne reg)⟩⟩
    · rw [hrefused (not_exists.mp hreg)] at h
      cases h
      exact ⟨fun _ => rfl, nofun⟩

/-! ### RDREG -/

theorem exec_rdreg_reads (hs : s.seq = .idle) {reg v : Half} (hv : readReg reg s = some v) :
    exec (.rdreg reg) s = .next { s with out := some { res := .ok, value := v } } := by
  rw [exec_rdreg_idle hs, runRdreg, hv]

/-- Settles O33: each number has its register. -/
theorem rdregReadsRegisters : Obligations.RdregReadsRegisters := fun _ hs =>
  ⟨exec_rdreg_reads hs rfl, exec_rdreg_reads hs rfl, exec_rdreg_reads hs rfl, exec_rdreg_reads hs rfl⟩

/-- STATUS from its fields (R40). -/
def statusWord (res : BitVec 2) (fault : Bool) (cause : BitVec 4) (csN : Bool) : Half :=
  res.setWidth 16 ||| ((bit fault).setWidth 16 <<< 2) ||| (cause.setWidth 16 <<< 3) ||| ((bit csN).setWidth 16 <<< 7)

theorem status_eq (s : State) : status s = statusWord s.lastRes.code s.fault s.faultCause.code s.csN := rfl

/-- The fields of STATUS do not overlap. -/
theorem statusWord_fields : ∀ (res : BitVec 2) (fault : Bool) (cause : BitVec 4) (csN : Bool),
    let v := statusWord res fault cause csN
    v.extractLsb' 0 2 = res ∧ v.getLsbD 2 = fault ∧ v.extractLsb' 3 4 = cause ∧ v.getLsbD 7 = csN ∧
      v.extractLsb' 8 8 = 0#8 := by
  decide

/-- Settles O34: STATUS is assembled from fields that do not overlap. -/
theorem rdregStatusLayout : Obligations.RdregStatusLayout := fun s hs =>
  ⟨status s, exec_rdreg_reads hs rfl, by rw [status_eq]; exact statusWord_fields _ _ _ _⟩

end Sys2Proof.Machine

/-! PROOFS. Bytes of RB outside the valid window cannot be observed (R37).

A command works alike on two blocks that differ in such bytes alone. The operations that
do not touch RB commute with a change of RB; a fill, a take and a read of RB are known from the valid window. -/

namespace Sys2Proof.Machine

variable {s u : State}

/-- `s` with other contents of RB. -/
def withRb (m : Memory) (s : State) : State := { s with rb := m }

/-- `u` is `s` but for RB bytes outside the valid window. -/
structure Alike (s u : State) : Prop where
  legal : s.cfg.Legal
  ring : RingInv s
  frame : u = withRb u.rb s
  window : contents u = contents s

theorem Alike.ring_right (h : Alike s u) : RingInv u := by
  rw [h.frame]
  exact ring_congr h.ring rfl rfl rfl rfl

/-- Work that does not touch RB, its cursors or the configuration. -/
theorem Alike.map (h : Alike s u) (f : State → State)
    (hf : f (withRb u.rb s) = withRb u.rb (f s) := by rfl) (hcfg : (f s).cfg = s.cfg := by rfl)
    (hwp : (f s).wp = s.wp := by rfl) (hrp : (f s).rp = s.rp := by rfl) (hcnt : (f s).cnt = s.cnt := by rfl)
    (hrb : (f s).rb = s.rb := by rfl) : Alike (f s) (f u) := by
  have hu : f u = withRb u.rb (f s) := by rw [← hf, ← h.frame]
  have hwin : contents (withRb u.rb (f s)) = contents (withRb u.rb s) := contents_congr hcfg hrp hcnt rfl
  refine ⟨hcfg ▸ h.legal, ring_congr h.ring hcfg hwp hrp hcnt, by rw [hu]; rfl, ?_⟩
  rw [hu, hwin, ← h.frame, h.window, contents_congr hcfg hrp hcnt hrb]

/-- The same answer, with two such blocks. -/
def AlikeAnswers {α : Type} (x y : α × State) : Prop := ∃ u, y = (x.1, u) ∧ Alike x.2 u

/-- Two outcomes that are next states, alike. -/
def AlikeOutcomes (x y : Host.Outcome State Fault Refusal) : Prop := ∃ t u, x = .next t ∧ y = .next u ∧ Alike t u

/-! ### The bus -/

section

variable (mem : Memory)

theorem busWrite_withRb (tx : List Byte) (s : State) :
    busWrite tx (withRb mem s) = ((busWrite tx s).1, withRb mem (busWrite tx s).2) := rfl

theorem handshake_withRb (d : Dir) (s : State) :
    handshake d (withRb mem s) = ((handshake d s).1, withRb mem (handshake d s).2) := by
  cases h : (nextDraw s).1.commFault with
  | false => rw [handshake_ok d h, handshake_ok (s := withRb mem s) d h]; rfl
  | true => rw [handshake_fault d h, handshake_fault (s := withRb mem s) d h]; rfl

theorem sendStrings_withRb (hdrs pays : List Byte) (s : State) :
    sendStrings hdrs pays (withRb mem s) = ((sendStrings hdrs pays s).1, withRb mem (sendStrings hdrs pays s).2) := by
  unfold sendStrings
  rw [busWrite_withRb]
  rcases busWrite hdrs s with ⟨out, k⟩
  cases out with
  | commFault => rfl
  | ok =>
    dsimp only
    rw [busWrite_withRb]
    rcases busWrite pays k with ⟨out, l⟩
    cases out <;> rfl

theorem writeBody_withRb (hdrs pays : List Byte) (s : State) :
    writeBody hdrs pays (withRb mem s) = ((writeBody hdrs pays s).1, withRb mem (writeBody hdrs pays s).2) := by
  rcases hh : handshake .write s with ⟨o, k⟩
  have hh' : handshake .write (withRb mem s) = (o, withRb mem k) := by rw [handshake_withRb, hh]
  cases o with
  | comm => rw [writeBody_comm hh, writeBody_comm hh']
  | notReady => rw [writeBody_notReady hh, writeBody_notReady hh']
  | ready wcap rcap =>
    rw [writeBody_ready hh, writeBody_ready hh', sendStrings_withRb]
    split <;> rfl

/-- A pull window works on RB, and its other effects do not depend on RB. -/
theorem moveWindow_withRb (s : State) :
    ∃ mem', moveWindow (withRb mem s) = ((moveWindow s).1, withRb mem' (moveWindow s).2) := by
  have hd : (nextDraw (zeroWindow (withRb mem s))).1 = (nextDraw (zeroWindow s)).1 := rfl
  have hk : (withRb mem s).winK = s.winK := rfl
  unfold moveWindow busXfer
  simp only [hd, hk]
  cases answerOf (zeros s.winK.toNat).length (nextDraw (zeroWindow s)).1 <;> exact ⟨_, rfl⟩

end

/-- The bytes a pull window of length `k` commits, by the environment's answer (R170, R172). -/
def windowBytes (k : Nat) (d : Draw) : List Byte :=
  if d.commFault then faultedWindow k (d.rx.take k) else fit k d.rx

/-- A pull window that fits joins the valid window at its end. -/
theorem moveWindow_appends (hr : RingInv s) (hk : s.winK.toNat ≤ contigLen s) :
    RingInv (moveWindow s).2 ∧
      contents (moveWindow s).2 = contents s ++ windowBytes s.winK.toNat (nextDraw s).1 := by
  unfold windowBytes
  cases hf : (nextDraw s).1.commFault with
  | false =>
    obtain ⟨t, ht, hm⟩ := moveWindow_commits hr hk hf
    rw [ht]; exact ⟨hm.ring, hm.contents⟩
  | true =>
    obtain ⟨t, ht, hm⟩ := moveWindow_commits_fault hr hk hf
    rw [ht]; exact ⟨hm.ring, hm.contents⟩

/-! ### Commands on two such blocks -/

section

variable (h : Alike s u)

include h

theorem Alike.cfg_eq : u.cfg = s.cfg := by rw [h.frame]; rfl
theorem Alike.cnt_eq : u.cnt = s.cnt := by rw [h.frame]; rfl
theorem Alike.winK_eq : u.winK = s.winK := by rw [h.frame]; rfl
theorem Alike.contigLen_eq : contigLen u = contigLen s := by rw [h.frame]; rfl
theorem Alike.wantsWindow_eq : wantsWindow u = wantsWindow s := by rw [h.frame]; rfl
theorem Alike.draw_eq : (nextDraw u).1 = (nextDraw s).1 := by rw [h.frame]; rfl

theorem Alike.moveWindow (hk : s.winK.toNat ≤ contigLen s) : AlikeAnswers (moveWindow s) (moveWindow u) := by
  obtain ⟨mem, he⟩ := moveWindow_withRb u.rb s
  rw [← h.frame] at he
  obtain ⟨hr, hc⟩ := moveWindow_appends h.ring hk
  obtain ⟨-, hc'⟩ := moveWindow_appends h.ring_right (by rw [h.winK_eq, h.contigLen_eq]; exact hk)
  obtain ⟨e, hf⟩ := moveWindow_frame s
  refine ⟨_, he, by rw [hf]; exact h.legal, hr, rfl, ?_⟩
  rw [he] at hc'
  rw [hc, hc', h.window, h.winK_eq, h.draw_eq]

theorem Alike.pullLoop (turns : Nat) : AlikeAnswers (pullLoop turns s) (pullLoop turns u) := by
  induction turns generalizing s u with
  | zero => exact ⟨u, rfl, h⟩
  | succ n ih =>
    have hmove := (h.map openWindow).moveWindow (openWindow_fits s)
    rw [Machine.pullLoop, Machine.pullLoop, h.wantsWindow_eq]
    split
    · rcases hs : Machine.moveWindow (openWindow s) with ⟨ok, k⟩
      rw [hs] at hmove
      obtain ⟨k', hu, halike⟩ := hmove
      rw [hu]
      cases ok with
      | true => exact ih halike
      | false => exact ⟨k', rfl, halike⟩
    · exact ⟨u, rfl, h⟩

theorem Alike.handshake (d : Dir) : AlikeAnswers (handshake d s) (handshake d u) := by
  have hf := handshake_frame d s
  have hcomm := handshake_withRb u.rb d s
  refine ⟨(Machine.handshake d u).2, ?_, h.map (fun s => (Machine.handshake d s).2) (by rw [hcomm])
    (by rw [hf]) (by rw [hf]) (by rw [hf]) (by rw [hf]) (by rw [hf])⟩
  rw [← h.frame] at hcomm
  rw [hcomm]

theorem Alike.pullTransfer : AlikeAnswers (pullTransfer s) (pullTransfer u) := by
  have hh := h.handshake .read
  rcases hs : Machine.handshake .read s with ⟨o, k⟩
  rw [hs] at hh
  obtain ⟨k', hu, halike⟩ := hh
  cases o with
  | comm => rw [pullTransfer_comm hs, pullTransfer_comm hu]; exact ⟨k', rfl, halike⟩
  | notReady => rw [pullTransfer_notReady hs, pullTransfer_notReady hu]; exact ⟨k', rfl, halike⟩
  | ready wcap rcap =>
    rw [pullTransfer_ready hs, pullTransfer_ready hu]
    exact (halike.map fun s => { s with rRem := rcap }).pullLoop rcap.toNat

theorem Alike.pullBody : AlikeAnswers (pullBody s) (pullBody u) := by
  have hasserted : asserted u.cfg (nextDraw u).1.level = asserted s.cfg (nextDraw s).1.level := by
    rw [h.cfg_eq, h.draw_eq]
  cases ha : asserted s.cfg (nextDraw s).1.level with
  | false =>
    rw [pullBody_gated ha, pullBody_gated (hasserted.trans ha)]
    exact ⟨_, rfl, h.map fun s => emit (.rdys false) (nextDraw s).2⟩
  | true =>
    rw [pullBody_selected ha, pullBody_selected (hasserted.trans ha)]
    obtain ⟨k, hk, halike⟩ := (h.map fun s => setCS false (emit (.rdys true) (nextDraw s).2)).pullTransfer
    rw [hk]
    exact ⟨_, rfl, halike.map (setCS true)⟩

theorem Alike.complete (o : Output) : Alike (complete o s) (complete o u) := h.map (Machine.complete o)

theorem Alike.raise (c : Cause) : Alike (raise c s) (raise c u) := by
  refine h.map (Machine.raise c) ?_ (by simp) (by simp) (by simp) (by simp) (by simp)
  cases hf : s.fault <;> by_cases hc : c = .reentry <;> simp [Machine.raise, withRb, hf, hc]

theorem Alike.headBytes {n : Nat} (hn : n ≤ s.cnt.toNat) : headBytes n u = headBytes n s := by
  rw [headBytes_eq_take hn, headBytes_eq_take (h.cnt_eq ▸ hn), h.window]

theorem Alike.peek {j : Nat} (hj : j < s.cnt.toNat) : peek j u = peek j s := by
  have hb := congrArg (·[j]?) h.window
  simpa [contents, Machine.headBytes, h.cnt_eq, hj] using hb

theorem Alike.dropHead {n : Nat} (hn : n ≤ s.cnt.toNat) : Alike (dropHead n s) (dropHead n u) where
  legal := h.legal
  ring := dropHead_ring h.ring hn
  frame := by rw [h.frame]; rfl
  window := by rw [dropHead_contents h.ring, dropHead_contents h.ring_right, h.window]

theorem Alike.rbFill {bs : List Byte} (hl : bs.length ≤ contigLen s) : Alike (rbFill bs s) (rbFill bs u) where
  legal := h.legal
  ring := rbFill_ring h.ring hl
  frame := by rw [h.frame]; rfl
  window := by rw [rbFill_contents h.ring hl, rbFill_contents h.ring_right (h.contigLen_eq ▸ hl), h.window]

/-- The frame length is read inside the valid window, since a header holds its offset (R9, R191). -/
theorem Alike.frameLen (hc : s.cfg.hdrLen ≤ s.cnt.toNat) : frameLen u = frameLen s := by
  obtain ⟨-, hlen, -⟩ := h.legal
  rw [Machine.frameLen, Machine.frameLen, h.peek (by omega), h.cfg_eq]

theorem Alike.extractStep : AlikeAnswers (extractStep s) (extractStep u) := by
  by_cases hshort : s.cnt.toNat < s.cfg.hdrLen
  · rw [extractStep_none (.inl hshort), extractStep_none (s := u) (.inl (by rw [h.cnt_eq, h.cfg_eq]; exact hshort))]
    exact ⟨u, rfl, h⟩
  have hlen := h.frameLen (by omega)
  by_cases hpart : s.cnt.toNat < Machine.frameLen s
  · rw [extractStep_none (.inr hpart), extractStep_none (s := u) (.inr (by rw [h.cnt_eq, hlen]; exact hpart))]
    exact ⟨u, rfl, h⟩
  have hle : Machine.frameLen s ≤ s.cnt.toNat := by omega
  have hle' : Machine.frameLen u ≤ u.cnt.toNat := by rw [h.cnt_eq, hlen]; exact hle
  by_cases hlong : Config.frameMax < Machine.frameLen s
  · rw [extractStep_long hle hlong, extractStep_long hle' (hlen ▸ hlong)]
    exact ⟨u, rfl, h⟩
  · rw [extractStep_frame hle (by omega), extractStep_frame hle' (by omega), hlen, h.headBytes hle]
    exact ⟨_, rfl, (h.dropHead hle).map (storeFrame _)⟩

theorem Alike.finishRead (p : Res) : Alike (finishRead p s) (finishRead p u) := by
  have hx := h.extractStep
  unfold Machine.finishRead
  rcases hs : Machine.extractStep s with ⟨x, k⟩
  rw [hs] at hx
  obtain ⟨k', hu, halike⟩ := hx
  rw [hu]
  cases x with
  | noFrame => exact halike.complete _
  | tooLong => exact halike.raise _
  | frame f v => exact halike.complete _

theorem Alike.runExtract : Alike (runExtract s) (runExtract u) := by
  rw [runExtract_eq_finishRead, runExtract_eq_finishRead]
  exact h.finishRead .ok

theorem Alike.runWrite (hdrs pays : List Byte) : Alike (runWrite hdrs pays s) (runWrite hdrs pays u) := by
  obtain ⟨r, t, ev, hw, -, -, hf⟩ := writeBody_spec hdrs pays (setCS false s)
  have hrun : Machine.runWrite hdrs pays s = Machine.complete { res := r } (setCS true t) := by
    rw [Machine.runWrite, hw]
  have hcomm : Machine.runWrite hdrs pays (withRb u.rb s) = withRb u.rb (Machine.runWrite hdrs pays s) := by
    have hbody := writeBody_withRb u.rb hdrs pays (setCS false s)
    rw [Machine.runWrite, Machine.runWrite]
    exact congrArg (fun x : Res × State => Machine.complete { res := x.1 } (setCS true x.2)) hbody
  refine h.map (Machine.runWrite hdrs pays) hcomm ?_ ?_ ?_ ?_ ?_ <;> rw [hrun, hf] <;> rfl

theorem Alike.runPull : Alike (runPull s) (runPull u) := by
  obtain ⟨k, hk, halike⟩ := h.pullBody
  rw [Machine.runPull, Machine.runPull, hk]
  exact halike.complete _

theorem Alike.runRead : Alike (runRead s) (runRead u) := by
  obtain ⟨k, hk, halike⟩ := h.pullBody
  rw [Machine.runRead, Machine.runRead, hk]
  exact halike.finishRead _

theorem Alike.runRdreg (reg : Half) : Alike (runRdreg reg s) (runRdreg reg u) := by
  have hreg : readReg reg u = readReg reg s := by rw [h.frame]; rfl
  have hfault : u.fault = s.fault := by rw [h.frame]; rfl
  rw [runRdreg_eq, runRdreg_eq]
  by_cases hc : readReg reg s = none ∧ s.fault = false
  · rw [if_pos hc, if_pos (by rwa [hreg, hfault])]
    exact h.raise .illegalCmd
  · rw [if_neg hc, if_neg (by rwa [hreg, hfault]), hreg]
    exact h.map fun s => { s with out := some _ }

theorem Alike.runRbFill (n : Half) (fills : List Byte) : Alike (runRbFill n fills s) (runRbFill n fills u) := by
  rw [Machine.runRbFill, Machine.runRbFill, h.contigLen_eq]
  split
  · exact h.raise _
  · split
    · exact h.raise _
    · exact (h.rbFill (by omega)).complete _

theorem Alike.runRbPeek (offset : Half) : Alike (runRbPeek offset s) (runRbPeek offset u) := by
  rw [Machine.runRbPeek, Machine.runRbPeek, h.cnt_eq]
  split
  · exact h.raise _
  · rw [h.peek (by omega)]
    exact h.complete _

theorem Alike.runRbTake (n : Half) : Alike (runRbTake n s) (runRbTake n u) := by
  rw [Machine.runRbTake, Machine.runRbTake, h.cnt_eq]
  split
  · exact h.raise _
  · rw [h.headBytes (by omega)]
    exact (h.dropHead (by omega)).complete _

/-- The entry checks look at SEQ and FAULT alone. -/
theorem Alike.enter {body body' : State → State} (hb : Alike (body s) (body' u)) :
    AlikeOutcomes (enter body s) (enter body' u) := by
  have hseq : u.seq = s.seq := by rw [h.frame]; rfl
  have hfault : u.fault = s.fault := by rw [h.frame]; rfl
  unfold Machine.enter
  rw [hseq, hfault]
  split
  · exact ⟨_, _, rfl, rfl, h.raise .reentry⟩
  · split
    · exact ⟨_, _, rfl, rfl, h.map refuse⟩
    · exact ⟨_, _, rfl, rfl, hb⟩

/-- A command on two blocks alike: both end, and alike. -/
theorem Alike.exec {i : Instr} (hs : s.seq = .idle) (hi : IsCommand i) : AlikeOutcomes (exec i s) (exec i u) := by
  cases i with
  | write hdrs pays => exact h.enter (h.runWrite hdrs pays)
  | read => exact h.enter h.runRead
  | pull => exact h.enter h.runPull
  | extract => exact h.enter h.runExtract
  | rdreg reg =>
    have hs' : u.seq = .idle := by rw [h.frame]; exact hs
    exact ⟨_, _, exec_rdreg_idle hs reg, exec_rdreg_idle hs' reg, h.runRdreg reg⟩
  | rbContig => exact h.enter (by rw [h.contigLen_eq]; exact h.complete _)
  | rbFill n fills => exact h.enter (h.runRbFill n fills)
  | rbAvail => exact h.enter (by rw [h.cnt_eq]; exact h.complete _)
  | rbPeek offset => exact h.enter (h.runRbPeek offset)
  | rbTake n => exact h.enter (h.runRbTake n)
  | hsWreq => exact absurd rfl hi.1
  | hsRreq => exact absurd rfl hi.2.1
  | hsReady wcap rcap => exact absurd rfl (hi.2.2 wcap rcap)

end

/-- Settles O50: the two blocks stay alike through every operation of a command. -/
theorem bytesOutsideWindowUnobservable : Obligations.BytesOutsideWindowUnobservable := by
  intro s mem i hinv hs hwreq hrreq hready hwin
  have h : Alike s (withRb mem s) := ⟨hinv.legal, hinv.ring, rfl, hwin⟩
  obtain ⟨t, u, ht, hu, halike⟩ := h.exec hs ⟨hwreq, hrreq, hready⟩
  exact ⟨t, u, ht, hu, halike.window, halike.frame⟩

end Sys2Proof.Machine


/-! PROOFS. The pull loop as labelled steps: what @P4 and @P5 do when nothing is presented (R167, R170 to R172). -/

namespace Sys2Proof.Machine

variable {s t m : State}

/-- The input taken is all by which the step's state differs. -/
theorem Unpresented.eq_taken (hm : Unpresented s m) : ∃ p, m = taken s p := by
  rcases hm with ⟨-, rfl⟩ | ⟨rest, -, rfl⟩
  · exact ⟨m.port, rfl⟩
  · exact ⟨rest, rfl⟩

theorem step_of_unpresented_p4 (hm : Unpresented s m) (hs : m.seq = .p4) : step s = .next (stepP4 m) := by
  rw [step_proceeds hm]
  simp [proceed, wireHeader, labelStep, hs]

theorem step_of_unpresented_p5 (hm : Unpresented s m) (hs : m.seq = .p5) : step s = .next (stepP5 m) := by
  rw [step_proceeds hm]
  simp [proceed, wireHeader, labelStep, hs]

theorem stepP4_open (h : 0 < windowLen s) : stepP4 s = { openWindow s with seq := .p5 } :=
  if_pos ((wantsWindow_iff s).mpr h)

theorem stepP4_done (h : windowLen s = 0) : stepP4 s = leave .ok .p9 s :=
  if_neg fun hwants => by have := (wantsWindow_iff s).mp hwants; omega

theorem stepP5_ok (h : moveWindow s = (true, t)) : stepP5 s = { t with seq := .p4 } := by rw [stepP5, h]

theorem stepP5_fault (h : moveWindow s = (false, t)) : stepP5 s = leave .errComm .p9 t := by rw [stepP5, h]

/-- The transfer and the commit of a window leave its length as @P4 set it. -/
theorem moveWindow_winK {ok : Bool} (h : moveWindow s = (ok, t)) : t.winK = s.winK := by
  obtain ⟨e, hf⟩ := moveWindow_frame s
  rw [h] at hf
  dsimp only at hf
  rw [hf]

theorem Moved.cur_eq {k rem : Nat} {bs : List Byte} {out : XferOutcome} (h : Moved k s t bs rem out) : t.cur = s.cur := by
  rw [h.frame]

/-- What else a moved window leaves, when the sequencer has gone on to `q`. -/
theorem Moved.frame_of_winK {k rem : Nat} {bs : List Byte} {out : XferOutcome} (h : Moved k s t bs rem out)
    (hk : t.winK = s.winK) (q : Seq) (c : Option Running) :
    { t with seq := q, cur := c } = { s with
      rb := t.rb, wp := t.wp, cnt := t.cnt, rRem := t.rRem, seq := q, cur := c
      env := t.env, fresh := t.fresh, trace := s.trace ++ [.xfer (zeros k) out] } := by
  have hf := h.frame
  rw [hk] at hf
  rw [hf]

/-- Settles O51: @P4 by whether a window has a byte, @P5 by whether the environment's answer faults. -/
theorem pullWindowSteps : Obligations.PullWindowSteps := by
  intro s m hinv hm
  obtain ⟨p, rfl⟩ := hm.eq_taken
  refine ⟨fun hs => ?_, fun hs => ?_⟩
  · rw [step_of_unpresented_p4 hm hs]
    refine ⟨fun hpos => ⟨_, congrArg _ (stepP4_open hpos), rfl, ?_⟩, fun hzero => congrArg _ (stepP4_done hzero)⟩
    exact openWindow_winK_toNat s
  · obtain ⟨-, hfits, -⟩ := hinv.window hs
    have hring : RingInv (taken s p) := (inv_taken hinv p).ring
    rw [step_of_unpresented_p5 hm hs]
    cases hf : (nextDraw s).1.commFault with
    | false =>
      obtain ⟨t, ht, hmoved⟩ := moveWindow_commits (s := taken s p) hring hfits hf
      exact ⟨_, _, _, congrArg _ (stepP5_ok ht), hmoved.frame_of_winK (moveWindow_winK ht) .p4 t.cur, hmoved.contents,
        hmoved.cnt, hmoved.wp, hmoved.outside, fun _ => ⟨rfl, rfl, hmoved.rem, rfl, hmoved.cur_eq⟩, nofun⟩
    | true =>
      obtain ⟨t, ht, hmoved⟩ := moveWindow_commits_fault (s := taken s p) hring hfits hf
      exact ⟨_, _, _, congrArg _ (stepP5_fault ht), hmoved.frame_of_winK (moveWindow_winK ht) .p9 _, hmoved.contents,
        hmoved.cnt, hmoved.wp, hmoved.outside, nofun,
        fun _ => ⟨rfl, rfl, BitVec.eq_of_toNat_eq hmoved.rem, rfl, congrArg (Option.map _) hmoved.cur_eq⟩⟩

end Sys2Proof.Machine

/-! PROOFS. The decoder and the encoder (R80 to R90): the decoding procedure field by field, and that decoding and encoding
invert each other. -/

namespace Sys2Proof

variable {w : Word} {st : Strings} {i : Instr} {n : Nat}

/-! ### The decoding procedure (R88) -/

theorem decode_reservedField (st : Strings) (h : rsvField w ≠ 0#12) :
    decode (.command w st) = .error .reservedField := if_pos h

/-- A word with a meaning has the reserved field zero. -/
theorem rsvField_of_decode (h : decode (.command w st) = .ok i) : rsvField w = 0#12 := by
  by_contra hr
  rw [decode_reservedField st hr] at h
  cases h

theorem withoutArg_zero (i : Instr) (h : argField w = 0#16) : withoutArg w i = .ok i := if_pos h

theorem withoutArg_nonzero (i : Instr) (h : argField w ≠ 0#16) : withoutArg w i = .error .unusedArg := if_neg h

theorem withoutArg_ok {j : Instr} (h : withoutArg w i = .ok j) : argField w = 0#16 ∧ i = j := by
  by_cases ha : argField w = 0#16
  · rw [withoutArg_zero i ha] at h
    exact ⟨ha, Except.ok.inj h⟩
  · rw [withoutArg_nonzero i ha] at h
    cases h

/-- A word that decodes as an OP without ARG does: its ARG decides (R86). -/
theorem decode_withoutArg (h : decode (.command w st) = withoutArg w i) :
    if argField w = 0#16 then decode (.command w st) = .ok i else ∃ e, decode (.command w st) = .error e := by
  split
  · exact h.trans (withoutArg_zero i ‹_›)
  · exact ⟨_, h.trans (withoutArg_nonzero i ‹_›)⟩

/-- An OP that takes no ARG, with one (R86). -/
theorem decodeOp_unusedArg (st : Strings) (hn : n ∈ [0x1, 0x2, 0x3, 0x4, 0x8, 0xA]) (ha : argField w ≠ 0#16) :
    decodeOp w st n = .error .unusedArg := by
  simp only [List.mem_cons, List.not_mem_nil, or_false] at hn
  rcases hn with rfl | rfl | rfl | rfl | rfl | rfl <;> exact withoutArg_nonzero _ ha

/-- A reserved OP (R84). -/
theorem decodeOp_reserved (w : Word) (st : Strings) (hn : n ∈ [0x0, 0x5, 0x6, 0xD, 0xE, 0xF]) :
    decodeOp w st n = .error .reservedOp := by
  simp only [List.mem_cons, List.not_mem_nil, or_false] at hn
  rcases hn with rfl | rfl | rfl | rfl | rfl | rfl <;> rfl

/-- Settles O4: the reserved field first, then one line of the opcode map for each OP. -/
theorem commandDecodingProcedure : Obligations.CommandDecodingProcedure := by
  intro w st
  refine ⟨fun hr => ⟨_, decode_reservedField st hr⟩, fun hr => ?_⟩
  refine ⟨?write, ?read, ?pull, ?extract, ?rbContig, ?rbAvail, ?rdreg, ?rbFill, ?rbPeek, ?rbTake, ?reserved⟩
  case write | read | pull | extract | rbContig | rbAvail => exact fun hop => decode_withoutArg (decode_of_op st hr hop)
  case rdreg | rbFill | rbPeek | rbTake => exact decode_of_op st hr
  case reserved => exact fun hop => ⟨_, (decode_of_op st hr rfl).trans (decodeOp_reserved w st hop)⟩

/-! ### Decoding an encoding -/

/-- An assembled word decodes by its OP. -/
theorem decode_commandWord (op : BitVec 4) (arg : Half) (st : Strings) :
    decode (.command (commandWord op arg) st) = decodeOp (commandWord op arg) st op.toNat :=
  decode_of_op st (rsvField_commandWord op arg) (by rw [opField_commandWord])

/-- An assembled word whose OP takes no ARG has the meaning of its OP. -/
theorem decode_commandWord_withoutArg {op : BitVec 4}
    (h : decodeOp (commandWord op 0#16) st op.toNat = withoutArg (commandWord op 0#16) i) :
    decode (.command (commandWord op 0#16) st) = .ok i := by
  rw [decode_commandWord, h, withoutArg_zero i (argField_commandWord op 0#16)]

/-- An assembled word whose OP takes ARG has the meaning of its OP with ARG as the operand. -/
theorem decode_commandWord_withArg {op : BitVec 4} {arg : Half} (f : Half → Instr)
    (h : decodeOp (commandWord op arg) st op.toNat = .ok (f (argField (commandWord op arg)))) :
    decode (.command (commandWord op arg) st) = .ok (f arg) := by
  rw [decode_commandWord, h, argField_commandWord]

/-- A ready reply gives back the capacities whose bytes it carries (R90). -/
theorem decodeHeader_ready (wcap rcap : Half) :
    decodeHeader [readyMarker, lowByte wcap, highByte wcap, lowByte rcap, highByte rcap] =
      .ok (.hsReady wcap rcap) := by
  simp [decodeHeader]

/-- The encoding of an instruction decodes to it, for every operand. -/
theorem decode_encode (i : Instr) : decode (encode i) = .ok i := by
  cases i with
  | write | read | pull | extract | rbContig | rbAvail => exact decode_commandWord_withoutArg rfl
  | rdreg => exact decode_commandWord_withArg Instr.rdreg rfl
  | rbFill n fills => exact decode_commandWord_withArg (Instr.rbFill · fills) rfl
  | rbPeek => exact decode_commandWord_withArg Instr.rbPeek rfl
  | rbTake => exact decode_commandWord_withArg Instr.rbTake rfl
  | hsWreq | hsRreq => rfl
  | hsReady wcap rcap => exact decodeHeader_ready wcap rcap

/-- Settles O2: the string lengths of R83 are not needed, since no field of the word holds them. -/
theorem decodeInvertsEncode : Obligations.DecodeInvertsEncode := fun i _ => decode_encode i

/-- Settles O1: each word and each header of R89 and R94 is the encoding of its instruction. -/
theorem specWordsDecode : Obligations.SpecWordsDecode :=
  ⟨decode_encode (.write [0x01#8] [0x10#8, 0x11#8]), decode_encode .read, decode_encode .pull, decode_encode .extract,
    decode_encode (.rdreg 65535#16), decode_encode .rbContig, decode_encode (.rbFill 2#16 [0xAA#8, 0xBB#8]),
    decode_encode .rbAvail, decode_encode (.rbPeek 3#16), decode_encode (.rbTake 65535#16), decode_encode .hsWreq,
    decode_encode .hsRreq, decode_encode (.hsReady 0x1234#16 0x5678#16)⟩

/-! ### Encoding what was decoded -/

/-- A word is assembled from the OP and the ARG it is known to have. -/
theorem commandWord_of_fields (hr : rsvField w = 0#12) (hop : (opField w).toNat = n) :
    commandWord (BitVec.ofNat 4 n) (argField w) = w := by
  rw [← hop, BitVec.ofNat_toNat, BitVec.setWidth_eq]
  exact commandWord_fields w hr

/-- What an OP without ARG decodes to is encoded in the word it came from. -/
theorem encode_of_withoutArg {j : Instr} (hr : rsvField w = 0#12) (hop : (opField w).toNat = n)
    (he : encode i = .command (commandWord (BitVec.ofNat 4 n) 0#16) st) (h : withoutArg w i = .ok j) :
    ∃ st', encode j = .command w st' := by
  obtain ⟨ha, rfl⟩ := withoutArg_ok h
  rw [← ha, commandWord_of_fields hr hop] at he
  exact ⟨_, he⟩

/-- What an OP with ARG decodes to is encoded in the word it came from. -/
theorem encode_of_withArg (hr : rsvField w = 0#12) (hop : (opField w).toNat = n)
    (he : encode i = .command (commandWord (BitVec.ofNat 4 n) (argField w)) st) :
    ∃ st', encode i = .command w st' := by
  rw [commandWord_of_fields hr hop] at he
  exact ⟨_, he⟩

/-- Along the opcode map, the encoding has the word that was decoded. -/
theorem encode_of_decodeOp (hr : rsvField w = 0#12) (hop : (opField w).toNat = n) (h : decodeOp w st n = .ok i) :
    ∃ st', encode i = .command w st' := by
  unfold decodeOp at h
  split at h
  case h_1 | h_2 | h_3 | h_4 | h_6 | h_8 => exact encode_of_withoutArg hr hop rfl h
  case h_5 | h_7 | h_9 | h_10 => cases h; exact encode_of_withArg hr hop rfl
  case h_11 => cases h

/-- A header with a meaning is one of the three of R89, and the encoding has its bytes. -/
theorem encode_of_decodeHeader {bytes : List Byte} (h : decodeHeader bytes = .ok i) : encode i = .header bytes := by
  unfold decodeHeader at h
  split at h
  case h_1 b0 b1 b2 b3 b4 =>
    split at h
    case isTrue hready =>
      cases h
      simp [encode, hready]
    split at h
    case isTrue hwrite =>
      split at h <;> cases h
      simp_all [encode, requestHeader]
    split at h
    case isTrue hread =>
      split at h <;> cases h
      simp_all [encode, requestHeader]
    cases h
  case h_2 => cases h

/-- Settles O3: a command word by its fields, a header by its marker. -/
theorem decodedCarrierIsItsEncoding : Obligations.DecodedCarrierIsItsEncoding := by
  refine ⟨fun w st i h => ?_, fun bytes i => encode_of_decodeHeader⟩
  have hr := rsvField_of_decode h
  rw [decode_of_op st hr rfl] at h
  exact encode_of_decodeOp hr rfl h

end Sys2Proof

/-! PROOFS. What the encoding's rules make of a step and of a command: a word without a meaning (R84 to R86), the operand
check of RB_FILL (R87), the request headers (R89), and READ as PULL then EXTRACT (R95). -/

namespace Sys2Proof.Machine

variable {s : State}

/-! ### A word without a meaning -/

theorem illegalCommand_ready (h : Ready s) : illegalCommand s = .next (faulted .illegalCmd s) := by
  rw [illegalCommand, enter_ready h, raise_ready h (by simp)]

/-- Settles O7: each of the three causes is a decoding error. -/
theorem undecodableWordRaisesIllegalCmd : Obligations.UndecodableWordRaisesIllegalCmd := by
  intro s w st rest hready hp hcause
  have hd : ∃ e, decode (.command w st) = .error e := by
    by_cases hr : rsvField w = 0#12
    · rcases hcause with hrsv | ⟨hop, harg⟩ | hop
      · exact absurd hr hrsv
      · exact ⟨_, (decode_of_op st hr rfl).trans (decodeOp_unusedArg st hop harg)⟩
      · exact ⟨_, (decode_of_op st hr rfl).trans (decodeOp_reserved w st hop)⟩
    · exact ⟨_, decode_reservedField st hr⟩
  obtain ⟨e, hd⟩ := hd
  have hready' : Ready (taken s rest) := hready
  exact (step_illegal hp hd).trans (illegalCommand_ready hready')

/-! ### RB_FILL's checks -/

theorem runRbFill_mismatch {n : Half} {fills : List Byte} (h : fills.length ≠ n.toNat) :
    runRbFill n fills s = raise .operandMismatch s := if_pos h

theorem runRbFill_overrun {n : Half} {fills : List Byte} (h : fills.length = n.toNat) (hlong : contigLen s < n.toNat) :
    runRbFill n fills s = raise .rbFillOverrun s := by
  rw [runRbFill, if_neg (not_not.mpr h), if_pos hlong]

/-- Settles O11: the length check comes first and the range check second. -/
theorem rbFillChecksInOrder : Obligations.RbFillChecksInOrder := by
  intro s n fills hready
  have hexec : exec (.rbFill n fills) s = .next (runRbFill n fills s) := enter_ready hready _
  rw [hexec]
  refine ⟨fun h => ?_, fun h hlong => ?_⟩
  · rw [runRbFill_mismatch h, raise_ready hready (by simp)]
  · rw [runRbFill_overrun h hlong, raise_ready hready (by simp)]

/-! ### The request headers -/

/-- The request of a direction goes out at its place, in both ways its transfer can end (R141). -/
theorem sendHeader_sends (d : Dir) {here reply exit : Seq} (hs : s.seq = here) (hc : s.csN = false) :
    ∃ t, sendHeader d here reply exit s = .next t ∧
      t = { s with
        hsbuf := t.hsbuf, env := t.env, fresh := t.fresh, seq := t.seq, cur := t.cur,
        trace := s.trace ++
          [.xfer (request d) (if (nextDraw s).1.commFault then .commFault else .ok (fit 5 (nextDraw s).1.rx))] } ∧
      ((nextDraw s).1.commFault = false →
        t.seq = reply ∧ t.cur = s.cur ∧ t.hsbuf.bytes = fit 5 (nextDraw s).1.rx) ∧
      ((nextDraw s).1.commFault = true → t.seq = exit ∧ t.cur = s.cur.map (fun c => { c with res := .errComm })) := by
  rw [sendHeader, if_pos ⟨hs, hc⟩, ← answerOf_outcome]
  cases hf : (nextDraw s).1.commFault with
  | false =>
    rw [handshakeXfer_ok d hf]
    exact ⟨_, rfl, rfl, fun _ => ⟨rfl, rfl, headerOf_bytes (fit_length 5 _)⟩, nofun⟩
  | true =>
    rw [handshakeXfer_fault d hf]
    exact ⟨_, rfl, rfl, nofun, fun _ => ⟨rfl, rfl⟩⟩

/-- Settles O17: one rule for both directions. -/
theorem requestHeadersGoOut : Obligations.RequestHeadersGoOut := fun _ hc =>
  ⟨fun hs => sendHeader_sends .write hs hc, fun hs => sendHeader_sends .read hs hc⟩

/-! ### READ -/

/-- The table of R211, row by row: x is the extraction's result. -/
theorem combine_table (p x : Res) (hx : x ≠ .errComm) :
    (x = .ok → combine p x = .ok) ∧ (x = .errDecode → combine p x = .errDecode) ∧
      (x = .notReady → p = .errComm → combine p x = .errComm) ∧
      (x = .notReady → p ≠ .errComm → combine p x = .notReady) ∧ x ≠ .errComm := by
  cases x <;> simp_all [combine]

theorem verdictRes_ne_errComm (v : Verdict) : verdictRes v ≠ .errComm := by
  cases v <;> simp [verdictRes]

/-- Settles O31: both runs begin with the same pull, and the extraction then finds the same buffer in both, so the three
ways it can end are compared one by one. -/
theorem readIsPullThenExtract : Obligations.ReadIsPullThenExtract := by
  intro s _ hready
  have hw := pullBody_worked s
  have hpull : exec .pull s = .next (runPull s) := enter_ready hready _
  have hread : exec .read s = .next (runRead s) := enter_ready hready _
  rw [runPull] at hpull
  rw [runRead] at hread
  generalize (pullBody s).1 = p at hpull hread
  generalize (pullBody s).2 = m at hw hpull hread
  have hf : m.fault = false := hw.fault.trans hready.2
  have hextract : exec .extract (complete { res := p } m) = .next (runExtract (complete { res := p } m)) :=
    enter_ready (complete_ready hf _) _
  refine ⟨_, _, _, hpull, hextract, hread, ?_⟩
  rw [← hw.lastRes]
  have hok : m.fault ≠ true := by simp [hf]
  simp only [runExtract, finishRead]
  rcases extractStep_complete { res := p } m with ⟨hx, hx'⟩ | ⟨hx, hx'⟩ | ⟨n, v, -, -, hx, hx'⟩ <;> rw [hx, hx']
  · exact ⟨rfl, fun h => absurd h hok, fun _ => ⟨_, _, rfl, rfl, rfl, combine_table p .notReady (by simp)⟩⟩
  · dsimp only
    rw [raise_first m (by simp) hf, raise_first (complete { res := p } m) (by simp) hf]
    exact ⟨rfl, fun _ => ⟨rfl, rfl⟩, nofun⟩
  · exact ⟨rfl, fun h => absurd h hok,
      fun _ => ⟨_, _, rfl, rfl, rfl, combine_table p (verdictRes v) (verdictRes_ne_errComm v)⟩⟩

end Sys2Proof.Machine

/-! PROOFS. The ring-buffer commands: what each answers and leaves (R111 to R119), the contiguity law (R121) and the
FIFO law (R120). -/

namespace Sys2Proof.Machine

variable {s t : State}

/-! ### What each command does at a boundary -/

theorem exec_rbContig_ready (h : Ready s) :
    exec .rbContig s = .next (complete { res := .ok, value := BitVec.ofNat 16 (contigLen s) } s) := enter_ready h _

theorem exec_rbAvail_ready (h : Ready s) : exec .rbAvail s = .next (complete { res := .ok, value := s.cnt } s) :=
  enter_ready h _

theorem exec_rbFill_ready (h : Ready s) (n : Half) (fills : List Byte) :
    exec (.rbFill n fills) s = .next (runRbFill n fills s) := enter_ready h _

theorem exec_rbPeek_ready (h : Ready s) (offset : Half) : exec (.rbPeek offset) s = .next (runRbPeek offset s) :=
  enter_ready h _

theorem exec_rbTake_ready (h : Ready s) (n : Half) : exec (.rbTake n) s = .next (runRbTake n s) := enter_ready h _

theorem runRbFill_fits {n : Half} {fills : List Byte} (h : fills.length = n.toNat) (hfit : n.toNat ≤ contigLen s) :
    runRbFill n fills s = complete { res := .ok } (rbFill fills s) := by
  rw [runRbFill, if_neg (not_not.mpr h), if_neg (not_lt.mpr hfit)]

theorem runRbPeek_inside {offset : Half} (h : offset.toNat < s.cnt.toNat) :
    runRbPeek offset s = complete { res := .ok, data := [peek offset.toNat s] } s := if_neg (not_le.mpr h)

theorem runRbPeek_outside {offset : Half} (h : s.cnt.toNat ≤ offset.toNat) :
    runRbPeek offset s = raise .rbPeekRange s := if_pos h

theorem runRbTake_fits {n : Half} (h : n.toNat ≤ s.cnt.toNat) : runRbTake n s =
    complete { res := .ok, data := headBytes n.toNat s } (dropHead n.toNat s) := if_neg (not_lt.mpr h)

theorem runRbTake_short {n : Half} (h : s.cnt.toNat < n.toNat) : runRbTake n s = raise .rbTakeRange s := if_pos h

theorem exec_rbFill_fits (hready : Ready s) {n : Half} {fills : List Byte} (h : fills.length = n.toNat)
    (hfit : n.toNat ≤ contigLen s) :
    exec (.rbFill n fills) s = .next (complete { res := .ok } (rbFill fills s)) := by
  rw [exec_rbFill_ready hready, runRbFill_fits h hfit]

theorem exec_rbTake_fits (hready : Ready s) {n : Half} (h : n.toNat ≤ s.cnt.toNat) :
    exec (.rbTake n) s = .next (complete { res := .ok, data := headBytes n.toNat s } (dropHead n.toNat s)) := by
  rw [exec_rbTake_ready hready, runRbTake_fits h]

/-- RB_FILL of a whole string. -/
def fillOf (f : List Byte) : Instr := .rbFill (BitVec.ofNat 16 f.length) f

theorem exec_fillOf_fits (hready : Ready s) {f : List Byte} (h : f.length ≤ contigLen s) :
    exec (fillOf f) s = .next (complete { res := .ok } (rbFill f s)) := by
  have hn := ofNat16_toNat (h.trans_lt (contigLen_lt s))
  exact exec_rbFill_fits hready hn.symm (hn.trans_le h)

theorem exec_rbFill_contigLen (hready : Ready s) {bs : List Byte} (h : bs.length = contigLen s) :
    exec (.rbFill (BitVec.ofNat 16 (contigLen s)) bs) s = .next (complete { res := .ok } (rbFill bs s)) := by
  rw [← h]
  exact exec_fillOf_fits hready h.le

theorem complete_contents (o : Output) : contents (complete o s) = contents s := contents_congr rfl rfl rfl rfl

theorem complete_contigLen (o : Output) : contigLen (complete o s) = contigLen s := contigLen_congr rfl rfl rfl

theorem complete_ring (o : Output) (h : RingInv s) : RingInv (complete o s) := ring_congr h rfl rfl rfl rfl

/-! ### RB_CONTIG and RB_AVAIL -/

/-- No byte can be written at WP exactly when no byte is free, since WP < N. -/
theorem contigLen_eq_zero_iff (hr : RingInv s) : contigLen s = 0 ↔ s.cnt = s.cfg.cap := by
  have hwp := hr.wpLt
  have hcnt := hr.cntLe
  rw [BitVec.toNat_eq, contigLen]
  change _ ↔ s.cnt.toNat = capN s
  omega

/-- Settles O8: VALUE is ContigLen(), which fits 16 bits because N does. -/
theorem rbContigReturnsContiguousLength : Obligations.RbContigReturnsContiguousLength := by
  intro s hinv hready
  refine ⟨contigLen s, rfl, contigLen_eq_zero_iff hinv.ring, contigLen_lt s, ?_⟩
  rw [exec_rbContig_ready hready, complete_idle hready.1]

/-- Settles O9: CNT is a register, read as it stands. -/
theorem rbAvailReturnsCount : Obligations.RbAvailReturnsCount := by
  intro s hready
  rw [exec_rbAvail_ready hready, complete_idle hready.1]

/-! ### RB_FILL -/

/-- Settles O10: the fill is one MemWrite at WP, which reaches no other address. -/
theorem rbFillAppends : Obligations.RbFillAppends := by
  intro s n fills hinv hready hlen hfit
  have hfits : fills.length ≤ contigLen s := hlen.trans_le hfit
  have hcnt : BitVec.ofNat 16 (s.cnt.toNat + fills.length) = s.cnt + n := by simp [hlen, BitVec.ofNat_add]
  refine ⟨_, exec_rbFill_fits hready hlen hfit, ?_, ?_, fun j h => ?_, fun a h => ?_, ?_⟩
  · rw [complete_idle (s := rbFill fills s) hready.1, ← hcnt, ← hlen]
    rfl
  · rw [complete_cnt, rbFill_cnt_toNat hinv.ring.cntLe hfits, hlen]
  · exact read_writeList_inside s.rb _ fills j h
  · exact read_writeList_outside s.rb _ fills (hlen ▸ h)
  · rw [complete_contents, rbFill_contents hinv.ring hfits]

/-! ### RB_PEEK -/

/-- Settles O12: one range check, and neither side of it writes a cursor. -/
theorem rbPeekReadsWithoutConsuming : Obligations.RbPeekReadsWithoutConsuming := by
  intro s offset hready
  rw [exec_rbPeek_ready hready]
  refine ⟨fun h => ?_, fun h => ?_⟩
  · rw [runRbPeek_inside h, complete_idle hready.1]
    rfl
  · rw [runRbPeek_outside h, raise_ready hready (by simp)]

/-! ### RB_TAKE -/

/-- A take splits the valid window into the bytes returned and the window left (R118). -/
theorem headBytes_append_dropHead {n : Nat} (hr : RingInv s) (h : n ≤ s.cnt.toNat) :
    headBytes n s ++ contents (dropHead n s) = contents s := by
  rw [headBytes_eq_take h, dropHead_contents hr, List.take_append_drop]

/-- Settles O13: one range check; past it, the take writes RP and CNT alone. -/
theorem rbTakeRemovesFromHead : Obligations.RbTakeRemovesFromHead := by
  intro s n hinv hready
  refine ⟨fun h => ?_, fun h => ?_⟩
  · have hcnt : BitVec.ofNat 16 (s.cnt.toNat - n.toNat) = s.cnt - n :=
      BitVec.eq_of_toNat_eq ((dropHead_cnt_toNat s n.toNat).trans (BitVec.toNat_sub_of_le h).symm)
    refine ⟨_, headBytes n.toNat s, exec_rbTake_fits hready h, ?_, rfl, dropHead_cnt_toNat s n.toNat, ?_⟩
    · rw [complete_idle (s := dropHead n.toNat s) hready.1, ← hcnt]
      rfl
    · rw [complete_contents, headBytes_append_dropHead hinv.ring h]
  · rw [exec_rbTake_ready hready, runRbTake_short h, raise_ready hready (by simp)]

/-! ### The contiguity law -/

/-- The two places of WP while a byte is free: at or past RP with the valid bytes between them, or below RP with the
free bytes between them (R121). -/
theorem wp_cases (hr : RingInv s) (h : 0 < contigLen s) :
    (s.rp.toNat ≤ s.wp.toNat ∧ s.wp.toNat = s.rp.toNat + s.cnt.toNat ∧ contigLen s = capN s - s.wp.toNat) ∨
    (s.wp.toNat < s.rp.toNat ∧ s.wp.toNat + capN s = s.rp.toNat + s.cnt.toNat ∧
      contigLen s = s.rp.toNat - s.wp.toNat) := by
  have hrp := hr.rpLt
  have hcnt := hr.cntLe
  have hwp := hr.wpEq
  rw [mod_once (by omega)] at hwp
  unfold contigLen at h ⊢
  split at hwp
  · left; omega
  · right; omega

/-- A fill of the whole contiguous length, in the two cases of R121: WP wraps to 0, or the buffer is full. Either way
what is then contiguous is all that is still free. -/
theorem rbFill_contigLen {bs : List Byte} (hr : RingInv s) (h : 0 < contigLen s) (hlen : bs.length = contigLen s) :
    contigLen s + contigLen (rbFill bs s) = capN s - s.cnt.toNat ∧
    (s.rp.toNat ≤ s.wp.toNat → contigLen s = capN s - s.wp.toNat ∧ (rbFill bs s).wp.toNat = 0) ∧
    (s.wp.toNat < s.rp.toNat → contigLen s = s.rp.toNat - s.wp.toNat ∧ (rbFill bs s).cnt.toNat = capN s ∧
      contigLen (rbFill bs s) = 0) := by
  have hrp := hr.rpLt
  have hwp := rbFill_wp_toNat (bs := bs) hr
  have hcnt := rbFill_cnt_toNat hr.cntLe hlen.le
  rw [hlen] at hwp hcnt
  have hnext : contigLen (rbFill bs s) =
    min (capN s - (rbFill bs s).cnt.toNat) (capN s - (rbFill bs s).wp.toNat) := rfl
  rcases wp_cases hr h with ⟨hge, hpos, hc⟩ | ⟨hlt, hpos, hc⟩
  · have hwrap : s.wp.toNat + contigLen s = capN s := by omega
    rw [hwrap, Nat.mod_self] at hwp
    omega
  · omega

/-- Settles O14: a fill that fits completes; the two cases are those of `rbFill_contigLen`. -/
theorem contiguityLaw : Obligations.ContiguityLaw := by
  intro s bs hinv hready hpos hlen
  obtain ⟨hsum, hwrap, hfull⟩ := rbFill_contigLen hinv.ring hpos hlen
  have hready' : Ready (complete { res := .ok } (rbFill bs s)) := ⟨rfl, hready.2⟩
  refine ⟨_, exec_rbFill_contigLen hready hlen, hready', hsum,
    fun h => ⟨(hwrap h).1, BitVec.eq_of_toNat_eq (hwrap h).2⟩,
    fun h => ⟨(hfull h).1, BitVec.eq_of_toNat_eq (hfull h).2.1, (hfull h).2.2⟩, fun bs' hlen' => ?_,
    fun k part hpart hk => ⟨_, exec_rbFill_fits hready hpart hk, hready.2⟩⟩
  refine ⟨_, exec_rbFill_contigLen hready' hlen', ⟨rfl, hready.2⟩, BitVec.eq_of_toNat_eq ?_⟩
  have hring := complete_ring { res := .ok } (rbFill_ring hinv.ring hlen.le)
  have hcnt := rbFill_cnt_toNat hinv.ring.cntLe hlen.le
  have hcntLe := hinv.ring.cntLe
  calc (rbFill bs' (complete { res := .ok } (rbFill bs s))).cnt.toNat
      = (rbFill bs s).cnt.toNat + bs'.length := rbFill_cnt_toNat hring.cntLe hlen'.le
    _ = s.cnt.toNat + (contigLen s + contigLen (rbFill bs s)) := by
        rw [hcnt, hlen, hlen', complete_contigLen, Nat.add_assoc]
    _ = capN s := by omega

/-! ### The FIFO law -/

theorem execAll_cons {i : Instr} {is : List Instr} (h : exec i s = .next t) : execAll (i :: is) s = execAll is t := by
  rw [execAll, h]

/-- A fill that does not fit faults, by one check or the other. -/
theorem exec_fillOf_overlong (hready : Ready s) {f : List Byte} (h : contigLen s < f.length) :
    ∃ c, exec (fillOf f) s = .next (faulted c s) := by
  obtain ⟨hmismatch, hoverrun⟩ := rbFillChecksInOrder s (BitVec.ofNat 16 f.length) f hready
  by_cases hn : f.length = (BitVec.ofNat 16 f.length).toNat
  · exact ⟨_, hoverrun hn (hn ▸ h)⟩
  · exact ⟨_, hmismatch hn⟩

/-- Fills do not clear FAULT (R237). -/
theorem execAll_fills_faulted (fs : List (List Byte)) (hs : s.seq = .idle) (hf : s.fault = true)
    (h : execAll (fs.map fillOf) s = .next t) : t.fault = true := by
  induction fs generalizing s with
  | nil => cases h; exact hf
  | cons f fs ih =>
    have hrefused : exec (fillOf f) s = .next (refuse s) := enter_faulted hs hf _
    rw [List.map_cons, execAll_cons hrefused] at h
    exact ih (s := refuse s) hs hf h

/-- Fills that end with FAULT = 0 all completed, and their bytes stand at the end of the valid window. -/
theorem execAll_fills_append (fs : List (List Byte)) (hr : RingInv s) (hready : Ready s)
    (h : execAll (fs.map fillOf) s = .next t) (hf : t.fault = false) :
    RingInv t ∧ Ready t ∧ contents t = contents s ++ fs.flatten := by
  induction fs generalizing s with
  | nil => cases h; exact ⟨hr, hready, (List.append_nil _).symm⟩
  | cons f fs ih =>
    rw [List.map_cons] at h
    by_cases hfit : f.length ≤ contigLen s
    · rw [execAll_cons (exec_fillOf_fits hready hfit)] at h
      obtain ⟨hrt, hreadyt, hcont⟩ := ih (complete_ring _ (rbFill_ring hr hfit)) ⟨rfl, hready.2⟩ h
      refine ⟨hrt, hreadyt, ?_⟩
      rw [hcont, complete_contents, rbFill_contents hr hfit, List.flatten_cons, List.append_assoc]
    · obtain ⟨c, hc⟩ := exec_fillOf_overlong hready (not_le.mp hfit)
      rw [execAll_cons hc] at h
      have hft := execAll_fills_faulted fs (s := faulted c s) hready.1 rfl h
      rw [hf] at hft
      cases hft

/-- Settles O15: after the fills the valid window is the old one and then their bytes, and CNT is its length, so the
take is one of the whole window. -/
theorem fifoLaw : Obligations.FifoLaw := by
  intro s t fs hinv hready hfills hf
  obtain ⟨-, hreadyt, hcont⟩ := execAll_fills_append fs hinv.ring hready hfills hf
  have hcnt : t.cnt.toNat = s.cnt.toNat + fs.flatten.length := by
    rw [← contents_length t, hcont, List.length_append, contents_length]
  have hall : BitVec.ofNat 16 (s.cnt.toNat + fs.flatten.length) = t.cnt := by
    rw [← hcnt, BitVec.ofNat_toNat, BitVec.setWidth_eq]
  rw [hall]
  refine ⟨_, _, exec_rbTake_fits hreadyt le_rfl, rfl, rfl, hcont, BitVec.eq_of_toNat_eq ?_⟩
  exact (dropHead_cnt_toNat t _).trans (Nat.sub_self _)

end Sys2Proof.Machine

/-! PROOFS. The handshake: its three outcomes (R141, R142), and the wire headers at their places and away from them
(R141, R143). -/

namespace Sys2Proof.Machine

variable {s m : State}

/-! ### The outcomes of Handshake(dir) -/

theorem request_eq (d : Dir) :
    request d = [(if d = .write then 0x0A#8 else 0x0B#8), 0#8, 0#8, 0#8, 0#8] := by cases d <;> rfl

/-- The outcome of a handshake whose transfer succeeds, from the bytes received (R90, R142). -/
theorem handshake_reply (d : Dir) (h : (nextDraw s).1.commFault = false) :
    (handshake d s).1 =
      if (fit 5 (nextDraw s).1.rx).getD 0 0#8 = 0x02#8 then
        .ready (le16 ((fit 5 (nextDraw s).1.rx).getD 1 0#8) ((fit 5 (nextDraw s).1.rx).getD 2 0#8))
          (le16 ((fit 5 (nextDraw s).1.rx).getD 3 0#8) ((fit 5 (nextDraw s).1.rx).getD 4 0#8))
      else .notReady := by
  rw [handshake_ok d h]
  exact replyOf_eq _

theorem handshake_hsbuf_bytes (d : Dir) (h : (nextDraw s).1.commFault = false) :
    (handshake d s).2.hsbuf.bytes = fit 5 (nextDraw s).1.rx := by
  rw [handshake_ok d h]
  exact headerOf_bytes (fit_length 5 _)

/-- Settles O16: the frame holds for every answer, and byte 0 of what a good transfer received decides the outcome. -/
theorem handshakeOutcome : Obligations.HandshakeOutcome := by
  intro d s
  refine ⟨fit_length 5 _, ?_, fun h => ?_, fun h => ⟨handshake_hsbuf_bytes d h, fun h0 => ?_, fun h0 => ?_⟩⟩
  · rw [← request_eq, ← answerOf_outcome]
    exact handshake_frame d s
  · rw [handshake_fault d h]
  · exact (handshake_reply d h).trans (if_neg h0)
  · exact ⟨_, _, (handshake_reply d h).trans (if_pos h0), le16_toNat _ _, le16_toNat _ _⟩

/-! ### The step at a handshake -/

/-- What the sequencer is at does not depend on the input taken from the port. -/
theorem Unpresented.wireHeader_eq (hm : Unpresented s m) : wireHeader m = wireHeader s := by
  obtain ⟨p, rfl⟩ := hm.eq_taken
  rfl

/-- With nothing presented, a step runs the wire header the sequencer is at. -/
theorem step_of_wireHeader (hm : Unpresented s m) {i : Instr} (h : wireHeader s = some i) : step s = exec i m := by
  rw [step_proceeds hm, proceed, hm.wireHeader_eq, h]

theorem wireHeader_w2 (hs : s.seq = .w2) : wireHeader s = some .hsWreq := by rw [wireHeader, hs]

theorem wireHeader_p3 (hs : s.seq = .p3) : wireHeader s = some .hsRreq := by rw [wireHeader, hs]

theorem replyOf_of_decodeHeader {h : Header} {wcap rcap : Half} (hd : decodeHeader h.bytes = .ok (.hsReady wcap rcap)) :
    replyOf h = .ready wcap rcap := by rw [replyOf, hd]

theorem wireHeader_reply {wcap rcap : Half} (hs : s.seq = .w2reply ∨ s.seq = .p3reply)
    (hr : replyOf s.hsbuf = .ready wcap rcap) : wireHeader s = some (.hsReady wcap rcap) := by
  rcases hs with hs | hs <;> simp only [wireHeader, hs, hr]

/-- Settles O6: one rule of the step, and where the sequencer is at which header. -/
theorem stepRunsWireHeader : Obligations.StepRunsWireHeader := fun _ _ hm =>
  ⟨fun hs => step_of_wireHeader hm (wireHeader_w2 hs), fun hs => step_of_wireHeader hm (wireHeader_p3 hs),
    fun _ _ hs hd => step_of_wireHeader hm (wireHeader_reply hs (replyOf_of_decodeHeader hd))⟩

/-! ### A ready reply at its place -/

theorem exec_hsReady_w2reply (hs : s.seq = .w2reply) (hc : s.csN = false) (wcap rcap : Half) :
    exec (.hsReady wcap rcap) s = .next (acceptWcap wcap s) := if_pos ⟨hs, hc⟩

theorem exec_hsReady_p3reply (hs : s.seq = .p3reply) (hc : s.csN = false) (wcap rcap : Half) :
    exec (.hsReady wcap rcap) s = .next (acceptRcap rcap s) :=
  (if_neg (by simp [hs])).trans (if_pos ⟨hs, hc⟩)

/-- The capacity check of a WRITE in progress (R161, R162). -/
theorem acceptWcap_write {hdrs pays : List Byte} {r : Res} (h : s.cur = some ⟨.write hdrs pays, r⟩) (wcap : Half) :
    acceptWcap wcap s =
      if wcap.toNat < hdrs.length + pays.length then
        { s with seq := .w9, cur := some ⟨.write hdrs pays, .notReady⟩ }
      else { s with seq := .w3 } := by
  simp only [acceptWcap, curHdrs, curPays, leave, h, operandHdrs, operandPays, Option.map_some]

/-- Settles O18: the write request's reply is checked against the operands, the read request's taken as it is. -/
theorem readyReplyTaken : Obligations.ReadyReplyTaken := by
  refine fun s wcap rcap hc => ⟨fun hdrs pays r hs hcur => ?_, fun hs => exec_hsReady_p3reply hs hc wcap rcap⟩
  rw [exec_hsReady_w2reply hs hc, acceptWcap_write hcur]
  exact ⟨fun hshort => congrArg _ (if_pos hshort), fun hfits => congrArg _ (if_neg (not_lt.mpr hfits))⟩

/-! ### A header out of turn -/

theorem sendHeader_outOfTurn (d : Dir) {here : Seq} (reply exit : Seq) (h : s.seq ≠ here ∨ s.csN = true) :
    sendHeader d here reply exit s = .fault .headerOutOfTurn :=
  if_neg fun ⟨hs, hc⟩ => h.elim (· hs) (by simp [hc])

theorem exec_hsReady_outOfTurn (h : (s.seq ≠ .w2reply ∧ s.seq ≠ .p3reply) ∨ s.csN = true) (wcap rcap : Half) :
    exec (.hsReady wcap rcap) s = .fault .headerOutOfTurn := by
  have hw : ¬(s.seq = .w2reply ∧ s.csN = false) := fun ⟨hs, hc⟩ => h.elim (·.1 hs) (by simp [hc])
  have hp : ¬(s.seq = .p3reply ∧ s.csN = false) := fun ⟨hs, hc⟩ => h.elim (·.2 hs) (by simp [hc])
  exact (if_neg hw).trans (if_neg hp)

/-- Settles O19: each header is run only at its own places, with chip-select asserted. -/
theorem headerOutOfTurnStops : Obligations.HeaderOutOfTurnStops := fun _ wcap rcap =>
  ⟨sendHeader_outOfTurn .write _ _, sendHeader_outOfTurn .read _ _,
    fun h => exec_hsReady_outOfTurn h wcap rcap⟩

end Sys2Proof.Machine

/-! PROOFS. The transfer driver: WRITE's outcomes and what it leaves alone (R161 to R166), PULL's readiness gate and
handshake (R167 to R169), and the windows it moves (R170 to R175). -/

namespace Sys2Proof.Machine

variable {s t u m : State}

/-! ### The bus -/

theorem busWrite_ok (tx : List Byte) (h : (nextDraw s).1.commFault = false) :
    busWrite tx s = (.ok, emit (.wro tx .ok) (nextDraw s).2) := by
  simp [busWrite, wroOf, h]

theorem busWrite_fault (tx : List Byte) (h : (nextDraw s).1.commFault = true) :
    busWrite tx s = (.commFault, emit (.wro tx .commFault) (nextDraw s).2) := by
  simp [busWrite, wroOf, h]

/-- The state after a handshake whose transfer succeeded: the reply is in HSBUF (R141). -/
def replied (d : Dir) (s : State) : State :=
  { s with
    hsbuf := headerOf (fit 5 (nextDraw s).1.rx)
    env := (nextDraw s).2.env
    fresh := (nextDraw s).2.fresh
    trace := s.trace ++ [.xfer (request d) (.ok (fit 5 (nextDraw s).1.rx))] }

theorem handshake_replied (d : Dir) (h : (nextDraw s).1.commFault = false) :
    handshake d s = (replyOf (headerOf (fit 5 (nextDraw s).1.rx)), replied d s) := by
  rw [handshake_ok d h, afterRequest, answerOf_ok 5 h]
  rfl

theorem afterRequest_trace_fault (d : Dir) (h : (nextDraw s).1.commFault = true) :
    (afterRequest d s).trace = s.trace ++ [BusEvent.xfer (request d) .commFault] := by
  simp [afterRequest, answerOf_fault 5 h, XferAnswer.outcome]

theorem handshake_notReady (d : Dir) (hf : (nextDraw s).1.commFault = false)
    (h0 : (fit 5 (nextDraw s).1.rx).getD 0 0#8 ≠ 0x02#8) : handshake d s = (.notReady, replied d s) := by
  rw [handshake_replied d hf, replyOf_eq]
  exact congrArg (·, replied d s) (if_neg h0)

theorem handshake_ready (d : Dir) (hf : (nextDraw s).1.commFault = false)
    (h0 : (fit 5 (nextDraw s).1.rx).getD 0 0#8 = 0x02#8) : handshake d s =
      (.ready (le16 ((fit 5 (nextDraw s).1.rx).getD 1 0#8) ((fit 5 (nextDraw s).1.rx).getD 2 0#8))
        (le16 ((fit 5 (nextDraw s).1.rx).getD 3 0#8) ((fit 5 (nextDraw s).1.rx).getD 4 0#8)), replied d s) := by
  rw [handshake_replied d hf, replyOf_eq]
  exact congrArg (·, replied d s) (if_pos h0)

/-- The end of a bus phase begun at a command boundary. -/
theorem release_idle {b : Res × State} (h : b.2.seq = .idle) : release b = { b.2 with
    csN := true, cur := none, lastRes := b.1, out := some { res := b.1 }, trace := b.2.trace ++ [.cs true] } :=
  complete_idle (s := setCS true b.2) h _

/-! ### WRITE -/

theorem exec_write_ready (h : Ready s) (hdrs pays : List Byte) :
    exec (.write hdrs pays) s = .next (release (writeBody hdrs pays (setCS false s))) := enter_ready h _

theorem sendStrings_hdrs_fault {hdrs : List Byte} (pays : List Byte) (h : (nextDraw s).1.commFault = true) :
    sendStrings hdrs pays s = (.errComm, emit (.wro hdrs .commFault) (nextDraw s).2) := by
  rw [sendStrings, busWrite_fault hdrs h]

/-- The state after @W3, when its transfer succeeded (R161). -/
def hdrsSent (hdrs : List Byte) (s : State) : State := emit (.wro hdrs .ok) (nextDraw s).2

theorem sendStrings_pays_fault {hdrs pays : List Byte} (h : (nextDraw s).1.commFault = false)
    (h' : (nextDraw (hdrsSent hdrs s)).1.commFault = true) :
    sendStrings hdrs pays s = (.errComm, emit (.wro pays .commFault) (nextDraw (hdrsSent hdrs s)).2) := by
  rw [sendStrings, busWrite_ok hdrs h]
  dsimp only
  rw [← hdrsSent, busWrite_fault pays h']

theorem sendStrings_ok {hdrs pays : List Byte} (h : (nextDraw s).1.commFault = false)
    (h' : (nextDraw (hdrsSent hdrs s)).1.commFault = false) :
    sendStrings hdrs pays s = (.ok, emit (.wro pays .ok) (nextDraw (hdrsSent hdrs s)).2) := by
  rw [sendStrings, busWrite_ok hdrs h]
  dsimp only
  rw [← hdrsSent, busWrite_ok pays h']

/-- A WRITE seen from the end of its bus phase: the result and the events are the bus phase's, and besides the model's
draw bookkeeping HSBUF alone is written (R165, R166). -/
theorem exec_write_ends (hready : Ready s) {hdrs pays : List Byte} {res : Res} {events : List BusEvent}
    (hbody : writeBody hdrs pays (setCS false s) = (res, m)) (htrace : m.trace = s.trace ++ [.cs false] ++ events) :
    ∃ t, exec (.write hdrs pays) s = .next t ∧
      t = { s with
        csN := true, hsbuf := t.hsbuf, env := t.env, fresh := t.fresh, cur := none,
        lastRes := res, out := some ⟨res, 0#16, [], none⟩,
        trace := s.trace ++ [.cs false] ++ events ++ [.cs true] } := by
  obtain ⟨r, m', ev, hspec, -, -, hframe⟩ := writeBody_spec hdrs pays (setCS false s)
  obtain ⟨rfl, rfl⟩ := Prod.mk.inj (hspec.symm.trans hbody)
  refine ⟨_, exec_write_ready hready hdrs pays, ?_⟩
  have hidle : m'.seq = .idle := by rw [hframe]; exact hready.1
  rw [hbody, release_idle hidle, ← htrace]
  dsimp only
  rw [hframe]
  rfl

/-- Settles O20: the answers to the handshake and to the two strings are gone through in their order. -/
theorem writeOutcomes : Obligations.WriteOutcomes := by
  intro s hdrs pays d0 d1 d2 hready hd
  obtain ⟨rfl, hd1⟩ := draws_cons hd
  obtain ⟨rfl, hd2⟩ := draws_cons hd1
  obtain ⟨rfl, -⟩ := draws_cons hd2
  refine ⟨fun hf => ?_, fun hf => ?_⟩
  · exact exec_write_ends hready (writeBody_comm (handshake_fault .write hf))
      (afterRequest_trace_fault (s := setCS false s) .write hf)
  have hreply : (replied .write (setCS false s)).trace =
      s.trace ++ [.cs false] ++ [.xfer [0x0A#8, 0#8, 0#8, 0#8, 0#8] (.ok (fit 5 (nextDraw s).1.rx))] :=
    rfl
  refine ⟨fun h0 => ?_, fun h0 => ?_⟩
  · exact exec_write_ends hready (writeBody_notReady (handshake_notReady .write hf h0)) hreply
  have hbody := writeBody_ready (hdrs := hdrs) (pays := pays) (handshake_ready (s := setCS false s) .write hf h0)
  rw [le16_toNat] at hbody
  refine ⟨fun hshort => exec_write_ends hready (hbody.trans (if_pos hshort)) hreply, fun hfits => ?_⟩
  replace hbody := hbody.trans (if_neg (not_lt.mpr hfits))
  refine ⟨fun h1 => ?_, fun h1 h2 => ?_, fun h1 h2 => ?_⟩
  · exact exec_write_ends hready (hbody.trans (sendStrings_hdrs_fault pays h1)) (by simp [hreply])
  · exact exec_write_ends hready (hbody.trans (sendStrings_pays_fault h1 h2)) (by simp [hdrsSent, hreply])
  · exact exec_write_ends hready (hbody.trans (sendStrings_ok h1 h2)) (by simp [hdrsSent, hreply])

/-- Settles O21: the bus phase writes HSBUF and no other store, and a refused or overlapping WRITE none at all. -/
theorem writeLeavesRingBuffer : Obligations.WriteLeavesRingBuffer := by
  intro s hdrs pays
  rcases enter_next (runWrite hdrs pays) s with h | h | h
  · exact ⟨_, h, by simp⟩
  · exact ⟨_, h, by simp⟩
  · obtain ⟨r, m, ev, hbody, -, -, hframe⟩ := writeBody_spec hdrs pays (setCS false s)
    refine ⟨_, h, ?_⟩
    rw [runWrite, hbody, hframe]
    exact ⟨rfl, rfl, rfl, rfl, rfl, rfl⟩

/-! ### Chip-select scoping -/

theorem exec_pull_ready (h : Ready s) : exec .pull s = .next (runPull s) := enter_ready h _

theorem exec_read_ready (h : Ready s) : exec .read s = .next (runRead s) := enter_ready h _

/-- The polarity of the readiness line (R14). -/
theorem asserted_iff (c : Config) (level : Bool) : asserted c level = true ↔ level = c.rdyActiveHigh := beq_iff_eq

theorem not_asserted_iff (c : Config) (level : Bool) : asserted c level = false ↔ level ≠ c.rdyActiveHigh :=
  beq_eq_false_iff_ne

theorem Stepped.trace_eq (h : Stepped 0 s t) : t.trace = s.trace := by
  obtain ⟨ev, htrace, hlen⟩ := h.grows
  rw [htrace, List.eq_nil_of_length_eq_zero (Nat.le_zero.mp hlen), List.append_nil]

/-- An extraction records no bus event (R192, R210). -/
theorem finishRead_trace (p : Res) (s : State) : (finishRead p s).trace = s.trace :=
  (extraction_stepped s _ _).trace_eq

/-- PULL and READ record the events of PullBody() and no others (R167, R210). -/
theorem exec_pulls_trace (hready : Ready s) {i : Instr} (hi : i = .pull ∨ i = .read) :
    ∃ t, exec i s = .next t ∧ t.trace = (pullBody s).2.trace := by
  rcases hi with rfl | rfl
  · exact ⟨_, exec_pull_ready hready, rfl⟩
  · exact ⟨_, exec_read_ready hready, finishRead_trace _ _⟩

/-- The events of PullBody(), by the sample of the readiness line (R166 to R168). -/
theorem pullBody_trace (hr : RingInv s) :
    ((nextDraw s).1.level = s.cfg.rdyActiveHigh ∧ ∃ mid : List BusEvent,
      (pullBody s).2.trace = s.trace ++ [BusEvent.rdys true, BusEvent.cs false] ++ mid ++ [BusEvent.cs true] ∧
        ∀ e ∈ mid, ∃ tx out, e = .xfer tx out) ∨
    ((nextDraw s).1.level ≠ s.cfg.rdyActiveHigh ∧ (pullBody s).2.trace = s.trace ++ [BusEvent.rdys false]) := by
  obtain ⟨r, t, bs, evs, hbody, hpulled⟩ := pullBody_spec hr
  have htrace : (pullBody s).2.trace = s.trace ++ evs := by rw [hbody, hpulled.frame]
  rw [htrace]
  rcases hpulled.events with ⟨ha, -, mid, -, rfl, hmid⟩ | ⟨ha, -, rfl, -, -⟩
  · exact .inl ⟨(asserted_iff _ _).mp ha, mid, by simp, hmid⟩
  · exact .inr ⟨(not_asserted_iff _ _).mp ha, rfl⟩

/-- Settles O22: the events of WRITE's bus phase, and those of PullBody(). -/
theorem chipSelectScoping : Obligations.ChipSelectScoping := by
  intro s hinv hready
  refine ⟨fun hdrs pays => ?_, fun i hi => ?_⟩
  · obtain ⟨r, m, mid, hbody, -, hmid, hframe⟩ := writeBody_spec hdrs pays (setCS false s)
    obtain ⟨t, ht, hend⟩ := exec_write_ends hready hbody (congrArg State.trace hframe)
    exact ⟨t, mid, ht, congrArg State.trace hend, hmid⟩
  · obtain ⟨t, ht, htrace⟩ := exec_pulls_trace hready hi
    exact ⟨t, ht, htrace ▸ pullBody_trace hinv.ring⟩

/-! ### PULL's gate and handshake -/

/-- A PULL whose sample of the line is not asserted (R168). -/
theorem exec_pull_gated (hready : Ready s) (h : (nextDraw s).1.level ≠ s.cfg.rdyActiveHigh) :
    exec .pull s = .next (complete { res := .notReady } (emit (.rdys false) (nextDraw s).2)) := by
  rw [exec_pull_ready hready, runPull, pullBody_gated ((not_asserted_iff _ _).mpr h)]

/-- Settles O23: the sample is PullBody()'s first event, and without an asserted line its only one. -/
theorem pullReadinessGate : Obligations.PullReadinessGate := by
  intro s hinv hready
  refine ⟨?_, fun h => ⟨_, exec_pull_gated hready h, ?_⟩⟩
  · obtain ⟨t, ht, htrace⟩ := exec_pulls_trace hready (.inl rfl)
    have hevents := pullBody_trace hinv.ring
    rw [← htrace] at hevents
    rcases hevents with ⟨ha, mid, hev, hmid⟩ | ⟨ha, hev⟩
    · refine ⟨t, .cs false :: mid ++ [.cs true], ht, by simp [hev, ha], fun v hv => ?_⟩
      simp only [List.cons_append, List.mem_cons, List.mem_append, List.not_mem_nil, or_false, reduceCtorEq,
        false_or] at hv
      obtain ⟨tx, out, he⟩ := hmid _ hv
      cases he
    · exact ⟨t, [], ht, by simp [hev, ha], by simp⟩
  · rw [complete_idle (s := emit (.rdys false) (nextDraw s).2) hready.1]
    rfl

/-- The state after @P2: the line was sampled as asserted, and chip-select is asserted (R167). -/
def selected (s : State) : State := setCS false (emit (.rdys true) (nextDraw s).2)

/-- A PULL whose sample of the line is asserted, from its transfer (R167). -/
theorem exec_pull_selected (hready : Ready s) (h : (nextDraw s).1.level = s.cfg.rdyActiveHigh) :
    exec .pull s = .next (release (pullTransfer (selected s))) := by
  rw [exec_pull_ready hready, runPull, pullBody_selected ((asserted_iff _ _).mpr h)]
  rfl

/-- A PULL that ends at its handshake: besides the model's draw bookkeeping HSBUF alone is written (R169). -/
theorem exec_pull_ends_at_handshake (hready : Ready s) (hlevel : (nextDraw s).1.level = s.cfg.rdyActiveHigh)
    {o : HsOutcome} {res : Res} {out : XferOutcome} (hh : handshake .read (selected s) = (o, m))
    (hbody : pullTransfer (selected s) = (res, m)) (hout : (answerOf 5 (nextDraw (selected s)).1).outcome = out) :
    ∃ t, exec .pull s = .next t ∧
      t = { s with
        csN := true, hsbuf := t.hsbuf, env := t.env, fresh := t.fresh, cur := none, lastRes := res,
        out := some ⟨res, 0#16, [], none⟩,
        trace := s.trace ++ [.rdys true, .cs false, .xfer [0x0B#8, 0#8, 0#8, 0#8, 0#8] out, .cs true] } := by
  refine ⟨_, exec_pull_selected hready hlevel, ?_⟩
  have hframe := handshake_frame .read (selected s)
  rw [hh, hout] at hframe
  dsimp only at hframe
  have hidle : m.seq = .idle := by rw [hframe]; exact hready.1
  rw [hbody, release_idle hidle]
  dsimp only
  rw [hframe]
  simp [selected, request, requestHeader, readMarker]

/-- Settles O24: the handshake's outcome is the pull's result. -/
theorem pullHandshakeFailures : Obligations.PullHandshakeFailures := by
  intro s d0 d1 hready hd hlevel
  obtain ⟨rfl, hd1⟩ := draws_cons hd
  obtain ⟨rfl, -⟩ := draws_cons hd1
  refine ⟨fun hf => ?_, fun hf h0 => ?_⟩
  · have hh := handshake_fault (s := selected s) .read hf
    exact exec_pull_ends_at_handshake hready hlevel hh (pullTransfer_comm hh) (congrArg _ (answerOf_fault 5 hf))
  · have hh := handshake_notReady (s := selected s) .read hf h0
    exact exec_pull_ends_at_handshake hready hlevel hh (pullTransfer_notReady hh) (congrArg _ (answerOf_ok 5 hf))

/-! ### The windows of a pull -/

/-- The length of the second window: what is still announced, up to the space still free (R173). -/
def secondLen (s : State) : Nat := min (s.rRem.toNat - windowLen s) (freeLen s - windowLen s)

/-- The two windows together are all that is announced, or all that is free (R167, R173). -/
theorem windowLen_add_secondLen (s : State) : windowLen s + secondLen s = min s.rRem.toNat (freeLen s) := by
  have hfree : windowLen s ≤ freeLen s := (windowLen_le s).trans (contigLen_le_free s)
  have hrem := windowLen_le_rem s
  unfold secondLen
  omega

/-- Without a first window there is no second (R174, R175): nothing is announced, or nothing is free. -/
theorem secondLen_eq_zero (hr : RingInv s) (h : windowLen s = 0) : secondLen s = 0 := by
  have hwp := hr.wpLt
  unfold secondLen freeLen
  unfold windowLen contigLen at h ⊢
  omega

/-- After a first window that succeeds, the loop opens the second (R173). -/
theorem Moved.windowLen_eq_secondLen (hr : RingInv s) {bs : List Byte} {out : XferOutcome}
    (h : Moved (windowLen s) s t bs (s.rRem.toNat - windowLen s) out) : windowLen t = secondLen s :=
  (windowLen_next hr h).1

/-- A window leaves the draws after its own. -/
theorem Moved.draws {k rem : Nat} {bs : List Byte} {out : XferOutcome} (h : Moved k s t bs rem out) (n : Nat) :
    draws n t = draws n (nextDraw s).2 :=
  draws_congr n (by rw [h.frame]) (by rw [h.frame])

theorem Loaded.cnt {bs : List Byte} {ev : List BusEvent} (h : Loaded s t bs ev) :
    t.cnt.toNat = s.cnt.toNat + bs.length := by
  rw [← contents_length t, h.contents, List.length_append, contents_length]

/-- WP follows RP and CNT, and a pull does not move RP (R24). -/
theorem Loaded.wp {bs : List Byte} {ev : List BusEvent} (h : Loaded s t bs ev) (hr : RingInv s) :
    t.wp.toNat = (s.wp.toNat + bs.length) % capN s := by
  have hcap : capN t = capN s := by rw [h.frame]; rfl
  have hrp : t.rp = s.rp := by rw [h.frame]
  rw [h.ring.wpEq, hr.wpEq, h.cnt, hcap, hrp, Nat.mod_add_mod, Nat.add_assoc]

/-- What the pull loop leaves: R_REM is `left`; the windows are the first and the `second` bytes from address 0 on. -/
structure Looped (s t : State) (bs : List Byte) (ev : List BusEvent) (left second : Nat) : Prop where
  loaded : Loaded s t bs ev
  left : t.rRem.toNat = left
  outside : ∀ a, a < s.wp.toNat ∨ s.wp.toNat + windowLen s ≤ a → second ≤ a → t.rb.read a = s.rb.read a

theorem Looped.none (hr : RingInv s) : Looped s s [] [] s.rRem.toNat 0 := ⟨.none hr, rfl, fun _ _ _ => rfl⟩

theorem Moved.looped {rem : Nat} {bs : List Byte} {out : XferOutcome} (h : Moved (windowLen s) s t bs rem out) :
    Looped s t bs [.xfer (zeros (windowLen s)) out] rem 0 :=
  ⟨h.loaded, h.rem, fun a ha _ => h.outside a ha⟩

/-- A second window starts at address 0, since the first ended at the end of the buffer (R173). -/
theorem Moved.wp_eq_zero (hr : RingInv s) {bs : List Byte} {out : XferOutcome}
    (h : Moved (windowLen s) s t bs (s.rRem.toNat - windowLen s) out) (hpos : 0 < secondLen s) : t.wp.toNat = 0 := by
  have hwp := hr.wpLt
  have hend : s.wp.toNat + windowLen s = capN s := by
    unfold secondLen freeLen at hpos
    unfold windowLen contigLen at hpos ⊢
    omega
  rw [h.wp, hend, Nat.mod_self]

/-- Two windows, one after the other. -/
theorem Moved.looped_second (hr : RingInv s) {rem : Nat} {bs bs' : List Byte} {out out' : XferOutcome}
    (h : Moved (windowLen s) s t bs (s.rRem.toNat - windowLen s) out) (h' : Moved (windowLen t) t u bs' rem out')
    (hpos : 0 < windowLen t) :
    Looped s u (bs ++ bs') [.xfer (zeros (windowLen s)) out, .xfer (zeros (windowLen t)) out'] rem (windowLen t) := by
  refine ⟨h.loaded.trans h'.loaded, h'.rem, fun a ha hsecond => ?_⟩
  have hwp := h.wp_eq_zero hr (hpos.trans_eq (h.windowLen_eq_secondLen hr))
  rw [h'.outside a (.inr (by omega)), h.outside a ha]

/-- A turn of the loop whose window succeeds (R170). -/
theorem pullLoop_turn_ok (hr : RingInv s) (hpos : 0 < windowLen s) (hf : (nextDraw s).1.commFault = false)
    {turns : Nat} (hturns : 0 < turns) :
    ∃ t, pullLoop turns s = pullLoop (turns - 1) t ∧
      Moved (windowLen s) s t (fit (windowLen s) (nextDraw s).1.rx) (s.rRem.toNat - windowLen s)
        (.ok (fit (windowLen s) (nextDraw s).1.rx)) := by
  obtain ⟨t, ht, hmoved⟩ := moveWindow_ok hr hf
  obtain ⟨turns, rfl⟩ := Nat.exists_eq_add_of_lt hturns
  exact ⟨t, pullLoop_next _ hpos ht, hmoved⟩

/-- A turn of the loop whose window faults (R172). -/
theorem pullLoop_turn_fault (hr : RingInv s) (hpos : 0 < windowLen s) (hf : (nextDraw s).1.commFault = true)
    {turns : Nat} (hturns : 0 < turns) :
    ∃ t, pullLoop turns s = (.errComm, t) ∧
      Moved (windowLen s) s t (faultedWindow (windowLen s) ((nextDraw s).1.rx.take (windowLen s))) s.rRem.toNat
        .commFault := by
  obtain ⟨t, ht, hmoved⟩ := moveWindow_fault hr hf
  obtain ⟨turns, rfl⟩ := Nat.exists_eq_add_of_lt hturns
  exact ⟨t, pullLoop_stop _ hpos ht, hmoved⟩

/-- The event of a window of `k` bytes that succeeds, none without a byte to move (R170, R174). -/
def windowEvent (k : Nat) (d : Draw) : List BusEvent :=
  if k = 0 then [] else [.xfer (zeros k) (.ok (fit k d.rx))]

/-- The pull loop where no window faults (R170, R173). -/
theorem pullLoop_completes (hr : RingInv s) {d d' : Draw} (hd : draws 2 s = [d, d'])
    (hf : 0 < windowLen s → d.commFault = false) (hf' : 0 < secondLen s → d'.commFault = false) :
    ∃ t, pullLoop s.rRem.toNat s = (.ok, t) ∧
      Looped s t (fit (windowLen s) d.rx ++ fit (secondLen s) d'.rx)
        (windowEvent (windowLen s) d ++ windowEvent (secondLen s) d')
        (s.rRem.toNat - (windowLen s + secondLen s)) (secondLen s) := by
  obtain ⟨rfl, hd1⟩ := draws_cons hd
  by_cases h0 : windowLen s = 0
  · refine ⟨s, pullLoop_done _ h0, ?_⟩
    rw [secondLen_eq_zero hr h0, h0]
    exact .none hr
  have hpos := Nat.pos_of_ne_zero h0
  have hrem := windowLen_le_rem s
  obtain ⟨t, hloop, hmoved⟩ := pullLoop_turn_ok hr hpos (hf hpos) (hpos.trans_le hrem)
  have hnext := hmoved.windowLen_eq_secondLen hr
  by_cases h1 : secondLen s = 0
  · refine ⟨t, hloop.trans (pullLoop_done _ (hnext.trans h1)), ?_⟩
    simpa [windowEvent, h0, h1, fit] using hmoved.looped
  rw [← hmoved.draws] at hd1
  obtain ⟨rfl, -⟩ := draws_cons hd1
  rw [← hnext] at h1 hf' ⊢
  have hpos' := Nat.pos_of_ne_zero h1
  have hrem' := windowLen_le_rem t
  rw [hmoved.rem] at hrem'
  obtain ⟨u, hloop', hmoved'⟩ :=
    pullLoop_turn_ok hmoved.ring hpos' (hf' hpos') (turns := s.rRem.toNat - 1) (by omega)
  refine ⟨u, ?_, ?_⟩
  · rw [hloop, hloop', pullLoop_done _ (windowLen_third hr hmoved hmoved')]
  · rw [hmoved.rem, Nat.sub_sub] at hmoved'
    simpa [windowEvent, h0, h1] using hmoved.looped_second hr hmoved' hpos'

/-- The pull loop where the first window faults (R172). -/
theorem pullLoop_first_faults (hr : RingInv s) {d d' : Draw} (hd : draws 2 s = [d, d']) (hpos : 0 < windowLen s)
    (hf : d.commFault = true) :
    ∃ t, pullLoop s.rRem.toNat s = (.errComm, t) ∧
      Looped s t (faultedWindow (windowLen s) (d.rx.take (windowLen s)))
        [.xfer (zeros (windowLen s)) .commFault] s.rRem.toNat 0 := by
  obtain ⟨rfl, -⟩ := draws_cons hd
  obtain ⟨t, hloop, hmoved⟩ := pullLoop_turn_fault hr hpos hf (hpos.trans_le (windowLen_le_rem s))
  exact ⟨t, hloop, hmoved.looped⟩

/-- The pull loop where the second window faults (R172, R173). -/
theorem pullLoop_second_faults (hr : RingInv s) {d d' : Draw} (hd : draws 2 s = [d, d']) (hpos' : 0 < secondLen s)
    (hf : d.commFault = false) (hf' : d'.commFault = true) :
    ∃ t, pullLoop s.rRem.toNat s = (.errComm, t) ∧
      Looped s t (fit (windowLen s) d.rx ++ faultedWindow (secondLen s) (d'.rx.take (secondLen s)))
        [.xfer (zeros (windowLen s)) (.ok (fit (windowLen s) d.rx)), .xfer (zeros (secondLen s)) .commFault]
        (s.rRem.toNat - windowLen s) (secondLen s) := by
  obtain ⟨rfl, hd1⟩ := draws_cons hd
  have hpos : 0 < windowLen s := Nat.pos_of_ne_zero fun h => hpos'.ne' (secondLen_eq_zero hr h)
  obtain ⟨t, hloop, hmoved⟩ := pullLoop_turn_ok hr hpos hf (hpos.trans_le (windowLen_le_rem s))
  have hnext := hmoved.windowLen_eq_secondLen hr
  rw [← hmoved.draws] at hd1
  obtain ⟨rfl, -⟩ := draws_cons hd1
  rw [← hnext] at hpos' ⊢
  have hrem' := windowLen_le_rem t
  rw [hmoved.rem] at hrem'
  obtain ⟨u, hloop', hmoved'⟩ :=
    pullLoop_turn_fault hmoved.ring hpos' hf' (turns := s.rRem.toNat - 1) (by omega)
  rw [hmoved.rem] at hmoved'
  exact ⟨u, hloop.trans hloop', hmoved.looped_second hr hmoved' hpos'⟩

/-! ### PULL past a ready reply -/

/-- The state in which the pull loop begins: the line was asserted, the reply is in HSBUF and R_REM is the capacity it
announced (R141, R167). -/
def loopStart (rcap : Half) (s : State) : State :=
  { s with
    csN := false
    hsbuf := headerOf (fit 5 (nextDraw (nextDraw s).2).1.rx)
    rRem := rcap
    env := (nextDraw (nextDraw s).2).2.env
    fresh := (nextDraw (nextDraw s).2).2.fresh
    trace := s.trace ++ [.rdys true, .cs false,
      .xfer [0x0B#8, 0#8, 0#8, 0#8, 0#8] (.ok (fit 5 (nextDraw (nextDraw s).2).1.rx))] }

theorem replied_selected (rcap : Half) (s : State) :
    { replied .read (selected s) with rRem := rcap } = loopStart rcap s := by
  simp only [replied, selected, setCS, emit, List.append_assoc]
  rfl

/-- A ready reply with the capacity it announces, and the loop that follows (R142, R167). -/
theorem pullTransfer_loopStart (hf : (nextDraw (nextDraw s).2).1.commFault = false)
    (h0 : (fit 5 (nextDraw (nextDraw s).2).1.rx).getD 0 0#8 = 0x02#8) :
    ∃ rcap : Half, rcap.toNat = ((fit 5 (nextDraw (nextDraw s).2).1.rx).getD 3 0#8).toNat +
        256 * ((fit 5 (nextDraw (nextDraw s).2).1.rx).getD 4 0#8).toNat ∧
      pullTransfer (selected s) = pullLoop rcap.toNat (loopStart rcap s) :=
  ⟨_, le16_toNat _ _, replied_selected _ s ▸ pullTransfer_ready (handshake_ready (s := selected s) .read hf h0)⟩

variable {rcap : Half}

theorem loopStart_ring (hr : RingInv s) : RingInv (loopStart rcap s) := ring_congr hr rfl rfl rfl rfl

theorem loopStart_contents : contents (loopStart rcap s) = contents s := contents_congr rfl rfl rfl rfl

theorem loopStart_draws (n : Nat) : draws n (loopStart rcap s) = draws n (nextDraw (nextDraw s).2).2 :=
  draws_congr n rfl rfl

/-- A PULL with a ready reply, from the end of its loop: `bytes` joined the valid window, and RP, FBUF, FLEN and every
byte of RB outside the windows are as before (R167, R170, R172). -/
theorem exec_pull_ends (hr : RingInv s) (hready : Ready s) (hlevel : (nextDraw s).1.level = s.cfg.rdyActiveHigh)
    (htransfer : pullTransfer (selected s) = pullLoop rcap.toNat (loopStart rcap s)) {res : Res} {bytes : List Byte}
    {events : List BusEvent} {left second : Nat} (hloop : pullLoop rcap.toNat (loopStart rcap s) = (res, m))
    (hlooped : Looped (loopStart rcap s) m bytes events left second) :
    ∃ t, exec .pull s = .next t ∧
      t = { s with
        rb := t.rb, wp := t.wp, cnt := t.cnt, csN := true, hsbuf := t.hsbuf, rRem := t.rRem, winK := t.winK,
        env := t.env, fresh := t.fresh, cur := none, lastRes := res, out := some ⟨res, 0#16, [], none⟩,
        trace := s.trace ++ [.rdys true, .cs false, .xfer [0x0B#8, 0#8, 0#8, 0#8, 0#8]
          (.ok (fit 5 (nextDraw (nextDraw s).2).1.rx))] ++ events ++ [.cs true] } ∧
      contents t = contents s ++ bytes ∧ t.cnt.toNat = s.cnt.toNat + bytes.length ∧
      t.wp.toNat = (s.wp.toNat + bytes.length) % s.cfg.cap.toNat ∧ t.rRem.toNat = left ∧
      (∀ a : Nat, a < s.wp.toNat ∨ s.wp.toNat + windowLen (loopStart rcap s) ≤ a → second ≤ a →
        t.rb.read a = s.rb.read a) := by
  have hframe := hlooped.loaded.frame
  have hidle : m.seq = .idle := by rw [hframe]; exact hready.1
  have hexec := exec_pull_selected hready hlevel
  rw [htransfer, hloop, release_idle hidle] at hexec
  refine ⟨_, hexec, ?_, ?_, hlooped.loaded.cnt, hlooped.loaded.wp (loopStart_ring hr), hlooped.left,
    hlooped.outside⟩
  · dsimp only
    rw [hframe]
    rfl
  · exact ((contents_congr (s := m) rfl rfl rfl rfl).trans hlooped.loaded.contents).trans
      (congrArg (· ++ bytes) loopStart_contents)

/-- Settles O25: the loop where no window faults. -/
theorem pullMovesBytes : Obligations.PullMovesBytes := by
  intro s d0 d1 d2 d3 hinv hready hd hlevel hf
  obtain ⟨rfl, hd1⟩ := draws_cons hd
  obtain ⟨rfl, hd2⟩ := draws_cons hd1
  dsimp only
  intro h0
  obtain ⟨rcap, hrcap, htransfer⟩ := pullTransfer_loopStart hf h0
  rw [← hrcap]
  rw [← loopStart_draws (rcap := rcap)] at hd2
  intro h1 h2
  obtain ⟨m, hloop, hlooped⟩ := pullLoop_completes (loopStart_ring hinv.ring) hd2 h1 h2
  have hend := exec_pull_ends hinv.ring hready hlevel htransfer hloop hlooped
  rw [List.length_append, fit_length, fit_length, windowLen_add_secondLen] at hend
  simp only [← List.append_assoc] at hend
  exact hend

/-- Settles O26: the loop where the first window faults, and the loop where the second does. -/
theorem pullFaultedWindowCommitted : Obligations.PullFaultedWindowCommitted := by
  intro s d0 d1 d2 d3 hinv hready hd hlevel hf
  obtain ⟨rfl, hd1⟩ := draws_cons hd
  obtain ⟨rfl, hd2⟩ := draws_cons hd1
  dsimp only
  intro h0
  obtain ⟨rcap, hrcap, htransfer⟩ := pullTransfer_loopStart hf h0
  rw [← hrcap]
  rw [← loopStart_draws (rcap := rcap)] at hd2
  have hr := loopStart_ring (rcap := rcap) hinv.ring
  refine ⟨fun h1 h2 => ?_, fun h1 h2 h3 => ?_⟩
  · obtain ⟨m, hloop, hlooped⟩ := pullLoop_first_faults hr hd2 h1 h2
    have hend := exec_pull_ends hinv.ring hready hlevel htransfer hloop hlooped
    rwa [faultedWindow_length (List.length_take_le _ _)] at hend
  · obtain ⟨m, hloop, hlooped⟩ := pullLoop_second_faults hr hd2 h1 h2 h3
    have hend := exec_pull_ends hinv.ring hready hlevel htransfer hloop hlooped
    rwa [List.length_append, fit_length, faultedWindow_length (List.length_take_le _ _)] at hend

end Sys2Proof.Machine

/-! PROOFS. EXTRACT, by the three cases of ExtractStep() (R192 to R195). -/

namespace Sys2Proof.Machine

variable {s : State}

theorem exec_extract_ready (h : Ready s) : exec .extract s = .next (runExtract s) := enter_ready h _

/-- An EXTRACT without a complete frame (R193). -/
theorem exec_extract_none (hready : Ready s) (h : s.cnt.toNat < s.cfg.hdrLen ∨ s.cnt.toNat < frameLen s) :
    exec .extract s = .next { s with
      lastRes := .notReady, cur := none, out := some ⟨.notReady, 0#16, [], none⟩ } := by
  rw [exec_extract_ready hready, runExtract, extractStep_none h, ← complete_idle hready.1 ⟨.notReady, 0#16, [], none⟩]

/-- An EXTRACT of a complete frame longer than FRAME_MAX (R194). -/
theorem exec_extract_long (hready : Ready s) (h : frameLen s ≤ s.cnt.toNat) (hlong : Config.frameMax < frameLen s) :
    exec .extract s = .next (faulted .frameTooLong s) := by
  rw [exec_extract_ready hready, runExtract, extractStep_long h hlong, ← raise_ready hready (by decide)]

/-- A verdict's result is OK or ERR_DECODE, so a frame taken is never reported as NOT_READY (R192). -/
theorem verdictRes_ne_notReady (v : Verdict) : verdictRes v ≠ .notReady := by
  cases v with
  | event e => exact Res.noConfusion
  | decodeError k => exact Res.noConfusion

/-- Only an extraction without a frame reports NOT_READY (R192). -/
theorem runExtract_notReady {o : Output} (hout : (runExtract s).out = some o) (hres : o.res = .notReady) :
    runExtract s = complete { res := .notReady } s := by
  rcases extractStep_cases s with h | h | ⟨n, v, -, -, h⟩
  · rw [runExtract, h]
  · rw [runExtract, h, raise_out] at hout
    cases hout
  · rw [runExtract, h, complete_out, Option.some_inj] at hout
    subst hout
    exact absurd hres (verdictRes_ne_notReady v)

/-- Settles O27: the availability checks come before any change, and no other end of an extraction reports NOT_READY. -/
theorem extractPartialFrame : Obligations.ExtractPartialFrame := by
  intro s hready
  refine ⟨exec_extract_none hready, fun t o hexec hout hres => ?_⟩
  rw [exec_extract_ready hready] at hexec
  obtain rfl : runExtract s = t := Host.Outcome.next.inj hexec
  rw [runExtract_notReady hout hres]
  exact ⟨rfl, rfl, rfl, rfl, rfl, rfl⟩

/-- Settles O28: the length check comes after the availability checks. -/
theorem extractFrameTooLong : Obligations.ExtractFrameTooLong := fun _ hready hlong =>
  ⟨fun hcomplete => exec_extract_long hready hcomplete hlong, fun hpartial => exec_extract_none hready (.inr hpartial)⟩

/-- FBUF is not part of the ring buffer. -/
theorem storeFrame_contents (f : List Byte) (s : State) : contents (storeFrame f s) = contents s :=
  contents_congr rfl rfl rfl rfl

/-- The length of a frame taken fits FLEN (R27). -/
theorem storeFrame_flen_toNat {f : List Byte} (h : f.length ≤ Config.frameMax) (s : State) :
    (storeFrame f s).flen.toNat = f.length :=
  Nat.mod_eq_of_lt (Nat.lt_of_le_of_lt h (by decide))

/-- An EXTRACT of a complete frame that fits FBUF (R192, R195). -/
theorem exec_extract_frame (hready : Ready s) (h : frameLen s ≤ s.cnt.toNat) (hfits : frameLen s ≤ Config.frameMax) :
    let frame := headBytes (frameLen s) s
    let v := Config.decodeFrame frame
    exec .extract s = .next (complete (frameOutput (verdictRes v) frame v)
      (storeFrame frame (dropHead (frameLen s) s))) := by
  rw [exec_extract_ready hready, runExtract, extractStep_frame h hfits]

/-- Settles O29: the frame is the head of the valid window; it leaves RB and is in FBUF whatever the verdict on it. -/
theorem extractTakesFrame : Obligations.ExtractTakesFrame := by
  intro s hinv hready len hle hmax
  have hlen : (headBytes len s).length = len := headBytes_length len s
  refine ⟨_, headBytes len s, verdictRes (Config.decodeFrame (headBytes len s)),
    exec_extract_frame hready hle hmax, ?_, ?_, hlen, dropHead_cnt_toNat s len, ?_,
    fun j hj => storeFrame_read _ _ j hj, fun a ha => storeFrame_read_past _ _ a (hlen.trans_le ha), ?_, ?_⟩
  · rw [complete_idle (s := storeFrame _ (dropHead _ s)) hready.1]
    rfl
  · rw [complete_contents, storeFrame_contents]
    exact headBytes_append_dropHead hinv.ring hle
  · exact (storeFrame_flen_toNat (hlen.trans_le hmax) (dropHead len s)).trans hlen
  · rintro ⟨e, he⟩
    rw [he, verdictRes]
  · rintro ⟨k, hk⟩
    rw [hk, verdictRes]

end Sys2Proof.Machine

/-! PROOFS. READ while the radio is not ready: the pull ends at its gate, and the extraction finds what was buffered before
(R197, R210, R212). -/

namespace Sys2Proof.Machine

variable {s : State}

/-- The state after @P1 when the line was sampled as not asserted (R168). -/
def gated (s : State) : State := emit (.rdys false) (nextDraw s).2

/-- The sample takes an answer of the environment and records its event; the ring buffer is as before. -/
theorem gated_headBytes (n : Nat) (s : State) : headBytes n (gated s) = headBytes n s := rfl

theorem gated_contents (s : State) : contents (gated s) = contents s := contents_congr rfl rfl rfl rfl

theorem gated_ring (hr : RingInv s) : RingInv (gated s) := ring_congr hr rfl rfl rfl rfl

/-- A READ whose sample of the line is not asserted still extracts (R168, R210). -/
theorem exec_read_gated (hready : Ready s) (h : (nextDraw s).1.level ≠ s.cfg.rdyActiveHigh) :
    exec .read s = .next (finishRead .notReady (gated s)) := by
  rw [exec_read_ready hready, runRead, pullBody_gated ((not_asserted_iff _ _).mpr h)]
  rfl

/-- A frame decides the combined result, whatever the pull's (R211). -/
theorem combine_verdictRes (p : Res) (v : Verdict) : combine p (verdictRes v) = verdictRes v := by
  cases v with
  | event e => rfl
  | decodeError k => rfl

/-- The extraction of a READ that finds a complete frame which fits FBUF (R192, R210). -/
theorem finishRead_frame (p : Res) (h : frameLen s ≤ s.cnt.toNat) (hfits : frameLen s ≤ Config.frameMax) :
    let frame := headBytes (frameLen s) s
    let v := Config.decodeFrame frame
    finishRead p s = complete (frameOutput (verdictRes v) frame v) (storeFrame frame (dropHead (frameLen s) s)) := by
  rw [finishRead, extractStep_frame h hfits]
  dsimp only
  rw [combine_verdictRes]

/-- Settles O32: the sample leaves the ring buffer alone, so the extraction takes the frame that was at its head. -/
theorem readReturnsBufferedFrame : Obligations.ReadReturnsBufferedFrame := by
  intro s hinv hready hlevel len hle hmax
  have hframe := finishRead_frame (s := gated s) .notReady hle hmax
  refine ⟨_, _, (exec_read_gated hready hlevel).trans (congrArg _ hframe), complete_out _ _, ?_, ?_,
    verdictRes_ne_notReady _, rfl⟩
  · exact (gated_headBytes len s).trans (headBytes_eq_take hle)
  · rw [complete_contents, storeFrame_contents, dropHead_contents (gated_ring hinv.ring), gated_contents]
    rfl

end Sys2Proof.Machine

/-! PROOFS. RDREG of a reserved number (R220, R221): no register answers to 5..65535. -/

namespace Sys2Proof.Machine

variable {s : State}

/-- The numbers from 5 on are reserved (R41). -/
theorem readReg_reserved {reg : Half} (h : 5 ≤ reg.toNat) (s : State) : readReg reg s = none := by
  unfold readReg
  split
  case h_6 => rfl
  all_goals omega

/-- Settles O35: a reserved number names no register, so only FAULT decides between the fault and VALUE = 0. -/
theorem rdregReservedNumber : Obligations.RdregReservedNumber := by
  intro s reg hs h
  have hnone := readReg_reserved h s
  rw [exec_rdreg_idle hs, runRdreg_eq]
  refine ⟨fun hf => ?_, fun hf => ?_⟩
  · rw [if_pos ⟨hnone, hf⟩, raise_ready ⟨hs, hf⟩ (by decide)]
  · rw [if_neg (by simp [hf]), hnone]
    rfl

end Sys2Proof.Machine

/-! PROOFS. Faults: what the fault state refuses (R234), that reset alone clears a fault (R237), which command raises
which fault and that it is precise (R232, R236), and a command presented while another is in progress (R244). -/

namespace Sys2Proof.Machine

variable {s t : State} {c : Running} {q : Seq} {i : Instr} {w : Word} {st : Strings} {rest : List HostInput}

/-- A fault other than REENTRY ends the command (R233). -/
theorem raise_seq (s : State) {k : Cause} (hk : k ≠ .reentry) : (raise k s).seq = .idle := by
  rw [raise, if_neg hk]

/-! ### The fault state -/

/-- RDREG runs in the fault state as ever, with VALUE = 0 for a reserved number (R220, R234). -/
theorem exec_rdreg_faulted (hs : s.seq = .idle) (hf : s.fault = true) (reg : Half) :
    exec (.rdreg reg) s = .next { s with out := some { res := .ok, value := (readReg reg s).getD 0#16 } } := by
  rw [exec_rdreg_idle hs, runRdreg_eq, if_neg (by simp [hf])]

/-- A presented word but an RDREG's, a word without a meaning included, is refused in the fault state (R234, R235). -/
theorem step_refused (hs : s.seq = .idle) (hf : s.fault = true)
    (hp : s.port = .call w st :: rest ∨ s.port = .present w st :: rest)
    (hne : ∀ reg, decode (.command w st) ≠ .ok (.rdreg reg)) : step s = .next (refuse (taken s rest)) := by
  have hs' : (taken s rest).seq = .idle := hs
  have hf' : (taken s rest).fault = true := hf
  cases hd : decode (.command w st) with
  | error e => exact (step_illegal hp hd).trans (enter_faulted hs' hf' _)
  | ok i =>
    rcases step_command hp hd with he | ⟨label, -, he⟩ <;> rw [he]
    · refine (exec_faulted hs' hf' (decode_command_not_header hd)).1 fun reg hreg => hne reg ?_
      rw [hd, hreg]
    · exact enter_faulted hs' hf' _

/-- Settles O36: the entry checks refuse a command before it is decoded, and RDREG does not pass through them. -/
theorem faultStateRefuses : Obligations.FaultStateRefuses := by
  intro s hs hf
  refine ⟨fun i hw hr hy hreg => (exec_faulted hs hf ⟨hw, hr, hy⟩).1 hreg, fun reg => ?_,
    fun w st rest hp hne => step_refused hs hf hp hne⟩
  refine ⟨_, exec_rdreg_faulted hs hf reg, ?_, ?_, ?_, ?_, ?_, fun h => by rw [readReg_reserved h]; rfl⟩
  all_goals rintro rfl; rfl

/-- Settles O37: a step without a reset keeps a recorded fault, and reset clears it. -/
theorem onlyResetClearsFault : Obligations.OnlyResetClearsFault := by
  intro s t h hf
  refine ⟨fun hrst => ?_, fun ⟨rest, hp⟩ => ?_⟩
  · obtain ⟨n, hstepped⟩ := step_stepped hrst h
    exact hstepped.fault hf
  · rw [step_reset hp] at h
    cases h
    exact ⟨rfl, rfl⟩

/-! ### Precise faults -/

/-- Which command raises which fault, as a list of cases (R232). -/
theorem Raises.cases {k : Cause} (h : Raises i k) :
    (i = .read ∨ i = .extract) ∧ k = .frameTooLong ∨
      (∃ n fills, i = .rbFill n fills) ∧ (k = .operandMismatch ∨ k = .rbFillOverrun) ∨
      (∃ o, i = .rbPeek o) ∧ k = .rbPeekRange ∨
      (∃ n, i = .rbTake n) ∧ k = .rbTakeRange ∨
      (∃ r, i = .rdreg r) ∧ k = .illegalCmd := by
  cases i with
  | read => exact .inl ⟨.inl rfl, h⟩
  | extract => exact .inl ⟨.inr rfl, h⟩
  | rbFill n fills => exact .inr (.inl ⟨⟨n, fills, rfl⟩, h⟩)
  | rbPeek o => exact .inr (.inr (.inl ⟨⟨o, rfl⟩, h⟩))
  | rbTake n => exact .inr (.inr (.inr (.inl ⟨⟨n, rfl⟩, h⟩)))
  | rdreg r => exact .inr (.inr (.inr (.inr ⟨⟨r, rfl⟩, h⟩)))
  | _ => exact h.elim

/-- A command that ends with FAULT = 1 ends by raising a fault, before any work unless it is a READ (R236). -/
theorem Ending.of_fault (hready : Ready s) (h : Ending i s t) (hf : t.fault = true) :
    Raises i t.faultCause ∧ (i = .read ∨ t = faulted t.faultCause s) := by
  cases h with
  | reads reg v hi => exact absurd (hready.2.symm.trans hf) Bool.false_ne_true
  | completes m o hi hm => exact absurd ((hm.fault.trans hready.2).symm.trans hf) Bool.false_ne_true
  | faults m k hk hi hm =>
    have hcause : (raise k m).faultCause = k := by rw [raise_first m hk.ne.2 (hm.fault.trans hready.2)]
    rw [hcause]
    refine ⟨hk, hi.imp_right ?_⟩
    rintro rfl
    exact raise_ready hready hk.ne.2

/-- Settles O39: of the ways a command ends only a fault sets FAULT. -/
theorem faultsArePrecise : Obligations.FaultsArePrecise := by
  intro s t i hready h hf
  obtain ⟨u, hu, hend⟩ := exec_ending hready (isCommand_of_idle hready.1 h)
  rw [h] at hu
  cases hu
  obtain ⟨hraises, hprecise⟩ := hend.of_fault hready hf
  exact ⟨hprecise, hraises.cases⟩

/-! ### A command presented while another is in progress -/

/-- Whatever word is presented while a command is in progress, the step raises REENTRY (R244). -/
theorem step_overlap (hs : s.seq ≠ .idle) (hp : s.port = .call w st :: rest ∨ s.port = .present w st :: rest) :
    step s = .next (raise .reentry (taken s rest)) := by
  have hs' : (taken s rest).seq ≠ .idle := hs
  cases hd : decode (.command w st) with
  | error e => exact (step_illegal hp hd).trans (enter_busy hs' _)
  | ok i =>
    rcases step_command hp hd with he | ⟨label, -, he⟩ <;> rw [he]
    · exact exec_busy hs' (decode_command_not_header hd)
    · exact enter_busy hs' _

/-- Settles O38: the entry checks come before decoding, and REENTRY leaves the sequencer where it is. -/
theorem overlapRaisesReentry : Obligations.OverlapRaisesReentry := by
  intro s w st rest hs hp
  rw [step_overlap hs hp, raise_reentry]
  rfl

/-! ### FAULT during a command

A command in progress records a fault only in the step that ends it, so an overlap before that step finds FAULT = 0 and
its cause is the first. -/

theorem endPull_fault_eq (r : Res) (s : State) : (endPull r s).fault = s.fault := by
  unfold endPull
  split <;> rfl

theorem writeString_fault_eq (bs : List Byte) (onOk : State → State) (s : State)
    (hok : ∀ m, (onOk m).fault = m.fault) : (writeString bs onOk s).fault = s.fault := by
  obtain ⟨m, out, rfl, he⟩ := writeString_spec bs onOk s
  rw [he]
  cases out with
  | ok => exact hok _
  | commFault => rfl

theorem stepP1_fault_eq (s : State) : (stepP1 s).fault = s.fault := by
  unfold stepP1 sampleRdy
  dsimp only
  cases asserted s.cfg (nextDraw s).1.level with
  | true => rfl
  | false => exact endPull_fault_eq _ _

theorem stepP4_fault_eq (s : State) : (stepP4 s).fault = s.fault := by
  unfold stepP4
  split <;> rfl

theorem moveWindow_fault_eq (s : State) : (moveWindow s).2.fault = s.fault := by
  obtain ⟨e, hf⟩ := moveWindow_frame s
  rw [hf]

theorem stepP5_fault_eq (s : State) : (stepP5 s).fault = s.fault := by
  have hf := moveWindow_fault_eq s
  unfold stepP5
  rcases hx : moveWindow s with ⟨ok, m⟩
  rw [hx] at hf
  cases ok <;> exact hf

/-- The extraction is the last step of its command (R192, R210). -/
theorem finishRead_seq (p : Res) (s : State) : (finishRead p s).seq = .idle := by
  unfold finishRead
  rcases extractStep s with ⟨e, m⟩
  cases e <;> rfl

theorem labelStep_idle_or_fault_eq (s : State) : (labelStep s).seq = .idle ∨ (labelStep s).fault = s.fault := by
  unfold labelStep
  cases s.seq <;> dsimp only
  case x1 => rw [runExtract_eq_finishRead]; exact .inl (finishRead_seq _ _)
  case r2 => exact .inl (finishRead_seq _ _)
  case w3 => exact .inr (writeString_fault_eq _ _ s fun _ => rfl)
  case w4 => exact .inr (writeString_fault_eq _ _ s fun _ => rfl)
  case p1 => exact .inr (stepP1_fault_eq s)
  case p4 => exact .inr (stepP4_fault_eq s)
  case p5 => exact .inr (stepP5_fault_eq s)
  case p9 => exact .inr (endPull_fault_eq _ _)
  all_goals exact .inr rfl

theorem sendHeader_fault_eq {d : Dir} {here reply exit : Seq} (h : sendHeader d here reply exit s = .next t) :
    t.fault = s.fault := by
  have hf : (handshakeXfer d s).2.fault = s.fault := by rw [handshakeXfer_frame]
  unfold sendHeader at h
  split at h
  case isTrue =>
    rcases hx : handshakeXfer d s with ⟨ok, m⟩
    rw [hx] at hf h
    cases ok <;> cases h <;> exact hf
  case isFalse => cases h

theorem acceptWcap_fault_eq (wcap : Half) (s : State) : (acceptWcap wcap s).fault = s.fault := by
  unfold acceptWcap
  split <;> rfl

theorem execHsReady_fault_eq {wcap rcap : Half} (h : execHsReady wcap rcap s = .next t) : t.fault = s.fault := by
  unfold execHsReady at h
  split at h
  · cases h; exact acceptWcap_fault_eq wcap s
  · split at h
    · cases h; rfl
    · cases h

/-- With nothing presented, a step that does not end the command leaves FAULT alone. -/
theorem proceed_idle_or_fault_eq (h : proceed s = .next t) : t.seq = .idle ∨ t.fault = s.fault := by
  unfold proceed at h
  cases hw : wireHeader s with
  | none => rw [hw] at h; cases h; exact labelStep_idle_or_fault_eq s
  | some i =>
    rw [hw] at h
    rcases wireHeader_cases hw with ⟨-, rfl⟩ | ⟨-, rfl⟩ | ⟨-, wcap, rcap, rfl⟩
    · exact .inr (sendHeader_fault_eq h)
    · exact .inr (sendHeader_fault_eq h)
    · exact .inr (execHsReady_fault_eq h)

/-! ### A disturbed run of labelled steps -/

/-- Does the host present a command in any of these steps? -/
def presents (p : List HostInput) : Bool := p.any (· ≠ .quiet)

theorem presents_eq_false_iff (p : List HostInput) : presents p = false ↔ ∀ x ∈ p, x = .quiet := by
  simp [presents]

theorem presents_cons {y : HostInput} (hy : y ≠ .quiet) (p : List HostInput) : presents (y :: p) = true := by
  simp [presents, hy]

/-- At IDLE no command is in progress (R35). -/
theorem seq_ne_idle_of_during {x : Meanwhile} (h : Inv (during q c x s)) : q ≠ .idle := by
  rintro rfl
  exact Bool.false_ne_true h.runs

/-- A command is in progress at `q` in a state that meets the invariant, with no fault recorded by its work so far. -/
structure Underway (q : Seq) (c : Running) (s : State) : Prop where
  inv : Inv (during q c ⟨[], false⟩ s)
  clear : s.fault = false

/-- A started command is under way at its first label. -/
theorem underway_startAt (h : Inv s) (hr : Ready s) (hl : firstLabel i = some q) : Underway q ⟨i, .ok⟩ s :=
  ⟨inv_taken (inv_startAt h hr hl) [], hr.2⟩

theorem Underway.step {q' : Seq} {c' : Running} {s' : State} (h : Underway q c s)
    (hstep : ∀ x, proceed (during q c x s) = .next (during q' c' x s')) : Underway q' c' s' := by
  obtain ⟨u, hu, hinv⟩ := proceed_safe h.inv
  rw [hstep] at hu
  cases hu
  refine ⟨hinv, ?_⟩
  have hfault := (proceed_idle_or_fault_eq (hstep ⟨[], false⟩)).resolve_left (seq_ne_idle_of_during hinv)
  exact hfault.trans h.clear

/-- A word presented meanwhile is taken from the port and leaves its REENTRY, nothing else (R244). -/
theorem Underway.step_presented (h : Underway q c s) {y : HostInput} (hq : y ≠ .quiet) (hr : y ≠ .rst) (b : Bool) :
    Machine.step (during q c ⟨y :: rest, b⟩ s) = .next (during q c ⟨rest, true⟩ s) := by
  have hraise : raise .reentry (taken (during q c ⟨y :: rest, b⟩ s) rest) = during q c ⟨rest, true⟩ s := by
    rw [raise_reentry]
    cases b <;> simp [taken, during, Meanwhile.on, h.clear]
  rw [← hraise]
  cases y with
  | quiet => exact absurd rfl hq
  | rst => exact absurd rfl hr
  | call w st => exact step_overlap (seq_ne_idle_of_during h.inv) (.inl rfl)
  | present w st => exact step_overlap (seq_ne_idle_of_during h.inv) (.inr rfl)

/-- A quiet input lets the command go on. -/
theorem step_during_quiet_head (b : Bool) :
    step (during q c ⟨.quiet :: rest, b⟩ s) = proceed (during q c ⟨rest, b⟩ s) :=
  step_proceeds (.inr ⟨rest, rfl, rfl⟩)

theorem Ends.pos {n : Nat} (h : Ends n q c s t) : 0 < n := by
  cases h <;> omega

/-- A run of labelled steps among presented commands: each quiet input is a step of the command, each presented word an
overlap, and the last quiet input ends the command (R244). -/
theorem Ends.steps_overlapped {n : Nat} (h : Ends n q c s t) (hu : Underway q c s) (p : List HostInput) (b : Bool)
    (hrst : .rst ∉ p) (hcount : p.count .quiet = n) (hlast : p.getLast? = some .quiet) :
    steps p.length (during q c ⟨p ++ rest, b⟩ s) = .next (Meanwhile.on ⟨rest, b || presents p⟩ t) := by
  induction p generalizing n q c s b with
  | nil => cases hlast
  | cons y p ih =>
    have hend (hne : p ≠ []) : p.getLast? = some .quiet := by rwa [List.getLast?_cons_of_ne_nil hne] at hlast
    have hrst' : .rst ∉ p := List.not_mem_of_not_mem_cons hrst
    rw [List.cons_append, List.length_cons, steps]
    by_cases hq : y = .quiet
    · subst hq
      rw [List.count_cons_self] at hcount
      rw [step_during_quiet_head]
      cases h with
      | last hstep =>
        obtain rfl : p = [] := by
          by_contra hne
          have := List.count_pos_iff.mpr (List.mem_of_getLast? (hend hne))
          omega
        rw [hstep]
        cases b <;> rfl
      | step hstep hrun =>
        have hne : p ≠ [] := by
          rintro rfl
          have := hrun.pos
          rw [List.count_nil] at hcount
          omega
        rw [hstep]
        exact ih hrun (hu.step hstep) b hrst' (by omega) (hend hne)
    · rw [List.count_cons_of_ne hq] at hcount
      have hne : p ≠ [] := by
        rintro rfl
        exact hq (Option.some.inj hlast)
      have hy : y ≠ .rst := (List.ne_of_not_mem_cons hrst).symm
      rw [hu.step_presented hq hy, presents_cons hq, Bool.or_true]
      exact ih h hu true hrst' hcount (hend hne)

/-- What an overlap leaves of the command's end (R244). -/
theorem on_presents (p rest : List HostInput) (t : State) : Meanwhile.on ⟨rest, presents p⟩ t =
    if ∀ x ∈ p, x = .quiet then { t with port := rest }
    else { t with port := rest, fault := true, faultCause := .reentry } := by
  cases hp : presents p with
  | false => rw [if_pos ((presents_eq_false_iff p).mp hp)]; rfl
  | true =>
    have hnot : ¬∀ x ∈ p, x = .quiet := fun hall =>
      Bool.false_ne_true (((presents_eq_false_iff p).mpr hall).symm.trans hp)
    rw [if_neg hnot]
    rfl

/-! ### The events of a labelled command -/

/-- The events end with chip-select's release if they assert it (R166). -/
def ReleasedLast (events : List BusEvent) : Prop := .cs false ∈ events → events.getLast? = some (.cs true)

theorem releasedLast_concat (events : List BusEvent) : ReleasedLast (events ++ [.cs true]) :=
  fun _ => List.getLast?_concat

theorem releasedLast_of_not_mem {events : List BusEvent} (h : .cs false ∉ events) : ReleasedLast events :=
  fun hmem => absurd hmem h

theorem trace_releasedLast {before mid : List BusEvent} (h : t.trace = s.trace ++ before ++ mid ++ [.cs true]) :
    ∃ events, t.trace = s.trace ++ events ∧ ReleasedLast events :=
  ⟨before ++ mid ++ [.cs true], by simp [h], releasedLast_concat _⟩

/-- A command with labels records chip-select's release last where it asserts chip-select (R166). -/
theorem exec_labelled_trace (h : Inv s) (hready : Ready s) (hl : firstLabel i = some q) (hexec : exec i s = .next t) :
    ∃ events, t.trace = s.trace ++ events ∧ ReleasedLast events := by
  obtain ⟨hwrite, hpull⟩ := chipSelectScoping s h hready
  have hpulls (hi : i = .pull ∨ i = .read) : ∃ events, t.trace = s.trace ++ events ∧ ReleasedLast events := by
    obtain ⟨u, hu, hev⟩ := hpull i hi
    rw [hexec] at hu
    cases hu
    rcases hev with ⟨-, mid, hev, -⟩ | ⟨-, hev⟩
    · exact trace_releasedLast hev
    · exact ⟨[.rdys false], hev, releasedLast_of_not_mem (by simp)⟩
  cases i with
  | write hdrs pays =>
    obtain ⟨u, mid, hu, hev, -⟩ := hwrite hdrs pays
    rw [hexec] at hu
    cases hu
    exact trace_releasedLast hev
  | read => exact hpulls (.inr rfl)
  | pull => exact hpulls (.inl rfl)
  | extract =>
    rw [exec_extract_ready hready, runExtract_eq_finishRead] at hexec
    cases hexec
    exact ⟨[], by rw [finishRead_trace, List.append_nil], releasedLast_of_not_mem List.not_mem_nil⟩
  | rdreg | rbContig | rbFill | rbAvail | rbPeek | rbTake | hsWreq | hsRreq | hsReady => cases hl

/-- RDREG has no labels. -/
theorem ne_rdreg_of_label (hl : firstLabel i = some q) (reg : Half) : i ≠ .rdreg reg := by
  rintro rfl
  cases hl

/-- A command run as one atomic step ends at IDLE. -/
theorem exec_idle (hready : Ready s) (h : exec i s = .next t) : t.seq = .idle := by
  obtain ⟨u, hu, hend⟩ := exec_ending hready (isCommand_of_idle hready.1 h)
  rw [h] at hu
  cases hu
  cases hend with
  | reads => exact hready.1
  | completes m o => exact complete_seq m o
  | faults m k hk => exact raise_seq m hk.ne.2

/-- Settles O52: the labelled run is the one compared with the atomic execution, and it goes on past every overlap. -/
theorem overlappedCommandRunsToItsEnd : Obligations.OverlappedCommandRunsToItsEnd := by
  intro s i label hinv hready hl
  obtain ⟨t, hexec, n, -, hends⟩ := endsWithin_exec hinv.ring hready hl
  obtain ⟨events, htrace, hlast⟩ := exec_labelled_trace hinv hready hl hexec
  have hidle : t.seq = .idle := exec_idle hready hexec
  have hcs : t.csN = true := ((inv_labelled hinv hready i hl hexec).sound hidle).csLevel
  refine ⟨n, t, events, hends.pos, hexec, hidle, hcs, htrace, hlast,
    fun o ho => ?_, fun p rest hrst hcount hquiet => ?_⟩
  · exact ((lastResFollowsResult s t i hready.1 hexec).2 o ho).2 (ne_rdreg_of_label hl)
  · rw [← on_presents]
    exact hends.steps_overlapped (underway_startAt hinv hready hl) p false hrst hcount hquiet

end Sys2Proof.Machine

/-! PROOFS. Reset (R260 to R262), the bound on a command's bus events (R274), and the stall of a frame longer than the
buffer (R267). -/

namespace Sys2Proof.Machine

variable {s : State} {i : Instr}

/-! ### Reset -/

/-- A construction leaves what a reset leaves of a block without a trace, but for the values the spec leaves open
(R260, R261), so it meets the invariant too. -/
theorem inv_construct {c : Config} (h : c.Legal) : Inv (State.construct c) := by
  have hreset : Inv (resetBlock { State.construct c with trace := [], fresh := 0 }) := inv_resetBlock h
  exact ((hreset.sound rfl).of_frame rfl).inv rfl rfl nofun

theorem chosen_legal : Config.chosen.Legal := by decide

/-- Settles O43: the chosen parameters are legal. -/
theorem resetMeetsInvariant : Obligations.ResetMeetsInvariant := inv_construct chosen_legal

/-- LAST_RES = OK, no fault, chip-select released: of the fields of STATUS bit 7 alone is set (R40). -/
theorem statusWord_reset : statusWord Res.ok.code false Cause.none.code true = 0x0080#16 := by decide

theorem status_resetBlock (s : State) : status (resetBlock s) = 0x0080#16 :=
  (status_eq _).trans statusWord_reset

/-- Settles O42: reset is taken before anything else at the port, and writes its registers whatever they held. -/
theorem resetFromAnyState : Obligations.ResetFromAnyState := fun s rest hp =>
  ⟨resetBlock (taken s rest), step_reset hp, rfl, status_resetBlock _⟩

/-- Settles O41: the registers are those of the construction, and STATUS is assembled from them. -/
theorem resetValues : Obligations.ResetValues :=
  ⟨rfl, rfl, rfl, rfl, rfl, rfl, rfl, rfl, rfl, rfl, (status_eq _).trans statusWord_reset⟩

/-! ### The bound on bus events -/

theorem complete_stepped (o : Output) (s : State) : Stepped 0 s (complete o s) :=
  stepped_quiet 0 rfl rfl fun h => ⟨h, rfl⟩

theorem setCS_stepped (b : Bool) (s : State) : Stepped 1 s (setCS b s) := stepped_event rfl rfl rfl rfl

/-- The handshake and two strings (R161). -/
theorem writeBody_stepped (hdrs pays : List Byte) (s : State) : Stepped 3 s (writeBody hdrs pays s).2 := by
  obtain ⟨r, m, ev, hbody, hlen, -, hframe⟩ := writeBody_spec hdrs pays s
  rw [hbody, hframe]
  exact ⟨rfl, ⟨ev, rfl, hlen⟩, fun h => ⟨h, rfl⟩⟩

/-- WRITE: its bus phase between two CS events (R161, R166). -/
theorem runWrite_stepped (hdrs pays : List Byte) (s : State) : Stepped 5 s (runWrite hdrs pays s) :=
  (((setCS_stepped false s).trans (writeBody_stepped hdrs pays _)).trans (setCS_stepped true _)).trans
    (complete_stepped _ _)

theorem Pulled.length_events {t : State} {r : Res} {bs : List Byte} {evs : List BusEvent} (h : Pulled s t r bs evs) :
    evs.length ≤ 6 := by
  rcases h.events with ⟨-, -, mid, hmid, rfl, -⟩ | ⟨-, -, rfl, -, -⟩
  · simp only [List.length_append, List.length_cons, List.length_nil]
    omega
  · simp

/-- PullBody(): the sample, two CS events, the handshake and at most two windows (R167, R173). -/
theorem pullBody_stepped (hr : RingInv s) : Stepped 6 s (pullBody s).2 := by
  obtain ⟨r, t, bs, evs, hbody, hpulled⟩ := pullBody_spec hr
  rw [hbody, hpulled.frame]
  exact ⟨rfl, ⟨evs, rfl, hpulled.length_events⟩, fun h => ⟨h, rfl⟩⟩

theorem runPull_stepped (hr : RingInv s) : Stepped 6 s (runPull s) := (pullBody_stepped hr).trans (complete_stepped _ _)

theorem runRead_stepped (hr : RingInv s) : Stepped 6 s (runRead s) :=
  (pullBody_stepped hr).trans (extraction_stepped _ _ _)

theorem runRdreg_stepped (reg : Half) (s : State) : Stepped 0 s (runRdreg reg s) := by
  rw [runRdreg_eq]
  split
  · exact raise_stepped _ _
  · exact stepped_quiet 0 rfl rfl fun h => ⟨h, rfl⟩

theorem execRdreg_stepped (reg : Half) (s : State) : ∃ t, execRdreg reg s = .next t ∧ Stepped 0 s t := by
  unfold execRdreg
  split
  · exact ⟨_, rfl, raise_stepped _ _⟩
  · exact ⟨_, rfl, runRdreg_stepped reg s⟩

theorem runRbFill_stepped (n : Half) (fills : List Byte) (s : State) : Stepped 0 s (runRbFill n fills s) := by
  unfold runRbFill
  split
  · exact raise_stepped _ _
  · split
    · exact raise_stepped _ _
    · exact stepped_quiet 0 rfl rfl fun h => ⟨h, rfl⟩

theorem runRbPeek_stepped (offset : Half) (s : State) : Stepped 0 s (runRbPeek offset s) := by
  unfold runRbPeek
  split
  · exact raise_stepped _ _
  · exact complete_stepped _ _

theorem runRbTake_stepped (n : Half) (s : State) : Stepped 0 s (runRbTake n s) := by
  unfold runRbTake
  split
  · exact raise_stepped _ _
  · exact stepped_quiet 0 rfl rfl fun h => ⟨h, rfl⟩

/-- A command refused or overlapping another adds no event, so the bound of its work is the command's. -/
theorem enter_bounded {n : Nat} {body : State → State} (hb : Stepped n s (body s)) :
    ∃ t, enter body s = .next t ∧ Stepped n s t := by
  rcases enter_next body s with h | h | h
  · exact ⟨_, h, (raise_stepped _ _).mono n.zero_le⟩
  · exact ⟨_, h, stepped_quiet n rfl rfl fun hf => ⟨hf, rfl⟩⟩
  · exact ⟨_, h, hb⟩

/-- The most bus events an execution of a command adds (R274). -/
def busBound : Instr → Nat
  | .write _ _ => 5
  | .pull | .read => 6
  | _ => 0

/-- Every command ends, with no more bus events than its bound, in any state whose ring buffer is sound (R274). -/
theorem exec_bounded (hr : RingInv s) (hi : IsCommand i) : ∃ t, exec i s = .next t ∧ Stepped (busBound i) s t := by
  cases i with
  | write hdrs pays => exact enter_bounded (runWrite_stepped hdrs pays s)
  | read => exact enter_bounded (runRead_stepped hr)
  | pull => exact enter_bounded (runPull_stepped hr)
  | extract => exact enter_bounded (extraction_stepped s _ _)
  | rdreg reg => exact execRdreg_stepped reg s
  | rbContig => exact enter_bounded (complete_stepped _ s)
  | rbFill n fills => exact enter_bounded (runRbFill_stepped n fills s)
  | rbAvail => exact enter_bounded (complete_stepped _ s)
  | rbPeek offset => exact enter_bounded (runRbPeek_stepped offset s)
  | rbTake n => exact enter_bounded (runRbTake_stepped n s)
  | hsWreq => exact absurd rfl hi.1
  | hsRreq => exact absurd rfl hi.2.1
  | hsReady wcap rcap => exact absurd rfl (hi.2.2 wcap rcap)

/-- Which commands have which bound. -/
theorem le_busBound_cases {n : Nat} (h : n ≤ busBound i) :
    (∃ hdrs pays, i = .write hdrs pays) ∧ n ≤ 5 ∨ (i = .pull ∨ i = .read) ∧ n ≤ 6 ∨ n = 0 := by
  cases i with
  | write hdrs pays => exact .inl ⟨⟨hdrs, pays, rfl⟩, h⟩
  | pull => exact .inr (.inl ⟨.inl rfl, h⟩)
  | read => exact .inr (.inl ⟨.inr rfl, h⟩)
  | _ => exact .inr (.inr (Nat.le_zero.mp h))

/-- Settles O47: the events of a command's work are counted part by part, and a refusal has none. -/
theorem boundedBusEvents : Obligations.BoundedBusEvents := by
  intro s i hinv _ hwreq hrreq hready
  obtain ⟨t, hexec, hstepped⟩ := exec_bounded hinv.ring ⟨hwreq, hrreq, hready⟩
  obtain ⟨events, htrace, hlen⟩ := hstepped.grows
  exact ⟨t, events, hexec, htrace, le_busBound_cases hlen⟩

/-! ### A frame longer than the buffer -/

/-- Settles O30: CNT never exceeds N (I1), so the frame is never complete, and EXTRACT leaves the buffer as it is. -/
theorem longFrameStalls : Obligations.LongFrameStalls := by
  intro s hinv hready hlong
  have hpartial : s.cnt.toNat < frameLen s := hinv.ring.cntLe.trans_lt hlong
  exact ⟨_, exec_extract_none hready (.inr hpartial), hready, rfl, contents_congr rfl rfl rfl rfl, hlong⟩

end Sys2Proof.Machine
